-- ==== Sys2Proof/Word.lean ====
section
/-!
DEFINITION. The widths and the plainest data: bytes, register numbers, XLEN, a capability value, the two CHERI
execution modes, and a table of values by key.
-/

namespace Sys2Proof

/-- One byte of memory. -/
abbrev Byte := BitVec 8

/-- A register number: the general register file has 32 entries (R11; `NREGS`, R4). -/
abbrev Reg := BitVec 5

/-- A CSR address (R41: CSRs are a separate 12-bit-addressed space). -/
abbrev CsrAddr := BitVec 12

/-- The parameter `XLEN`, 32 or 64 (R4). -/
inductive Xlen where
  | rv32
  | rv64
deriving DecidableEq, Repr, Inhabited

/-- `XLEN` as a number of bits. -/
def Xlen.bits : Xlen → Nat
  | .rv32 => 32
  | .rv64 => 64

/-- A capability value at XLEN = `w` (R5, R11): the validity tag, the CLEN - XLEN = XLEN bits of metadata and the
XLEN-bit address, and nothing else (CLEN = 2 * XLEN, R4). -/
structure Cap (w : Nat) where
  tag      : Bool
  metadata : BitVec w
  addr     : BitVec w
deriving DecidableEq, Repr, Inhabited

/-- The value an integer write leaves in a register: tag 0, `NULL_META` (all-zero metadata, R5), address `v` (R12). -/
def Cap.ofInt {w : Nat} (v : BitVec w) : Cap w := ⟨false, 0, v⟩

/-- The null capability, as register 0 always reads (R11). -/
def Cap.null {w : Nat} : Cap w := Cap.ofInt 0

/-- `CLEN / 8`, the bytes of a capability in memory and of a tag granule (R47), with CLEN = 2 * XLEN (R4). -/
def clenBytes (w : Nat) : Nat := 2 * w / 8

/-- The two CHERI execution modes (R2, R9). -/
inductive Mode where
  | int
  | cap
deriving DecidableEq, Repr, Inhabited

/-- A privilege level (R28: a type supplied by the privileged architecture).
PRESUMED (log 16): the three levels of the RISC-V family; the source names only user mode. -/
inductive Priv where
  | user
  | supervisor
  | machine
deriving DecidableEq, Repr, Inhabited

/-- Values by numeric key, in one canonical form: see `Table.wf` in Machine/Ops.lean. -/
abbrev Table (α : Type) := List (Nat × α)

end Sys2Proof
end

