-- ==== Sys2Proof/Config.lean ====
section
/-!
DEFINITION. The parameters of the model (R4) and the interface to the base CHERI extension (R5), as plain data, and
the uninterpreted functions (no body, so nothing can be proved of a value of theirs) for what the spec leaves open.
The spec makes the model "a function of the following parameters": since the step takes only a state, the state
carries them (`Hart.cfg`, log 2), no step changes them, and a statement about every state is a statement about every
value of every parameter. `Config.launch` is the one value that `State.reset` carries.
-/

namespace Sys2Proof

/-! ## Capability checks: names shared by the interface and the exceptions -/

/-- What a failed capability check reports (R181). -/
inductive Violation where
  | tag
  | seal
  | permission
  | bounds
deriving DecidableEq, Repr, Inhabited

/-- The kind of an access that a capability is asked to authorise (R5, `AuthCheck`). -/
inductive AccessKind where
  | load
  | store
  | loadCap
  | storeCap
  | fetch
  | jump
deriving DecidableEq, Repr

/-- Which check failed, the second part of a CHERI exception's `info` (R181); for a data access with its effective
address (R192: "for `data`, `ea`"). -/
inductive CheckKind where
  | data (ea : Nat)
  | jump
  | fetch
  | csr
deriving DecidableEq, Repr

/-! ## What metadata mean -/

/-- The four permissions the rules read (R5: X, ASR; R44: R, W). -/
structure Perms where
  r   : Bool
  w   : Bool
  x   : Bool
  asr : Bool
deriving DecidableEq, Repr, Inhabited

/-- Permissions and sealed state of a capability. -/
structure Rights where
  perms    : Perms
  isSealed : Bool
deriving DecidableEq, Repr, Inhabited

/-- Decoded bounds `[base, top)` (R44). -/
structure Bounds where
  base : Nat
  top  : Nat
deriving DecidableEq, Repr, Inhabited

/-- What one metadata value (its M-bit taken as 0) means: its rights, its bounds when the capability's address is in
`[repBase, repTop)`, and its bounds when the address is outside (R5). -/
structure MetaForm (w : Nat) where
  bits    : BitVec w
  rights  : Rights
  bounds  : Bounds
  repBase : Nat
  repTop  : Nat
  outside : Bounds
deriving DecidableEq, Repr

/-- Rights of metadata that are not `INFINITE_CAP`'s and that `Config.forms` does not list: open (R5, N4; log 6). -/
opaque Config.freeRights {w : Nat} (metadata : BitVec w) : Rights

/-- Bounds of metadata that are not `INFINITE_CAP`'s and that `Config.forms` does not list, at an address: open (R5, N4; log 6). -/
opaque Config.freeBounds {w : Nat} (metadata addr : BitVec w) : Bounds

/-! ## The base CHERI extension's functions -/

/-- How a function of `BaseCheri` is supplied: by the default the spec writes down for it, or by an uninterpreted
function. -/
inductive Source where
  | given
  | free
deriving DecidableEq, Repr

/-- The functions of `BaseCheri` (R5) that are not observers of a capability. -/
structure BaseFunctions where
  /-- `AuthCheck` (R44); `given` is the default R44 writes down (log 8). -/
  auth        : Source
  /-- `LinkCap` (R107); `given` is the reading of program P4 of spec/95: `pcc` with the return address (log 9). -/
  link        : Source
  /-- `JalrCap` (R109); `given` rejects what `AuthCheck` rejects and links as `LinkCap` does (log 10). -/
  jalr        : Source
  /-- Whether a Capability Mode JALR too checks its target against the old `pcc`, as R100 and R182 say (log 47). -/
  jalrPcc     : Bool
  /-- `SetAddr` (R108); `given` is `set_addr_scaddr` (R5, R156). -/
  setAddr     : Source
  /-- `LoadCapFilter` (R140); `given` is the identity. -/
  loadFilter  : Source
  /-- `StoreCapFilter` (R141); `given` is the identity. -/
  storeFilter : Source
  /-- `CapModeStep` (R67, R142); `given` is a base extension with no instruction besides the opcode table's (log 49). -/
  capModeStep : Source
deriving DecidableEq, Repr

/-- Tag and metadata of the link capability for a `pcc` and a return address: open (R107, N12; log 9). -/
opaque Config.freeLink {w : Nat} (pcc : Cap w) (ret : BitVec w) : Bool × BitVec w

/-- `AuthCheck` of a base CHERI extension that brings its own; `none` is `ok`: open (R5; log 8). -/
opaque Config.freeAuth {w : Nat} (c : Cap w) (k : AccessKind) (a : BitVec w) (n : Nat) : Option Violation

/-- The verdict of `JalrCap` on an operand that `AuthCheck` rejects as a target; `none` accepts it: open (R109, N12;
log 10). -/
opaque Config.freeJalrCheck {w : Nat} (c : Cap w) (imm : BitVec 12) (pcc : Cap w) : Option Violation

/-- The metadata of a sealed JALR target once unsealed: open (R109, N12; log 10). -/
opaque Config.freeUnsealed {w : Nat} (c : Cap w) (imm : BitVec 12) (pcc : Cap w) : BitVec w

/-- Tag and metadata of `JalrCap`'s own link: open (R109, N12; log 10). -/
opaque Config.freeJalrLink {w : Nat} (c : Cap w) (imm : BitVec 12) (pcc : Cap w) : Bool × BitVec w

/-- Tag and metadata of `SetAddr`: open (R108, N12; log 11). -/
opaque Config.freeSetAddr {w : Nat} (pcc : Cap w) (v : BitVec w) : Bool × BitVec w

/-- `LoadCapFilter`: open (R140; log 12). -/
opaque Config.freeLoadFilter {w : Nat} (auth v : Cap w) : Cap w

/-- `StoreCapFilter`: open (R141; log 12). -/
opaque Config.freeStoreFilter {w : Nat} (auth v : Cap w) : Cap w

/-! ## CSRs -/

/-- The three classes of CSR (R150). -/
inductive CsrClass where
  | new
  | ext
  | ord
deriving DecidableEq, Repr

/-- An implemented CSR: its class (R150), whether it needs ASR-permission (`PrivilegedCSRs`, R152), and its write
rule: the default of R155 (for an ordinary CSR, the written bits), or "specified otherwise" elsewhere. -/
structure CsrDesc where
  addr     : CsrAddr
  cls      : CsrClass
  needsAsr : Bool
  write    : Source
deriving DecidableEq, Repr

/-- A write request to a capability CSR (R155). -/
inductive CapWrite (w : Nat) where
  | addrOnly (v : BitVec w)
  | full (c : Cap w)
deriving DecidableEq, Repr

/-- `ExtCSRWrite` of a CSR whose write rule is specified outside the source: open (R155, U4, U5; log 13). -/
opaque Config.freeCapCsrWrite {w : Nat} (a : CsrAddr) (old : Cap w) (req : CapWrite w) : Cap w

/-- The legalised value of a write to an ordinary CSR with WARL fields: "the CSR's own" (R159; log 14). -/
opaque Config.freeLegalise {w : Nat} (a : CsrAddr) (old v : BitVec w) : BitVec w

/-- `cheri_access_enabled`, one bit per privilege level (R27). -/
structure CheriAccess where
  user       : Bool
  supervisor : Bool
  machine    : Bool
deriving DecidableEq, Repr

/-! ## Policies -/

/-- `MISALIGNED` (R48). -/
inductive MisalignedPolicy where
  | refuse
  | trap
  | bytewise
deriving DecidableEq, Repr

/-- `SCMODE_NO_X` (R120, D18). -/
inductive ScmodeNoX where
  | unchanged
  | clearTag
  | writeAnyway
deriving DecidableEq, Repr

/-- `GCMODE_NO_X` (R121, D19). -/
inductive GcmodeNoX where
  | zero
  | rawBit
deriving DecidableEq, Repr

/-- `MIN_INSN_BYTES` (R4, D22). -/
inductive MinInsn where
  | two
  | four
deriving DecidableEq, Repr

/-- `MIN_INSN_BYTES` as a number. -/
def MinInsn.bytes : MinInsn → Nat
  | .two => 2
  | .four => 4

/-! ## Encodings -/

/-- A (match, mask) pair: a word `i` is the instruction iff `i &&& mask = mtch` (R63). -/
structure Pattern where
  mtch : BitVec 32
  mask : BitVec 32
deriving DecidableEq, Repr

/-- The open encodings `ENC_SCMODE` .. `ENC_GCTAG`, `ENC_LC`, `ENC_SC` (R63). -/
structure Encodings where
  scmode    : Pattern
  gcmode    : Pattern
  modeswCap : Pattern
  modeswInt : Pattern
  gctag     : Pattern
  lc        : Pattern
  sc        : Pattern
deriving DecidableEq, Repr

/-! ## Traps -/

/-- The CSRs a trap handler entry uses (R187's sketch): vector, exception pc, cause, trap value, the CHERI trap-value
register, and the status register. -/
structure TrapCsrs where
  vector : CsrAddr
  epc    : CsrAddr
  cause  : CsrAddr
  tval   : CsrAddr
  tval2  : CsrAddr
  status : CsrAddr
deriving DecidableEq, Repr

/-- `TrapModel` (R180): the default, a raised exception ends the run; or entry to a machine-mode handler (R187;
log 24). -/
inductive TrapModel where
  | terminal
  | handler (csrs : TrapCsrs)
deriving DecidableEq, Repr

/-- The open cause numbers (R192, D16). -/
structure Causes where
  iam     : Nat
  illegal : Nat
  lam     : Nat
  sam     : Nat
  cheri   : Nat
deriving DecidableEq, Repr

/-- `TVAL_CHERI`: what the CHERI trap-value register records of a violation and a kind: open (R181, D16; log 26). -/
opaque Config.freeTval {w : Nat} (v : Violation) (k : CheckKind) : BitVec w

/-! ## Launch parameters -/

/-- The addresses `lo`, .., `hi - 1`. -/
structure Range where
  lo : Nat
  hi : Nat
deriving DecidableEq, Repr

/-- All parameters of R4 and R5 but XLEN, for XLEN = `w`. -/
structure Config (w : Nat) where
  capModeValue : Bool
  minInsn      : MinInsn
  mPos         : Fin w
  /-- The metadata of `INFINITE_CAP` (R5): every value of them, its M-bit included, since neither is stated (N14). -/
  infinite     : BitVec w
  /-- What other metadata mean (log 6). -/
  forms        : List (MetaForm w)
  base         : BaseFunctions
  cheriAccess  : CheriAccess
  csrs         : List CsrDesc
  misaligned   : MisalignedPolicy
  scmodeNoX    : ScmodeNoX
  gcmodeNoX    : GcmodeNoX
  enc          : Encodings
  trap         : TrapModel
  causes       : Causes
  /-- Addresses the launch memory does not back (R41, D13). -/
  unbacked     : List Range
  /-- The program text (R52, D34). -/
  text         : List Range
  /-- `END_PC` (R207). -/
  endPc        : Option (BitVec w)
deriving DecidableEq, Repr

/-! ## The launch value -/

/-- The open encodings at launch. PRESUMED (log 20): the values recalled in spec/93 G12, which are no part of the
spec; they stand here so that a run from reset can reach these instructions, and no statement rests on them. -/
def Encodings.launch (x : Xlen) : Encodings where
  scmode    := ⟨0x0C007033#32, 0xFE00707F#32⟩
  gcmode    := ⟨0x10300033#32, 0xFFF0707F#32⟩
  modeswCap := ⟨0x12001033#32, 0xFFFFFFFF#32⟩
  modeswInt := ⟨0x14001033#32, 0xFFFFFFFF#32⟩
  gctag     := ⟨0x10000033#32, 0xFFF0707F#32⟩
  lc        := match x with
    | .rv32 => ⟨0x00003003#32, 0x0000707F#32⟩
    | .rv64 => ⟨0x0000400F#32, 0x0000707F#32⟩
  sc        := match x with
    | .rv32 => ⟨0x00003023#32, 0x0000707F#32⟩
    | .rv64 => ⟨0x00004023#32, 0x0000707F#32⟩

/-- The CSRs implemented at launch. PRESUMED (log 15): the members R24 and the vectors of spec/95 name, at the
addresses of the RISC-V family. `ddc` is not listed: it is always implemented (`Config.csr?` in Machine/Csr.lean). -/
def Config.launchCsrs : List CsrDesc :=
  [⟨0x017#12, .ext, false, .given⟩, ⟨0x105#12, .ext, true, .free⟩, ⟨0x140#12, .ext, true, .given⟩,
   ⟨0x141#12, .ext, true, .free⟩, ⟨0x300#12, .ord, true, .free⟩, ⟨0x305#12, .ext, true, .free⟩] ++
  [⟨0x340#12, .ext, true, .given⟩, ⟨0x341#12, .ext, true, .free⟩, ⟨0x342#12, .ord, true, .free⟩,
   ⟨0x343#12, .ord, true, .given⟩, ⟨0x34B#12, .ord, true, .given⟩, ⟨0xC00#12, .ord, false, .given⟩]

/-- The metadata of the infinite capability at launch, M-bit 0. DESIGN CHOICE (log 6): any value other than
`NULL_META` whose M-bit is 0. -/
def Config.launchInfinite {w : Nat} : BitVec w := 2#w

/-- Bit 0 of the metadata, as a position below XLEN. -/
def Xlen.bitZero (x : Xlen) : Fin x.bits := ⟨0, by cases x <;> decide⟩

/-- The parameters that `State.reset` carries: the spec's defaults where R4 and R5 give one, else the choices of
logs 4 to 6, 8 to 20, 24, 26, 29 to 31, 37, 39, 47 and 49. -/
def Config.launch (x : Xlen) : Config x.bits where
  capModeValue := true
  minInsn      := .four
  mPos         := x.bitZero
  infinite     := launchInfinite
  forms        := [⟨0#x.bits, ⟨⟨false, false, false, false⟩, false⟩, ⟨0, 0⟩, 0, 2 ^ x.bits, ⟨0, 0⟩⟩]
  base         := { auth := .given, link := .free, jalr := .free, jalrPcc := true, setAddr := .given,
                    loadFilter := .given, storeFilter := .given, capModeStep := .given }
  cheriAccess  := ⟨true, true, true⟩
  csrs         := launchCsrs
  misaligned   := .refuse
  scmodeNoX    := .unchanged
  gcmodeNoX    := .zero
  enc          := .launch x
  trap         := .terminal
  causes       := ⟨0, 2, 4, 6, 28⟩
  unbacked     := []
  text         := []
  endPc        := none

end Sys2Proof
end

