-- ==== Sys2Proof/Syntax.lean ====
section
/-!
DEFINITION. The instructions: one constructor per row of spec/opcode_table.json, in the table's order. Register
fields are numbers; whether one is read as an *x* or a *c* register is decided by the instruction's rule and the
execution mode, never by the encoding (R65). Branch and jump offsets carry their zero bit (R62).
-/

namespace Sys2Proof

/-- The 33 instructions of spec/opcode_table.json. -/
inductive Instr where
  | lb (rd rs1 : Reg) (imm : BitVec 12)
  | lh (rd rs1 : Reg) (imm : BitVec 12)
  | lw (rd rs1 : Reg) (imm : BitVec 12)
  | ld (rd rs1 : Reg) (imm : BitVec 12)
  | lbu (rd rs1 : Reg) (imm : BitVec 12)
  | lhu (rd rs1 : Reg) (imm : BitVec 12)
  | lwu (rd rs1 : Reg) (imm : BitVec 12)
  | sb (rs2 rs1 : Reg) (imm : BitVec 12)
  | sh (rs2 rs1 : Reg) (imm : BitVec 12)
  | sw (rs2 rs1 : Reg) (imm : BitVec 12)
  | sd (rs2 rs1 : Reg) (imm : BitVec 12)
  | beq (rs1 rs2 : Reg) (off : BitVec 13)
  | bne (rs1 rs2 : Reg) (off : BitVec 13)
  | blt (rs1 rs2 : Reg) (off : BitVec 13)
  | bge (rs1 rs2 : Reg) (off : BitVec 13)
  | bltu (rs1 rs2 : Reg) (off : BitVec 13)
  | bgeu (rs1 rs2 : Reg) (off : BitVec 13)
  | jal (rd : Reg) (off : BitVec 21)
  | jalr (rd rs1 : Reg) (imm : BitVec 12)
  | auipc (rd : Reg) (imm : BitVec 20)
  | csrrw (rd rs1 : Reg) (csr : CsrAddr)
  | csrrs (rd rs1 : Reg) (csr : CsrAddr)
  | csrrc (rd rs1 : Reg) (csr : CsrAddr)
  | csrrwi (rd uimm : BitVec 5) (csr : CsrAddr)
  | csrrsi (rd uimm : BitVec 5) (csr : CsrAddr)
  | csrrci (rd uimm : BitVec 5) (csr : CsrAddr)
  | scmode (cd cs1 rs2 : Reg)
  | gcmode (rd cs1 : Reg)
  | modeswCap
  | modeswInt
  | gctag (rd cs1 : Reg)
  | lc (cd rs1 : Reg) (imm : BitVec 12)
  | sc (cs2 rs1 : Reg) (imm : BitVec 12)
deriving DecidableEq, Repr, Inhabited

end Sys2Proof
end

