-- ==== Sys2Proof/WellFormed.lean ====
section
/-!
DEFINITION. Which terms of `Instr` stand for an instruction word at a given XLEN.
-/

namespace Sys2Proof

/-- A term is well formed when its branch or jump offset has the zero bit that the B and J formats give it (R62:
"multiple of 2") and when it exists at this XLEN (R64, "present when": LD, LWU and SD only for XLEN = 64). -/
def Instr.wf (x : Xlen) : Instr → Bool
  | .ld _ _ _ | .lwu _ _ _ | .sd _ _ _ => x == .rv64
  | .beq _ _ off | .bne _ _ off | .blt _ _ off | .bge _ _ off | .bltu _ _ off | .bgeu _ _ off => !off.getLsbD 0
  | .jal _ off => !off.getLsbD 0
  | .lb _ _ _ | .lh _ _ _ | .lw _ _ _ | .lbu _ _ _ | .lhu _ _ _ | .sb _ _ _ | .sh _ _ _ | .sw _ _ _ => true
  | .jalr _ _ _ | .auipc _ _ => true
  | .csrrw _ _ _ | .csrrs _ _ _ | .csrrc _ _ _ | .csrrwi _ _ _ | .csrrsi _ _ _ | .csrrci _ _ _ => true
  | .scmode _ _ _ | .gcmode _ _ | .modeswCap | .modeswInt | .gctag _ _ | .lc _ _ _ | .sc _ _ _ => true

end Sys2Proof
end

