-- ==== Sys2Proof/Decode.lean ====
section
/-!
DEFINITION. Decoding an instruction word (R60 to R67) and encoding an instruction, from one table of rows: each row
is a (match, mask) pair of R64 or an open one of R63, with the function that reads the row's fields (R61, R62).
The execution mode changes no bit of an encoding (R65); it only settles which of MODESW.CAP and MODESW.INT a word is
when their two open encodings coincide, which R63 allows.
-/

namespace Sys2Proof

/-! ## Fields (R61) and immediates (R62) -/

/-- Field [11:7]: `rd`, `cd`. -/
def fieldRd (i : BitVec 32) : Reg := i.extractLsb' 7 5

/-- Field [19:15]: `rs1`, `cs1`, `uimm`. -/
def fieldRs1 (i : BitVec 32) : Reg := i.extractLsb' 15 5

/-- Field [24:20]: `rs2`, `cs2`. -/
def fieldRs2 (i : BitVec 32) : Reg := i.extractLsb' 20 5

/-- I: `imm12 = i[31:20]`; also `csr`. -/
def immI (i : BitVec 32) : BitVec 12 := i.extractLsb' 20 12

/-- S: `imm12 = i[31:25] :: i[11:7]`. -/
def immS (i : BitVec 32) : BitVec 12 := i.extractLsb' 25 7 ++ i.extractLsb' 7 5

/-- B: `imm13 = i[31] :: i[7] :: i[30:25] :: i[11:8] :: 0`. -/
def immB (i : BitVec 32) : BitVec 13 :=
  i.extractLsb' 31 1 ++ i.extractLsb' 7 1 ++ i.extractLsb' 25 6 ++ i.extractLsb' 8 4 ++ 0#1

/-- U: the upper 20 bits `i[31:12]`. -/
def immU (i : BitVec 32) : BitVec 20 := i.extractLsb' 12 20

/-- J: `imm21 = i[31] :: i[19:12] :: i[20] :: i[30:21] :: 0`. -/
def immJ (i : BitVec 32) : BitVec 21 :=
  i.extractLsb' 31 1 ++ i.extractLsb' 12 8 ++ i.extractLsb' 20 1 ++ i.extractLsb' 21 10 ++ 0#1

/-! ## The rows -/

/-- A word is the row's instruction iff its masked bits are the row's (R63). -/
def Pattern.hits (p : Pattern) (i : BitVec 32) : Bool := i &&& p.mask == p.mtch

/-- A row of the opcode table: its pattern and what a word that hits it decodes to. -/
structure Row where
  pat   : Pattern
  build : BitVec 32 → Instr

/-- A row whose operands are `rd`, `rs1` and the I immediate (or the CSR address). -/
def rowI (p : Pattern) (c : Reg → Reg → BitVec 12 → Instr) : Row := ⟨p, fun i => c (fieldRd i) (fieldRs1 i) (immI i)⟩

/-- A row whose operands are `rs2`, `rs1` and the S immediate. -/
def rowS (p : Pattern) (c : Reg → Reg → BitVec 12 → Instr) : Row := ⟨p, fun i => c (fieldRs2 i) (fieldRs1 i) (immS i)⟩

/-- A row whose operands are `rs1`, `rs2` and the B immediate. -/
def rowB (p : Pattern) (c : Reg → Reg → BitVec 13 → Instr) : Row := ⟨p, fun i => c (fieldRs1 i) (fieldRs2 i) (immB i)⟩

/-- Opcode and funct3 fixed (the mask of every row of R64 with a funct3). -/
def patFunct3 (m : BitVec 32) : Pattern := ⟨m, 0x0000707F#32⟩

/-- Only the opcode fixed (JAL, AUIPC). -/
def patOpcode (m : BitVec 32) : Pattern := ⟨m, 0x0000007F#32⟩

/-- The pattern of an instruction: the match and mask of spec/opcode_table.json (R64), or an open encoding (R63). -/
def patternOf (e : Encodings) : Instr → Pattern
  | .lb _ _ _     => patFunct3 0x00000003#32
  | .lh _ _ _     => patFunct3 0x00001003#32
  | .lw _ _ _     => patFunct3 0x00002003#32
  | .ld _ _ _     => patFunct3 0x00003003#32
  | .lbu _ _ _    => patFunct3 0x00004003#32
  | .lhu _ _ _    => patFunct3 0x00005003#32
  | .lwu _ _ _    => patFunct3 0x00006003#32
  | .sb _ _ _     => patFunct3 0x00000023#32
  | .sh _ _ _     => patFunct3 0x00001023#32
  | .sw _ _ _     => patFunct3 0x00002023#32
  | .sd _ _ _     => patFunct3 0x00003023#32
  | .beq _ _ _    => patFunct3 0x00000063#32
  | .bne _ _ _    => patFunct3 0x00001063#32
  | .blt _ _ _    => patFunct3 0x00004063#32
  | .bge _ _ _    => patFunct3 0x00005063#32
  | .bltu _ _ _   => patFunct3 0x00006063#32
  | .bgeu _ _ _   => patFunct3 0x00007063#32
  | .jal _ _      => patOpcode 0x0000006F#32
  | .jalr _ _ _   => patFunct3 0x00000067#32
  | .auipc _ _    => patOpcode 0x00000017#32
  | .csrrw _ _ _  => patFunct3 0x00001073#32
  | .csrrs _ _ _  => patFunct3 0x00002073#32
  | .csrrc _ _ _  => patFunct3 0x00003073#32
  | .csrrwi _ _ _ => patFunct3 0x00005073#32
  | .csrrsi _ _ _ => patFunct3 0x00006073#32
  | .csrrci _ _ _ => patFunct3 0x00007073#32
  | .scmode _ _ _ => e.scmode
  | .gcmode _ _   => e.gcmode
  | .modeswCap    => e.modeswCap
  | .modeswInt    => e.modeswInt
  | .gctag _ _    => e.gctag
  | .lc _ _ _     => e.lc
  | .sc _ _ _     => e.sc

/-- The base loads and stores present at every XLEN. -/
def rowsLoadStore (e : Encodings) : List Row :=
  [rowI (patternOf e (.lb 0 0 0)) .lb, rowI (patternOf e (.lh 0 0 0)) .lh, rowI (patternOf e (.lw 0 0 0)) .lw,
   rowI (patternOf e (.lbu 0 0 0)) .lbu, rowI (patternOf e (.lhu 0 0 0)) .lhu,
   rowS (patternOf e (.sb 0 0 0)) .sb, rowS (patternOf e (.sh 0 0 0)) .sh, rowS (patternOf e (.sw 0 0 0)) .sw]

/-- LD, LWU and SD, present when XLEN = 64. -/
def rowsRv64 (e : Encodings) : Xlen → List Row
  | .rv32 => []
  | .rv64 => [rowI (patternOf e (.ld 0 0 0)) .ld, rowI (patternOf e (.lwu 0 0 0)) .lwu,
              rowS (patternOf e (.sd 0 0 0)) .sd]

/-- Branches, jumps and AUIPC. -/
def rowsControl (e : Encodings) : List Row :=
  [rowB (patternOf e (.beq 0 0 0)) .beq, rowB (patternOf e (.bne 0 0 0)) .bne, rowB (patternOf e (.blt 0 0 0)) .blt,
   rowB (patternOf e (.bge 0 0 0)) .bge, rowB (patternOf e (.bltu 0 0 0)) .bltu,
   rowB (patternOf e (.bgeu 0 0 0)) .bgeu] ++
  [⟨patternOf e (.jal 0 0), fun i => .jal (fieldRd i) (immJ i)⟩, rowI (patternOf e (.jalr 0 0 0)) .jalr,
   ⟨patternOf e (.auipc 0 0), fun i => .auipc (fieldRd i) (immU i)⟩]

/-- The six Zicsr instructions. -/
def rowsCsr (e : Encodings) : List Row :=
  [rowI (patternOf e (.csrrw 0 0 0)) .csrrw, rowI (patternOf e (.csrrs 0 0 0)) .csrrs,
   rowI (patternOf e (.csrrc 0 0 0)) .csrrc, rowI (patternOf e (.csrrwi 0 0 0)) .csrrwi,
   rowI (patternOf e (.csrrsi 0 0 0)) .csrrsi, rowI (patternOf e (.csrrci 0 0 0)) .csrrci]

/-- MODESW.CAP. -/
def rowModeswCap (e : Encodings) : Row := ⟨e.modeswCap, fun _ => .modeswCap⟩

/-- MODESW.INT. -/
def rowModeswInt (e : Encodings) : Row := ⟨e.modeswInt, fun _ => .modeswInt⟩

/-- The two mode switches, the one valid in the current mode first: if their encodings coincide (R63), the word is
the one valid in this mode (R66). DEDUCED (log 21). -/
def rowsModesw (e : Encodings) : Mode → List Row
  | .int => [rowModeswCap e, rowModeswInt e]
  | .cap => [rowModeswInt e, rowModeswCap e]

/-- The instructions with open encodings but MODESW (R63). -/
def rowsOpen (e : Encodings) : List Row :=
  [⟨e.scmode, fun i => .scmode (fieldRd i) (fieldRs1 i) (fieldRs2 i)⟩,
   ⟨e.gcmode, fun i => .gcmode (fieldRd i) (fieldRs1 i)⟩,
   ⟨e.gctag, fun i => .gctag (fieldRd i) (fieldRs1 i)⟩,
   rowI e.lc .lc, rowS e.sc .sc]

/-- Every row of spec/opcode_table.json that is present at this XLEN. -/
def rows (x : Xlen) (e : Encodings) (m : Mode) : List Row :=
  rowsLoadStore e ++ rowsRv64 e x ++ rowsControl e ++ rowsCsr e ++ rowsModesw e m ++ rowsOpen e

/-! ## Decoding -/

/-- Why bytes are no instruction of this model. -/
inductive DecodeError where
  /-- Fewer than the four bytes of a 32-bit instruction. -/
  | tooShort
  /-- Bits [1:0] are not 11: no 32-bit encoding (R60); the source defines no shorter one (R67). -/
  | notThirtyTwoBit
  /-- The word matches no row of the opcode table (R67). -/
  | noSuchWord
deriving DecidableEq, Repr

/-- Decode one 32-bit word. -/
def decodeWord (x : Xlen) (e : Encodings) (m : Mode) (i : BitVec 32) : Except DecodeError Instr :=
  if i.extractLsb' 0 2 = 3#2 then
    match (rows x e m).find? (fun r => r.pat.hits i) with
    | some r => .ok (r.build i)
    | none => .error .noSuchWord
  else .error .notThirtyTwoBit

/-- The 32-bit word of four bytes, the first the least significant: instruction fetch is little-endian (R49). -/
def wordOfBytes (b0 b1 b2 b3 : Byte) : BitVec 32 := b3 ++ b2 ++ b1 ++ b0

/-- Decode the instruction at the head of a list of bytes, with the bytes after it. -/
def decode (x : Xlen) (e : Encodings) (m : Mode) : List Byte → Except DecodeError (Instr × List Byte)
  | b0 :: b1 :: b2 :: b3 :: rest =>
    match decodeWord x e m (wordOfBytes b0 b1 b2 b3) with
    | .ok i => .ok (i, rest)
    | .error err => .error err
  | _ => .error .tooShort

/-! ## Encoding -/

/-- The low `n` bits of `v` at bit `at`. -/
def place {n : Nat} (pos : Nat) (v : BitVec n) : BitVec 32 := v.setWidth 32 <<< pos

/-- The operand bits of an instruction word (R61, R62). -/
def operandBits : Instr → BitVec 32
  | .lb rd rs1 imm | .lh rd rs1 imm | .lw rd rs1 imm | .ld rd rs1 imm | .lbu rd rs1 imm | .lhu rd rs1 imm
  | .lwu rd rs1 imm | .jalr rd rs1 imm | .lc rd rs1 imm => place 7 rd ||| place 15 rs1 ||| place 20 imm
  | .csrrw rd rs1 csr | .csrrs rd rs1 csr | .csrrc rd rs1 csr | .csrrwi rd rs1 csr | .csrrsi rd rs1 csr
  | .csrrci rd rs1 csr => place 7 rd ||| place 15 rs1 ||| place 20 csr
  | .sb rs2 rs1 imm | .sh rs2 rs1 imm | .sw rs2 rs1 imm | .sd rs2 rs1 imm | .sc rs2 rs1 imm =>
    place 7 (imm.extractLsb' 0 5) ||| place 15 rs1 ||| place 20 rs2 ||| place 25 (imm.extractLsb' 5 7)
  | .beq rs1 rs2 off | .bne rs1 rs2 off | .blt rs1 rs2 off | .bge rs1 rs2 off | .bltu rs1 rs2 off
  | .bgeu rs1 rs2 off =>
    place 7 (off.extractLsb' 11 1) ||| place 8 (off.extractLsb' 1 4) ||| place 15 rs1 ||| place 20 rs2 |||
      place 25 (off.extractLsb' 5 6) ||| place 31 (off.extractLsb' 12 1)
  | .jal rd off =>
    place 7 rd ||| place 12 (off.extractLsb' 12 8) ||| place 20 (off.extractLsb' 11 1) |||
      place 21 (off.extractLsb' 1 10) ||| place 31 (off.extractLsb' 20 1)
  | .auipc rd imm => place 7 rd ||| place 12 imm
  | .scmode cd cs1 rs2 => place 7 cd ||| place 15 cs1 ||| place 20 rs2
  | .gcmode rd cs1 | .gctag rd cs1 => place 7 rd ||| place 15 cs1
  | .modeswCap | .modeswInt => 0#32

/-- The word of an instruction. -/
def encodeWord (e : Encodings) (i : Instr) : BitVec 32 := (patternOf e i).mtch ||| operandBits i

/-- The four bytes of a word, the least significant first (R49). -/
def bytesOfWord (w : BitVec 32) : List Byte :=
  [w.extractLsb' 0 8, w.extractLsb' 8 8, w.extractLsb' 16 8, w.extractLsb' 24 8]

/-- The bytes of an instruction in memory. -/
def encode (e : Encodings) (i : Instr) : List Byte := bytesOfWord (encodeWord e i)

/-! ## What R63 allows the model to assume of the open encodings -/

/-- No word hits both patterns: they disagree on a bit that both fix. -/
def Pattern.disjoint (p q : Pattern) : Bool := (p.mtch ^^^ q.mtch) &&& (p.mask &&& q.mask) != 0#32

/-- The pattern fixes bits [1:0] to 11, its match lies within its mask, and it leaves the operand bits free. -/
def Pattern.leaves (p : Pattern) (operands : BitVec 32) : Bool :=
  p.mtch &&& p.mask == p.mtch && p.mask &&& operands == 0#32 && p.mtch.extractLsb' 0 2 == 3#2 &&
    p.mask.extractLsb' 0 2 == 3#2

/-- The operand bits of the R, I and S formats. -/
def operandsRdRs1 : BitVec 32 := 0x000F8F80#32
/-- `cd`, `cs1`, `rs2`. -/
def operandsRdRs1Rs2 : BitVec 32 := 0x01FF8F80#32
/-- `rd`, `rs1`, `imm12`. -/
def operandsI : BitVec 32 := 0xFFFF8F80#32
/-- `rs2`, `rs1`, `imm12`. -/
def operandsS : BitVec 32 := 0xFFFF8F80#32

/-- Each two patterns of a list are disjoint. -/
def disjointAll : List Pattern → Bool
  | [] => true
  | p :: ps => ps.all p.disjoint && disjointAll ps

/-- The constraints of R63 on the open encodings: they leave their operand fields free, they are disjoint from each
other (MODESW.CAP and MODESW.INT may coincide) and from every row of R64 present at this XLEN. -/
def Encodings.ok (x : Xlen) (e : Encodings) : Bool :=
  e.scmode.leaves operandsRdRs1Rs2 && e.gcmode.leaves operandsRdRs1 && e.gctag.leaves operandsRdRs1 &&
  e.modeswCap.leaves 0#32 && e.modeswInt.leaves 0#32 && e.lc.leaves operandsI && e.sc.leaves operandsS &&
  (e.modeswCap == e.modeswInt || e.modeswCap.disjoint e.modeswInt) &&
  disjointAll (((rowsLoadStore e ++ rowsRv64 e x ++ rowsControl e ++ rowsCsr e).map (·.pat)) ++
    e.modeswCap :: (rowsOpen e).map (·.pat)) &&
  ((rowsLoadStore e ++ rowsRv64 e x ++ rowsControl e ++ rowsCsr e ++ rowsOpen e).map (·.pat)).all e.modeswInt.disjoint

/-! ## The host's reading of the opcode table -/

/-- The bytes of an instruction whose bits are `w`, of which the table gives `nbits`: four bytes, the first the least
significant, bits from `nbits` on zero. -/
def tableBytes (nbits w : Nat) : List Byte := bytesOfWord (BitVec.ofNat 32 (w % 2 ^ nbits))

/-- The instruction the decoder reads from a word of the opcode table, with the launch encodings at XLEN = 64 (where
every row is present), in Integer Mode. -/
def decodeTableWord (nbits w : Nat) : Option Instr :=
  match decode .rv64 (.launch .rv64) .int (tableBytes nbits w) with
  | .ok (i, _) => some i
  | .error _ => none

end Sys2Proof
end

