-- ==== Sys2Proof/Machine/Caps.lean ====
section
/-!
DEFINITION. Tables of values by key, the observers and updates of a capability (R5), and the capability check (R44).
-/

namespace Sys2Proof

/-! ## Tables -/

/-- The value at a key; `d` where none is listed. -/
def Table.get {α : Type} (d : α) : Table α → Nat → α
  | [], _ => d
  | (a, v) :: t, k => if a = k then v else Table.get d t k

/-- Set the value at a key, keeping the canonical form: keys rise, and no entry equals `d`. -/
def Table.set {α : Type} [DecidableEq α] (d : α) : Table α → Nat → α → Table α
  | [], k, v => if v = d then [] else [(k, v)]
  | (a, u) :: t, k, v =>
    if k < a then (if v = d then (a, u) :: t else (k, v) :: (a, u) :: t)
    else if k = a then (if v = d then t else (k, v) :: t)
    else (a, u) :: Table.set d t k v

/-- The canonical form: keys strictly rise and no entry equals what an unlisted key reads as. -/
def Table.wf {α : Type} [DecidableEq α] (d : α) : Table α → Bool
  | [] => true
  | (a, v) :: t => decide (v ≠ d) && t.all (fun e => decide (a < e.1)) && Table.wf d t

/-! ## What a capability's metadata say (R5) -/

/-- The single bit of the M field. -/
def mBit {w : Nat} (cfg : Config w) : BitVec w := BitVec.twoPow w cfg.mPos

/-- `c.M` (R14). -/
def Cap.m {w : Nat} (cfg : Config w) (c : Cap w) : Bool := c.metadata.getLsbD cfg.mPos

/-- `with_M(c, m)`: `c` with `M = m` (R5). -/
def Cap.withM {w : Nat} (cfg : Config w) (c : Cap w) (m : Bool) : Cap w :=
  { c with metadata := if m then c.metadata ||| mBit cfg else c.metadata &&& ~~~(mBit cfg) }

/-- The metadata with the M-bit 0: what the permissions, bounds and sealed state are read from, so that `with_M`
changes none of them (R5). -/
def Cap.form {w : Nat} (cfg : Config w) (c : Cap w) : BitVec w := c.metadata &&& ~~~(mBit cfg)

/-- `INFINITE_CAP` (R5), at address 0: its address is not stated. -/
def Cap.infinite {w : Nat} (cfg : Config w) : Cap w := ⟨true, cfg.infinite, 0⟩

/-- What the metadata of `INFINITE_CAP` mean: "All permissions are granted", "base is 0 and top is 2^MXLEN", unsealed (R5,
R204). DEDUCED (log 6): whatever its address, since R204 has it in `pcc`, whose address is `pc`. -/
def Config.infiniteForm {w : Nat} (cfg : Config w) : MetaForm w :=
  ⟨Cap.form cfg (Cap.infinite cfg), ⟨⟨true, true, true, true⟩, false⟩, ⟨0, 2 ^ w⟩, 0, 2 ^ w, ⟨0, 2 ^ w⟩⟩

/-- What describes a capability's metadata, if anything: they are `INFINITE_CAP`'s, or an entry of `Config.forms`. -/
def Cap.listed {w : Nat} (cfg : Config w) (c : Cap w) : Option (MetaForm w) :=
  (Config.infiniteForm cfg :: cfg.forms).find? (fun f => f.bits == Cap.form cfg c)

/-- The permissions and sealed state of a capability (R5). -/
def Cap.rights {w : Nat} (cfg : Config w) (c : Cap w) : Rights :=
  match Cap.listed cfg c with
  | some f => f.rights
  | none => Config.freeRights (Cap.form cfg c)

/-- The decoded bounds of a capability (R44), of its metadata and its address. -/
def Cap.bounds {w : Nat} (cfg : Config w) (c : Cap w) : Bounds :=
  match Cap.listed cfg c with
  | some f => if f.repBase ≤ c.addr.toNat ∧ c.addr.toNat < f.repTop then f.bounds else f.outside
  | none => Config.freeBounds (Cap.form cfg c) c.addr

/-- `c.X` (R5). -/
def Cap.permX {w : Nat} (cfg : Config w) (c : Cap w) : Bool := (Cap.rights cfg c).perms.x

/-- `c.ASR` (R5). -/
def Cap.permAsr {w : Nat} (cfg : Config w) (c : Cap w) : Bool := (Cap.rights cfg c).perms.asr

/-- `sealed(c)` (R5). -/
def Cap.isSealed {w : Nat} (cfg : Config w) (c : Cap w) : Bool := (Cap.rights cfg c).isSealed

/-- `base(c)` (R44). -/
def Cap.base {w : Nat} (cfg : Config w) (c : Cap w) : Nat := (Cap.bounds cfg c).base

/-- `top(c)` (R44), at most 2^XLEN. DEDUCED (log 7): R80 says an access past 2^XLEN - 1 fails the bounds test. -/
def Cap.top {w : Nat} (cfg : Config w) (c : Cap w) : Nat := min (Cap.bounds cfg c).top (2 ^ w)

/-- `with_addr(c, a)`: a raw update of the address (R5). -/
def Cap.withAddr {w : Nat} (c : Cap w) (a : BitVec w) : Cap w := { c with addr := a }

/-- `representable(c, a)`: "whether `c`'s bounds survive replacing its address by `a`" (R5). -/
def Cap.representable {w : Nat} (cfg : Config w) (c : Cap w) (a : BitVec w) : Bool :=
  decide (Cap.bounds cfg (Cap.withAddr c a) = Cap.bounds cfg c)

/-- `clear_tag(c)` (R5). -/
def Cap.clearTag {w : Nat} (c : Cap w) : Cap w := { c with tag := false }

/-- `set_addr_scaddr` (R156): replace the address, and clear the tag if the capability is sealed or the address is
not representable. -/
def Cap.setAddrScaddr {w : Nat} (cfg : Config w) (c : Cap w) (v : BitVec w) : Cap w :=
  if Cap.isSealed cfg c || !Cap.representable cfg c v then Cap.clearTag (Cap.withAddr c v) else Cap.withAddr c v

/-- Whether the permissions allow an access of this kind (R44). -/
def AccessKind.permitted (p : Perms) : AccessKind → Bool
  | .load | .loadCap => p.r
  | .store | .storeCap => p.w
  | .fetch | .jump => p.x

/-- A capability is `INFINITE_CAP` (R5), at some address and with either M-bit. DEDUCED (log 8): R204 has it in `pcc`, at any
address, and with the M-bit of Integer Mode, while "Its M-bit is not stated". -/
def Cap.isInfinite {w : Nat} (cfg : Config w) (c : Cap w) : Bool :=
  c.tag && Cap.form cfg c == Cap.form cfg (Cap.infinite cfg)

/-- The default `AuthCheck` (R44), tests in the order in which a failure is reported; `none` is `ok`. The sum `a + n`
is one of natural numbers: it does not wrap. -/
def authCheckDefault {w : Nat} (cfg : Config w) (c : Cap w) (k : AccessKind) (a : BitVec w) (n : Nat) : Option Violation :=
  if !c.tag then some .tag
  else if Cap.isSealed cfg c then some .seal
  else if !AccessKind.permitted (Cap.rights cfg c).perms k then some .permission
  else if a.toNat < Cap.base cfg c ∨ Cap.top cfg c < a.toNat + n then some .bounds
  else none

/-- `AuthCheck(c, k, a, n)` (R5): R44's default, or the base CHERI extension's own, of which R80 tells that a capability with
tag 0 authorises nothing (by R185's order a tag violation) and that an access past 2^XLEN fails its bounds test, and R5 that
`INFINITE_CAP` authorises every other access; of any other capability, whatever its permissions and bounds, nothing is
assumed: it may want permissions of its own, R47 (log 8). -/
def authCheck {w : Nat} (cfg : Config w) (c : Cap w) (k : AccessKind) (a : BitVec w) (n : Nat) : Option Violation :=
  match cfg.base.auth with
  | .given => authCheckDefault cfg c k a n
  | .free =>
    if !c.tag then some .tag
    else if Cap.isInfinite cfg c then if 2 ^ w < a.toNat + n then some .bounds else none
    else if 2 ^ w < a.toNat + n then some ((Config.freeAuth c k a n).getD .bounds)
    else Config.freeAuth c k a n

end Sys2Proof
end

