-- ==== Sys2Proof/Machine/State.lean ====
section
/-!
DEFINITION. What the machine is (R10), as plain data: the hart at a given XLEN, the state (an XLEN and a hart of that
XLEN), the reasons a step stops, and the state a run starts from.
-/

namespace Sys2Proof.Machine

/-- The architectural state of the hart at XLEN = `w`, complete by R10, and the parameters it runs under. -/
structure Hart (w : Nat) where
  /-- The parameters of R4 and R5, which no step changes (log 2). -/
  cfg     : Config w
  /-- The general registers `c[0..31]` (R11). Slot 0 is never read or written: register 0 is hardwired (R12). -/
  c       : Vector (Cap w) 32
  /-- The program counter capability (R13); `pc` is its address. -/
  pcc     : Cap w
  /-- The default data capability, CSR 0x416 (R20). -/
  ddc     : Cap w
  /-- The extended CSRs (R24) and the new capability CSRs other than `ddc` (R25), by CSR address. -/
  capCsrs : Table (Cap w)
  /-- The ordinary CSRs (R26), by CSR address. -/
  ordCsrs : Table (BitVec w)
  /-- The current privilege (R28). -/
  priv    : Priv
  /-- The bytes of memory (R41), by address; an unlisted byte reads as `Hart.unlistedByte`. -/
  mem     : List Host.Cell
  /-- The tags of memory (R47), by the address of the granule; an unlisted tag is 0. -/
  tags    : Table Bool
deriving DecidableEq, Repr

/-- What a byte of memory that nothing has written reads as. DESIGN CHOICE (log 28): R10 leaves memory unspecified. -/
def Hart.unlistedByte : Byte := 0

/-- The state of the machine: the parameter XLEN (R4) and a hart of that width. -/
structure State where
  xlen : Xlen
  hart : Hart xlen.bits
deriving DecidableEq, Repr

/-- Why the machine stops with an exception: the terminal outcome `Fault(E, info, pc)` of the default `TrapModel`
(R180, R192). Each is raised through `Hart.raise` only. All are safe: the chip enters a handler and may go on. -/
inductive Fault where
  /-- A capability check failed (R181, R182): loads, stores, LC, SC (`data`), taken branches, JAL, JALR (`jump`;
  for the operand of a Capability Mode JALR the model's choice, log 48), fetch (`fetch`), CSR instructions without
  ASR-permission (`csr`), and what `CapModeStep` raises. Safe. -/
  | cheri (violation : Violation) (kind : CheckKind) (pc : Nat)
  /-- CHERI instructions and capability CSR accesses with CHERI access disabled, and the Zicsr conditions (R183);
  `insn` is the instruction word. Safe. -/
  | illegalInstruction (insn : Nat) (pc : Nat)
  /-- A taken branch or a jump to a target that is no multiple of MIN_INSN_BYTES (R111). Safe. -/
  | instructionAddressMisaligned (target : Nat) (pc : Nat)
  /-- LC at an address that is no multiple of CLEN/8 (R140), or a base load under MISALIGNED = trap (R48). Safe. -/
  | loadAddressMisaligned (ea : Nat) (pc : Nat)
  /-- SC at an address that is no multiple of CLEN/8 (R141), or a base store under MISALIGNED = trap (R48). Safe. -/
  | storeAddressMisaligned (ea : Nat) (pc : Nat)
deriving DecidableEq, Repr

/-- Why the model takes no step. All are safe: the model says nothing of what the chip does. -/
inductive Refusal where
  /-- An instruction with no meaning yet: raised by an arm of `exec` only. Safe. -/
  | notModelled (mnemonic : String)
  /-- A fetched word that matches no row of the opcode table and is no instruction of `CapModeStep`, or is no 32-bit
  encoding (R67): `step`. Safe. -/
  | undecodable (word : Nat)
  /-- MODESW.CAP in Capability Mode, MODESW.INT in Integer Mode with CHERI access enabled (R66, D17). Safe. -/
  | wrongMode (mnemonic : String)
  /-- LD, LWU or SD on XLEN = 32, where the encoding is not theirs (R86, R87, R91). Safe. -/
  | requiresXlen64 (mnemonic : String)
  /-- A misaligned base load or store under MISALIGNED = refuse (R48). Safe. -/
  | misaligned (ea : Nat)
  /-- An access to an address the launch memory does not back, or a device's (R50, D13). Safe. -/
  | unbacked (addr : Nat)
  /-- A store whose bytes overlap the program text (R52, D34). Safe. -/
  | programText (addr : Nat)
  /-- A fetch of bytes that are no program text: the program is a parameter, not state (R52, R205, D34): `step`. Safe. -/
  | outsideText (addr : Nat)
  /-- The run has ended: `pc` is END_PC before a fetch (R207): `step`. Safe. -/
  | runEnded
deriving DecidableEq, Repr

/-- The infinite capability with the M-bit 0, at address 0 (R5, `INFINITE_CAP`), under the launch parameters. -/
def State.launchInfinite {w : Nat} : Cap w := ⟨true, Config.launchInfinite, 0⟩

/-- The capability CSRs at launch. PRESUMED (log 15): vectors and exception pcs infinite, scratch registers null. -/
def State.launchCapCsrs {w : Nat} : Table (Cap w) :=
  [(0x017, launchInfinite), (0x105, launchInfinite), (0x141, launchInfinite), (0x305, launchInfinite),
   (0x341, launchInfinite)]

/-- A hart as it starts. R31 and R200 give no reset value to anything, so every value is the model's: PRESUMED,
the reset of published CHERI-RISC-V drafts that R31 records (`pcc` and `ddc` infinite, Integer Mode, machine
privilege; log 32), and DESIGN CHOICE for the rest, the entry address among them (logs 2, 28, 32, 33). -/
def Hart.launch (x : Xlen) : Hart x.bits where
  cfg     := .launch x
  c       := Vector.replicate 32 Cap.null
  pcc     := { State.launchInfinite with addr := 0x1000 }
  ddc     := State.launchInfinite
  capCsrs := State.launchCapCsrs
  ordCsrs := []
  priv    := .machine
  mem     := []
  tags    := []

/-- The machine at launch, XLEN = 64 so that every row of the opcode table is present (log 1). -/
def State.reset : State := ⟨.rv64, .launch .rv64⟩

end Sys2Proof.Machine
end

