-- ==== Sys2Proof/Machine/Ops.lean ====
section
/-!
DEFINITION. The named operations of the machine: registers (R11, R12), the execution mode (R16), memory and tags (R41 to
R47), CSR storage, and taking an exception (R180).
-/

namespace Sys2Proof.Machine

/-! ## Registers (R11, R12) -/

/-- `c[i]`: register 0 reads as the null capability. -/
def Hart.creg {w : Nat} (h : Hart w) (i : Reg) : Cap w :=
  if i = 0 then Cap.null else h.c[i.toNat]'i.isLt

/-- `x[i]`, the address of `c[i]`. -/
def Hart.x {w : Nat} (h : Hart w) (i : Reg) : BitVec w := (h.creg i).addr

/-- `c[i] <- v`: register 0 ignores writes. -/
def Hart.setC {w : Nat} (h : Hart w) (i : Reg) (v : Cap w) : Hart w :=
  if i = 0 then h else { h with c := h.c.set i.toNat v i.isLt }

/-- `x[i] <- v`: tag and metadata of the register are zeroed. -/
def Hart.setX {w : Nat} (h : Hart w) (i : Reg) (v : BitVec w) : Hart w := h.setC i (Cap.ofInt v)

/-- `pc` (R13). -/
def Hart.pc {w : Nat} (h : Hart w) : BitVec w := h.pcc.addr

/-- `pc <- t`: only the address of `pcc` (R7). -/
def Hart.setPc {w : Nat} (h : Hart w) (t : BitVec w) : Hart w := { h with pcc := Cap.withAddr h.pcc t }

/-- `pcc <- c`: the whole capability (R7). -/
def Hart.setPcc {w : Nat} (h : Hart w) (c : Cap w) : Hart w := { h with pcc := c }

/-- `pc + 4`, modulo 2^XLEN (R13). -/
def Hart.nextPc {w : Nat} (h : Hart w) : BitVec w := h.pc + 4

/-- The end of an instruction that transfers no control: `pc <- pc + 4` (R7). -/
def Hart.advance {w : Nat} (h : Hart w) : Hart w := h.setPc h.nextPc

/-! ## Mode (R16) -/

/-- `cheri_access_enabled(priv)` (R27). -/
def Hart.cheriEnabled {w : Nat} (h : Hart w) : Bool :=
  match h.priv with
  | .user => h.cfg.cheriAccess.user
  | .supervisor => h.cfg.cheriAccess.supervisor
  | .machine => h.cfg.cheriAccess.machine

/-- `mode()`: Capability Mode when the M-bit of `pcc` is CAP_MODE_VALUE and CHERI access is enabled (R16). -/
def Hart.mode {w : Nat} (h : Hart w) : Mode :=
  if Cap.m h.cfg h.pcc == h.cfg.capModeValue && h.cheriEnabled then .cap else .int

/-! ## Memory and tags (R41 to R47) -/

/-- The byte at an address. -/
def Hart.byteAt {w : Nat} (h : Hart w) (a : BitVec w) : Byte := Table.get Hart.unlistedByte h.mem a.toNat

/-- The address of the capability granule a byte lies in (R47). -/
def granule {w : Nat} (a : BitVec w) : Nat := a.toNat / clenBytes w * clenBytes w

/-- The tag of the granule a byte lies in. -/
def Hart.tagAt {w : Nat} (h : Hart w) (a : BitVec w) : Bool := Table.get false h.tags (granule a)

/-- Set the tag of the granule a byte lies in. -/
def Hart.setTag {w : Nat} (h : Hart w) (a : BitVec w) (t : Bool) : Hart w :=
  { h with tags := Table.set false h.tags (granule a) t }

/-- Set one byte, leaving tags alone. -/
def Hart.pokeByte {w : Nat} (h : Hart w) (a : BitVec w) (b : Byte) : Hart w :=
  { h with mem := Table.set Hart.unlistedByte h.mem a.toNat b }

/-- Store one byte: the tag of its granule is cleared (R46). -/
def Hart.storeByte {w : Nat} (h : Hart w) (a : BitVec w) (b : Byte) : Hart w := (h.pokeByte a b).setTag a false

/-- `MemRead(a, n)` as a number: little-endian (R45). -/
def Hart.memRead {w : Nat} (h : Hart w) (a : BitVec w) : Nat → Nat
  | 0 => 0
  | n + 1 => (h.byteAt a).toNat + 256 * h.memRead (a + 1) n

/-- `MemWrite(a, n, v)`: byte `v[8i+7:8i]` at `a + i`, little-endian; clears the tag of every granule touched (R46). -/
def Hart.memWrite {w : Nat} (h : Hart w) (a : BitVec w) : Nat → Nat → Hart w
  | 0, _ => h
  | n + 1, v => (h.storeByte a (BitVec.ofNat 8 v)).memWrite (a + 1) n (v / 256)

/-- The CLEN bits of a capability in memory: the address in the low XLEN bits, the metadata above (R47). -/
def Cap.image {w : Nat} (c : Cap w) : Nat := c.addr.toNat + 2 ^ w * c.metadata.toNat

/-- The capability with given CLEN bits and tag (R47). -/
def Cap.ofImage {w : Nat} (tag : Bool) (v : Nat) : Cap w := ⟨tag, BitVec.ofNat w (v / 2 ^ w), BitVec.ofNat w v⟩

/-- `MemReadCap(a)` (R47). -/
def Hart.memReadCap {w : Nat} (h : Hart w) (a : BitVec w) : Cap w :=
  Cap.ofImage (h.tagAt a) (h.memRead a (clenBytes w))

/-- `MemWriteCap(a, c)` (R47). -/
def Hart.memWriteCap {w : Nat} (h : Hart w) (a : BitVec w) (c : Cap w) : Hart w :=
  (h.memWrite a (clenBytes w) (Cap.image c)).setTag a c.tag

/-- The canonical form of memory: bytes and tags are canonical tables, every byte address is below 2^XLEN, and every
tag stands at the address of a granule below 2^XLEN. -/
def Memory.wf {w : Nat} (h : Hart w) : Bool :=
  Table.wf Hart.unlistedByte h.mem && h.mem.all (fun e => decide (e.1 < 2 ^ w)) &&
  Table.wf false h.tags && h.tags.all (fun e => decide (e.1 < 2 ^ w) && decide (e.1 % clenBytes w = 0))

/-- Whether a byte lies in one of some ranges of addresses. -/
def inAny {w : Nat} (rs : List Range) (a : BitVec w) : Bool :=
  rs.any fun r => decide (r.lo ≤ a.toNat) && decide (a.toNat < r.hi)

/-- Whether one of the `n` bytes at `a`, the same bytes that `MemRead` and `MemWrite` reach, lies in a range. -/
def meetsAny {w : Nat} (rs : List Range) (a : BitVec w) : Nat → Bool
  | 0 => false
  | n + 1 => inAny rs a || meetsAny rs (a + 1) n

/-- Whether each of the `n` bytes at `a` lies in a range. -/
def within {w : Nat} (rs : List Range) (a : BitVec w) : Nat → Bool
  | 0 => true
  | n + 1 => inAny rs a && within rs (a + 1) n

/-! ## Outcomes and exceptions (R180) -/

/-- The outcome of an instruction on a hart. -/
abbrev Res (w : Nat) := Host.Outcome (Hart w) Fault Refusal

/-- An exception with its `info` (R192). -/
inductive Exn where
  | cheri (v : Violation) (k : CheckKind)
  | illegal (insn : BitVec 32)
  | insnMisaligned (target : Nat)
  | loadMisaligned (ea : Nat)
  | storeMisaligned (ea : Nat)
deriving DecidableEq, Repr

/-- The terminal outcome `Fault(E, info, pc)` (R180). -/
def Exn.fault (pc : Nat) : Exn → Fault
  | .cheri v k => .cheri v k pc
  | .illegal i => .illegalInstruction i.toNat pc
  | .insnMisaligned t => .instructionAddressMisaligned t pc
  | .loadMisaligned ea => .loadAddressMisaligned ea pc
  | .storeMisaligned ea => .storeAddressMisaligned ea pc

/-- The cause number of an exception (R192). -/
def Exn.cause (cs : Causes) : Exn → Nat
  | .cheri _ _ => cs.cheri
  | .illegal _ => cs.illegal
  | .insnMisaligned _ => cs.iam
  | .loadMisaligned _ => cs.lam
  | .storeMisaligned _ => cs.sam

/-- The recorded value of an exception (R192): target address, instruction word, `ea`; for a CHERI exception `ea`
when the check was of a data access, else 0 (log 26). -/
def Exn.value : Exn → Nat
  | .cheri _ (.data ea) => ea
  | .cheri _ _ => 0
  | .illegal i => i.toNat
  | .insnMisaligned t => t
  | .loadMisaligned ea => ea
  | .storeMisaligned ea => ea

/-- The CHERI trap-value register after an exception: `TVAL_CHERI` of a CHERI exception, else 0 (R181; log 26). -/
def Exn.value2 {w : Nat} : Exn → BitVec w
  | .cheri v k => Config.freeTval v k
  | .illegal _ | .insnMisaligned _ | .loadMisaligned _ | .storeMisaligned _ => 0

/-- A privilege level as CSR addresses and `mstatus.MPP` number it. PRESUMED (log 16): the RISC-V family's. -/
def Priv.level : Priv → BitVec 2
  | .user => 0
  | .supervisor => 1
  | .machine => 3

/-- The value of an ordinary CSR. -/
def Hart.ordCsr {w : Nat} (h : Hart w) (a : CsrAddr) : BitVec w := Table.get 0 h.ordCsrs a.toNat

/-- Set an ordinary CSR. -/
def Hart.setOrdCsr {w : Nat} (h : Hart w) (a : CsrAddr) (v : BitVec w) : Hart w :=
  { h with ordCsrs := Table.set 0 h.ordCsrs a.toNat v }

/-- The address of `ddc` (R20). -/
def ddcAddr : CsrAddr := 0x416#12

/-- The value of a capability CSR; `ddc` at 0x416. -/
def Hart.capCsr {w : Nat} (h : Hart w) (a : CsrAddr) : Cap w :=
  if a = ddcAddr then h.ddc else Table.get Cap.null h.capCsrs a.toNat

/-- Set a capability CSR. -/
def Hart.setCapCsr {w : Nat} (h : Hart w) (a : CsrAddr) (v : Cap w) : Hart w :=
  if a = ddcAddr then { h with ddc := v } else { h with capCsrs := Table.set Cap.null h.capCsrs a.toNat v }

/-- The status register on entry to a machine-mode handler (R187's sketch): MPP <- priv, MPIE <- MIE, MIE <- 0.
PRESUMED (log 25): the bits are the RISC-V family's, MIE 3, MPIE 7, MPP 12:11. -/
def trapStatus {w : Nat} (p : Priv) (old : BitVec w) : BitVec w :=
  (old &&& ~~~(0x1888#w)) ||| (if old.getLsbD 3 then 0x80#w else 0#w) ||| ((Priv.level p).setWidth w <<< 11)

/-- Entry to a machine-mode handler (R187): the whole `pcc` is saved in the exception-pc CSR and the whole vector
capability is installed, so the M-bit travels with both; `ddc` is as it was, whatever CSRs are named. PRESUMED (logs 24, 25): cause, value and
status registers, the privilege, and the low two bits of the vector address (a mode field) taken as 0. -/
def Hart.enterTrap {w : Nat} (h : Hart w) (t : TrapCsrs) (e : Exn) : Hart w :=
  let vec := h.capCsr t.vector
  let h1 := h.setCapCsr t.epc h.pcc
  let h2 := (h1.setOrdCsr t.cause (BitVec.ofNat w (Exn.cause h.cfg.causes e))).setOrdCsr t.tval (BitVec.ofNat w (Exn.value e))
  let h3 := (h2.setOrdCsr t.tval2 (Exn.value2 e)).setOrdCsr t.status (trapStatus h.priv (h.ordCsr t.status))
  { h3 with pcc := Cap.withAddr vec (vec.addr &&& ~~~(3#w)), ddc := h.ddc, priv := .machine }

/-- `raise E(info)` (R180): nothing of the raising instruction has happened; by default the run ends in
`Fault(E, info, pc)`, and under the handler `TrapModel` the handler is entered. -/
def Hart.raise {w : Nat} (h : Hart w) (e : Exn) : Res w :=
  match h.cfg.trap with
  | .terminal => .fault (Exn.fault h.pc.toNat e)
  | .handler t => .next (h.enterTrap t e)

/-- `check(c, k, a, n)` (R7): go on if the capability authorises the access, else raise the CHERI exception. -/
def Hart.check {w : Nat} (h : Hart w) (c : Cap w) (k : AccessKind) (a : BitVec w) (n : Nat) (kind : CheckKind)
    (next : Res w) : Res w :=
  match authCheck h.cfg c k a n with
  | none => next
  | some v => h.raise (.cheri v kind)

/-- The instruction word: the four bytes at `pc`, which during an instruction is its own address (R49, R13). -/
def Hart.fetchedWord {w : Nat} (h : Hart w) : BitVec 32 := BitVec.ofNat 32 (h.memRead h.pc 4)

/-- Illegal-instruction, its `info` the instruction word (R183; log 23). -/
def Hart.illegal {w : Nat} (h : Hart w) : Res w := h.raise (.illegal h.fetchedWord)

/-- Go on if CHERI access is enabled, else raise illegal-instruction (R124). -/
def Hart.needCheri {w : Nat} (h : Hart w) (next : Res w) : Res w :=
  if h.cheriEnabled then next else h.illegal

/-- Go on if the launch memory backs the `n` bytes at `a`, else refuse (D13). -/
def Hart.needBacked {w : Nat} (h : Hart w) (a : BitVec w) (n : Nat) (next : Res w) : Res w :=
  if meetsAny h.cfg.unbacked a n then .refused (.unbacked a.toNat) else next

/-- Go on if a store of the `n` bytes at `a` does not meet the program text, else refuse (R52, D34). -/
def Hart.needNoText {w : Nat} (h : Hart w) (a : BitVec w) (n : Nat) (next : Res w) : Res w :=
  if meetsAny h.cfg.text a n then .refused (.programText a.toNat) else next

/-! ## From a hart to the state -/

/-- Run a hart-level meaning on a state, XLEN unchanged. -/
def State.run (s : State) (r : Res s.xlen.bits) : Host.Outcome State Fault Refusal :=
  match r with
  | .next h => .next { s with hart := h }
  | .fault f => .fault f
  | .refused q => .refused q

/-- Run a meaning that exists only for XLEN = 64 (R86, R87, R91): on XLEN = 32 the encoding is not this instruction's. -/
def State.run64 (s : State) (mnemonic : String) (r : Res s.xlen.bits) : Host.Outcome State Fault Refusal :=
  match s.xlen with
  | .rv32 => .refused (.requiresXlen64 mnemonic)
  | .rv64 => s.run r

end Sys2Proof.Machine
end

