-- ==== Sys2Proof/Machine/Operands.lean ====
section
/-!
DEFINITION. The operand forms of the instructions: the one addressing mode (R43, R80), which capability authorises a
data access (R40, R42), what an access must pass before it happens (R48, R50), and the targets of transfers (R100,
R111).
-/

namespace Sys2Proof.Machine

/-- `ea = x[rs1] + sext_XLEN(imm12)`, modulo 2^XLEN: the same sum in both modes (R43, R80). -/
def Hart.effAddr {w : Nat} (h : Hart w) (rs1 : Reg) (imm : BitVec 12) : BitVec w := h.x rs1 + imm.signExtend w

/-- The capability that authorises a data access: `ddc` in Integer Mode (R40), the base register in Capability Mode
(R42). -/
def Hart.dataAuth {w : Nat} (h : Hart w) (rs1 : Reg) : Cap w :=
  match h.mode with
  | .int => h.ddc
  | .cap => h.creg rs1

/-- The alignment policy of base loads and stores (R48): go on when aligned or under `bytewise`, else refuse or raise
the misaligned exception. -/
def Hart.needAligned {w : Nat} (h : Hart w) (ea : BitVec w) (n : Nat) (mis : Exn) (next : Res w) : Res w :=
  if ea.toNat % n = 0 then next
  else match h.cfg.misaligned with
    | .refuse => .refused (.misaligned ea.toNat)
    | .trap => h.raise mis
    | .bytewise => next

/-- LC and SC raise the misaligned exception whatever the policy (R47, R140, R141). -/
def Hart.needCapAligned {w : Nat} (h : Hart w) (ea : BitVec w) (mis : Exn) (next : Res w) : Res w :=
  if ea.toNat % clenBytes w = 0 then next else h.raise mis

/-- Go on if a base load of `n` bytes at `ea` with base `rs1` is authorised, passes the alignment policy, and is of backed
memory (R80, R50). -/
def Hart.needLoad {w : Nat} (h : Hart w) (n : Nat) (rs1 : Reg) (ea : BitVec w) (next : Res w) : Res w :=
  h.check (h.dataAuth rs1) .load ea n (.data ea.toNat)
    (h.needAligned ea n (.loadMisaligned ea.toNat) (h.needBacked ea n next))

/-- Go on if a base store of `n` bytes at `ea` with base `rs1` passes the same, and is off the program text (R80, R52). -/
def Hart.needStore {w : Nat} (h : Hart w) (n : Nat) (rs1 : Reg) (ea : BitVec w) (next : Res w) : Res w :=
  h.check (h.dataAuth rs1) .store ea n (.data ea.toNat)
    (h.needAligned ea n (.storeMisaligned ea.toNat) (h.needBacked ea n (h.needNoText ea n next)))

/-- Go on if a capability load at `ea` with base `rs1` is authorised, aligned to the granule, and of backed memory
(R140). -/
def Hart.needLoadCap {w : Nat} (h : Hart w) (rs1 : Reg) (ea : BitVec w) (next : Res w) : Res w :=
  h.check (h.dataAuth rs1) .loadCap ea (clenBytes w) (.data ea.toNat)
    (h.needCapAligned ea (.loadMisaligned ea.toNat) (h.needBacked ea (clenBytes w) next))

/-- Go on if a capability store at `ea` with base `rs1` passes the same, and is off the program text (R141, R52). -/
def Hart.needStoreCap {w : Nat} (h : Hart w) (rs1 : Reg) (ea : BitVec w) (next : Res w) : Res w :=
  h.check (h.dataAuth rs1) .storeCap ea (clenBytes w) (.data ea.toNat)
    (h.needCapAligned ea (.storeMisaligned ea.toNat)
      (h.needBacked ea (clenBytes w) (h.needNoText ea (clenBytes w) next)))

/-- A loaded value of `n` bytes at XLEN width, sign- or zero-extended (R6, R80). -/
def extendLoaded {w : Nat} (n : Nat) (signed : Bool) (v : Nat) : BitVec w :=
  if signed then (BitVec.ofNat (8 * n) v).signExtend w else (BitVec.ofNat (8 * n) v).setWidth w

/-- `check_target(t)` (R100): the MIN_INSN_BYTES bytes at `t` lie inside `pcc`, then `t` is aligned (R111). -/
def Hart.checkTarget {w : Nat} (h : Hart w) (t : BitVec w) (next : Res w) : Res w :=
  h.check h.pcc .jump t h.cfg.minInsn.bytes .jump
    (if t.toNat % h.cfg.minInsn.bytes = 0 then next else h.raise (.insnMisaligned t.toNat))

/-- `pc + sext_XLEN(imm)` for a branch (R101). -/
def Hart.branchTarget {w : Nat} (h : Hart w) (off : BitVec 13) : BitVec w := h.pc + off.signExtend w

/-- `pc + sext_XLEN(imm21)` for JAL (R107). -/
def Hart.jalTarget {w : Nat} (h : Hart w) (off : BitVec 21) : BitVec w := h.pc + off.signExtend w

/-- `(x[rs1] + sext_XLEN(imm12)) & ~1` for JALR (R109, R110). -/
def Hart.jalrTarget {w : Nat} (h : Hart w) (rs1 : Reg) (imm : BitVec 12) : BitVec w :=
  h.effAddr rs1 imm &&& ~~~(1#w)

/-- `sext_XLEN(imm20 :: 0x000)` (R62, R108). -/
def upperImm {w : Nat} (imm : BitVec 20) : BitVec w := (imm ++ 0#12).signExtend w

/-- The 5-bit immediate of the CSR instructions, zero-extended (R62). -/
def zimm {w : Nat} (uimm : BitVec 5) : BitVec w := uimm.setWidth w

end Sys2Proof.Machine
end

