-- ==== Sys2Proof/Machine/CapLoadStore.lean ====
section
/-!
DEFINITION. LC and SC in the two modes (spec/43, R140, R141).
-/

namespace Sys2Proof.Machine

/-- `LoadCapFilter(auth, v)` (R140); the default is the identity (log 12). -/
def loadCapFilter {w : Nat} (cfg : Config w) (auth v : Cap w) : Cap w :=
  match cfg.base.loadFilter with
  | .given => v
  | .free => Config.freeLoadFilter auth v

/-- `StoreCapFilter(auth, v)` (R141); the default is the identity (log 12). -/
def storeCapFilter {w : Nat} (cfg : Config w) (auth v : Cap w) : Cap w :=
  match cfg.base.storeFilter with
  | .given => v
  | .free => Config.freeStoreFilter auth v

/-- LC at the level of the hart (R140): the destination is a full *c* register in both modes. -/
def Hart.lc {w : Nat} (cd rs1 : Reg) (imm : BitVec 12) (h : Hart w) : Res w :=
  let ea := h.effAddr rs1 imm
  h.needCheri
    (h.needLoadCap rs1 ea (.next (h.setC cd (loadCapFilter h.cfg (h.dataAuth rs1) (h.memReadCap ea))).advance))

/-- LC (R140). -/
def execLc (cd rs1 : Reg) (imm : BitVec 12) (s : State) : Host.Outcome State Fault Refusal :=
  s.run (Hart.lc cd rs1 imm s.hart)

/-- SC at the level of the hart (R141): the full capability is stored in both modes, tag included. -/
def Hart.sc {w : Nat} (cs2 rs1 : Reg) (imm : BitVec 12) (h : Hart w) : Res w :=
  let ea := h.effAddr rs1 imm
  h.needCheri
    (h.needStoreCap rs1 ea (.next (h.memWriteCap ea (storeCapFilter h.cfg (h.dataAuth rs1) (h.creg cs2))).advance))

/-- SC (R141). -/
def execSc (cs2 rs1 : Reg) (imm : BitVec 12) (s : State) : Host.Outcome State Fault Refusal :=
  s.run (Hart.sc cs2 rs1 imm s.hart)

end Sys2Proof.Machine
end

