-- ==== Sys2Proof/Machine/Delegate.lean ====
section
/-!
DEFINITION. `BaseCheri.CapModeStep` (R5): the words that are no row of the opcode table. R67 refuses them unless the base
extension gives them a meaning. What that meaning computes is open; what it may see, and which checks its accesses and
transfers pass, are the rules of this spec: R40, R42 and R92 for data accesses, R100 for transfers, R142 for the mode,
R154 for CSRs.
-/

namespace Sys2Proof.Machine

/-! ## What CapModeStep sees and answers -/

/-- What an instruction of `CapModeStep` reads besides its data accesses: the *c* registers, and `pcc` with its M-bit 0,
since it behaves "identically in both modes" (R142; log 49). No CSR: those are reached by the Zicsr instructions alone
(R41, R154). -/
structure BaseView (w : Nat) where
  regs : Vector (Cap w) 32
  pcc  : Cap w
deriving DecidableEq, Repr

/-- What a data access moves: `n` bytes, or a capability with its tag (R50). -/
inductive AccessSize where
  | bytes (n : Nat)
  | cap
deriving DecidableEq, Repr

/-- A data access: its base register, effective address and size, "the address and width" its own extension defines
(R92). -/
structure BaseAccess (w : Nat) where
  base : Reg
  ea   : BitVec w
  size : AccessSize
deriving DecidableEq, Repr

/-- What an access moved or is to move: the bytes as a number, and for a capability the tag. -/
structure Datum where
  tag  : Bool
  bits : Nat
deriving DecidableEq, Repr

/-- What `CapModeStep` answers for a word: it is none of its instructions; it is illegal (R183); a capability check of its
own fails (R181); or it makes these loads, in order, and goes on. -/
inductive BaseAnswer (w : Nat) where
  | unknown
  | illegal
  | raises (v : Violation) (k : CheckKind)
  | loads (accesses : List (BaseAccess w))
deriving DecidableEq, Repr, Inhabited

/-- What it does with what it loaded: stores, in order, then register writes, then a transfer of control if it is one. -/
structure BaseEffect (w : Nat) where
  stores : List (BaseAccess w × Datum)
  regs   : List (Reg × Cap w)
  target : Option (BitVec w)
deriving DecidableEq, Repr, Inhabited

end Sys2Proof.Machine

namespace Sys2Proof

/-- Whether a word of `CapModeStep` is an instruction that takes a *c* register operand (R67): open (N12; log 49). -/
opaque Config.freeTakesCap (insn : BitVec 32) : Bool

/-- `CapModeStep` of a base CHERI extension with instructions besides the opcode table's, up to its loads: open (R5, N12;
log 49). -/
opaque Config.freeCapModeStep {w : Nat} (cfg : Config w) (insn : BitVec 32) (v : Machine.BaseView w) : Machine.BaseAnswer w

/-- `CapModeStep` after its loads: open (R5, N12; log 49). -/
opaque Config.freeCapModeEffect {w : Nat} (cfg : Config w) (insn : BitVec 32) (v : Machine.BaseView w)
    (loaded : List Machine.Datum) : Machine.BaseEffect w

end Sys2Proof

namespace Sys2Proof.Machine

/-- The part of the hart that an instruction of `CapModeStep` reads; register 0 reads as null (R12). -/
def Hart.baseView {w : Nat} (h : Hart w) : BaseView w := ⟨h.c.set 0 Cap.null, Cap.withM h.cfg h.pcc false⟩

/-! ## Loads -/

/-- Go on if a load is allowed: checked against `ddc` in Integer Mode (R40, R92) and against its base register in
Capability Mode (R42), by its own address and width, aligned, and of backed memory, as the table's loads are. -/
def Hart.needBaseLoad {w : Nat} (h : Hart w) (a : BaseAccess w) (next : Res w) : Res w :=
  match a.size with
  | .bytes n => h.needLoad n a.base a.ea next
  | .cap => h.needLoadCap a.base a.ea next

/-- Go on if every load is allowed. DESIGN CHOICE (log 49): the accesses are checked one after another, each with all its
checks, so that what stops an earlier one, its misalignment too, is reported before a CHERI exception of a later one; R185's
order holds for each access (log 42). -/
def Hart.needBaseLoads {w : Nat} (h : Hart w) (next : Res w) : List (BaseAccess w) → Res w
  | [] => next
  | a :: as => h.needBaseLoad a (h.needBaseLoads next as)

/-- What a load brings; a capability through `LoadCapFilter` of its authority (R47, R140). -/
def Hart.baseLoaded {w : Nat} (h : Hart w) (a : BaseAccess w) : Datum :=
  match a.size with
  | .bytes n => ⟨false, h.memRead a.ea n⟩
  | .cap =>
    let c := loadCapFilter h.cfg (h.dataAuth a.base) (h.memReadCap a.ea)
    ⟨c.tag, Cap.image c⟩

/-! ## Stores, registers, transfers -/

/-- Go on if a store is allowed, as the table's stores are (R40, R42, R92, R52). -/
def Hart.needBaseStore {w : Nat} (h : Hart w) (a : BaseAccess w) (next : Res w) : Res w :=
  match a.size with
  | .bytes n => h.needStore n a.base a.ea next
  | .cap => h.needStoreCap a.base a.ea next

/-- Go on if every store is allowed; one after another as the loads, and after them. DESIGN CHOICE (log 49). -/
def Hart.needBaseStores {w : Nat} (h : Hart w) (next : Res w) : List (BaseAccess w × Datum) → Res w
  | [] => next
  | p :: ps => h.needBaseStore p.1 (h.needBaseStores next ps)

/-- Make one store; bytes clear the tags they touch (R46), a capability goes through `StoreCapFilter` (R47, R141). -/
def Hart.makeStore {w : Nat} (h : Hart w) (a : BaseAccess w) (d : Datum) : Hart w :=
  match a.size with
  | .bytes n => h.memWrite a.ea n d.bits
  | .cap => h.memWriteCap a.ea (storeCapFilter h.cfg (h.dataAuth a.base) (Cap.ofImage d.tag d.bits))

/-- Make stores in order. -/
def Hart.makeStores {w : Nat} (h : Hart w) : List (BaseAccess w × Datum) → Hart w
  | [] => h
  | p :: ps => (h.makeStore p.1 p.2).makeStores ps

/-- Write registers in order: *c* registers, or, by an instruction without *c* operands, *x* registers (R12). -/
def Hart.makeRegs {w : Nat} (h : Hart w) (takesCap : Bool) : List (Reg × Cap w) → Hart w
  | [] => h
  | p :: ps => (h.setC p.1 (if takesCap then p.2 else Cap.ofInt p.2.addr)).makeRegs takesCap ps

/-- All that an instruction of `CapModeStep` changes besides `pc`. -/
def Hart.baseWritten {w : Nat} (h : Hart w) (takesCap : Bool) (e : BaseEffect w) : Hart w :=
  (h.makeStores e.stores).makeRegs takesCap e.regs

/-- The effect after the loads: the checks of the stores, for a transfer the check of its target against `pcc` (R100,
R111), then all changes at once; only the address of `pcc` changes (R13, R18; log 49). -/
def Hart.baseEffect {w : Nat} (h : Hart w) (takesCap : Bool) (e : BaseEffect w) : Res w :=
  h.needBaseStores
    (match e.target with
    | none => .next (h.baseWritten takesCap e).advance
    | some t => h.checkTarget t (.next ((h.baseWritten takesCap e).setPc t)))
    e.stores

/-! ## The step of a word that is no row -/

/-- An instruction that takes a *c* register operand is illegal with CHERI access disabled (R67, R124). -/
def Hart.needCheriIf {w : Nat} (h : Hart w) (takesCap : Bool) (next : Res w) : Res w :=
  if takesCap then h.needCheri next else next

/-- A 32-bit word that is no row of the opcode table: refused (R67), or what `CapModeStep` makes of it. -/
def Hart.delegated {w : Nat} (h : Hart w) : Res w :=
  match h.cfg.base.capModeStep with
  | .given => .refused (.undecodable h.fetchedWord.toNat)
  | .free =>
    let insn := h.fetchedWord
    let takesCap := Config.freeTakesCap insn
    match Config.freeCapModeStep h.cfg insn h.baseView with
    | .unknown => .refused (.undecodable insn.toNat)
    | .illegal => h.illegal
    | .raises v k => h.needCheriIf takesCap (h.raise (.cheri v k))
    | .loads as =>
      h.needCheriIf takesCap
        (h.needBaseLoads
          (h.baseEffect takesCap (Config.freeCapModeEffect h.cfg insn h.baseView (as.map h.baseLoaded))) as)

/-- What becomes of bytes that are no instruction of the opcode table (R67). -/
def Hart.undecoded {w : Nat} (h : Hart w) : DecodeError → Res w
  | .noSuchWord => h.delegated
  | .notThirtyTwoBit | .tooShort => .refused (.undecodable h.fetchedWord.toNat)

end Sys2Proof.Machine
end

