-- ==== Sys2Proof/Machine/Flags.lean ====
section
/-!
DEFINITION. The machine has no flags or condition codes (R29). What stands here is what the rules compute in their
place: the comparisons of the branches and the bit arithmetic of the CSR instructions (R112), and integer results of
one bit.
-/

namespace Sys2Proof.Machine

/-- `<s`, two's complement (R103, R112). -/
def ltSigned {w : Nat} (a b : BitVec w) : Bool := decide (a.toInt < b.toInt)

/-- `<`, unsigned (R105, R112). -/
def ltUnsigned {w : Nat} (a b : BitVec w) : Bool := decide (a.toNat < b.toNat)

/-- Set bits: `old | v` (R160). -/
def setBits {w : Nat} (old v : BitVec w) : BitVec w := old ||| v

/-- Clear bits: `old & ~v` (R161). -/
def clearBits {w : Nat} (old v : BitVec w) : BitVec w := old &&& ~~~v

/-- A one-bit field as an XLEN-bit integer: `zext_XLEN(b)` (R121, R125). -/
def bitToWord {w : Nat} (b : Bool) : BitVec w := if b then 1#w else 0#w

end Sys2Proof.Machine
end

