-- ==== Sys2Proof/Machine/Control.lean ====
section
/-!
DEFINITION. Branches, jumps and AUIPC (spec/41, R100 to R111).
-/

namespace Sys2Proof.Machine

/-- A conditional branch (R101): taken, the target is checked and only the address of `pcc` changes; not taken, no
check is made (R100). -/
def Hart.branch {w : Nat} (taken : Bool) (off : BitVec 13) (h : Hart w) : Res w :=
  if taken then h.checkTarget (h.branchTarget off) (.next (h.setPc (h.branchTarget off))) else .next h.advance

/-- BEQ (R101). -/
def execBeq (rs1 rs2 : Reg) (off : BitVec 13) (s : State) : Host.Outcome State Fault Refusal :=
  s.run (Hart.branch (s.hart.x rs1 == s.hart.x rs2) off s.hart)

/-- BNE (R102). -/
def execBne (rs1 rs2 : Reg) (off : BitVec 13) (s : State) : Host.Outcome State Fault Refusal :=
  s.run (Hart.branch (s.hart.x rs1 != s.hart.x rs2) off s.hart)

/-- BLT (R103). -/
def execBlt (rs1 rs2 : Reg) (off : BitVec 13) (s : State) : Host.Outcome State Fault Refusal :=
  s.run (Hart.branch (ltSigned (s.hart.x rs1) (s.hart.x rs2)) off s.hart)

/-- BGE (R104). -/
def execBge (rs1 rs2 : Reg) (off : BitVec 13) (s : State) : Host.Outcome State Fault Refusal :=
  s.run (Hart.branch (!ltSigned (s.hart.x rs1) (s.hart.x rs2)) off s.hart)

/-- BLTU (R105). -/
def execBltu (rs1 rs2 : Reg) (off : BitVec 13) (s : State) : Host.Outcome State Fault Refusal :=
  s.run (Hart.branch (ltUnsigned (s.hart.x rs1) (s.hart.x rs2)) off s.hart)

/-- BGEU (R106). -/
def execBgeu (rs1 rs2 : Reg) (off : BitVec 13) (s : State) : Host.Outcome State Fault Refusal :=
  s.run (Hart.branch (!ltUnsigned (s.hart.x rs1) (s.hart.x rs2)) off s.hart)

/-- `LinkCap(pcc, ret)` (R107): `given` is `pcc` with the return address (program P4 of spec/95); `free` leaves its tag
and metadata open (log 9). -/
def Hart.linkCap {w : Nat} (h : Hart w) (ret : BitVec w) : Cap w :=
  match h.cfg.base.link with
  | .given => Cap.withAddr h.pcc ret
  | .free => ⟨(Config.freeLink h.pcc ret).1, (Config.freeLink h.pcc ret).2, ret⟩

/-- The link of JAL: an integer in Integer Mode, a capability in Capability Mode (R107). -/
def Hart.jalLink {w : Nat} (h : Hart w) : Cap w :=
  match h.mode with
  | .int => Cap.ofInt h.nextPc
  | .cap => h.linkCap h.nextPc

/-- JAL at the level of the hart (R107): check the target, write the link, replace the address of `pcc`. -/
def Hart.jal {w : Nat} (rd : Reg) (off : BitVec 21) (h : Hart w) : Res w :=
  h.checkTarget (h.jalTarget off) (.next ((h.setC rd h.jalLink).setPc (h.jalTarget off)))

/-- JAL (R107). -/
def execJal (rd : Reg) (off : BitVec 21) (s : State) : Host.Outcome State Fault Refusal :=
  s.run (Hart.jal rd off s.hart)

/-- What `check_target` finds against the old `pcc` at a Capability Mode JALR: R100 and R182 make the check in both modes.
DESIGN CHOICE (log 47): a parameter, since vector V-J10 of spec/95 shows a jump that this check would stop. -/
def Hart.jalrPccFailure {w : Nat} (h : Hart w) (t : BitVec w) : Option Violation :=
  if h.cfg.base.jalrPcc then authCheck h.cfg h.pcc .jump t h.cfg.minInsn.bytes else none

/-- The verdict of `JalrCap` on the operand `c` (R109); `none` accepts it. A valid target, one that `AuthCheck`
authorises at the target address, is accepted, as R109's example says; of any other the default reports the violation,
and `free` leaves the verdict open. DESIGN CHOICE (log 10): the checks are the base CHERI extension's. -/
def Hart.jalrFailure {w : Nat} (h : Hart w) (c : Cap w) (imm : BitVec 12) (t : BitVec w) : Option Violation :=
  match authCheck h.cfg (Cap.withAddr c t) .jump t h.cfg.minInsn.bytes with
  | none => none
  | some v =>
    match h.cfg.base.jalr with
    | .given => some v
    | .free => Config.freeJalrCheck c imm h.pcc

/-- The capability that a Capability Mode JALR installs (R109): "the full target capability", tag, metadata and M-bit the
operand's and its address `t`; only what unsealing makes of a sealed operand's metadata, M apart, is open (log 10). -/
def Hart.jalrInstalled {w : Nat} (h : Hart w) (c : Cap w) (imm : BitVec 12) (t : BitVec w) : Cap w :=
  if c.isSealed h.cfg then Cap.withM h.cfg ⟨c.tag, Config.freeUnsealed c imm h.pcc, t⟩ (c.m h.cfg)
  else Cap.withAddr c t

/-- The link of a Capability Mode JALR, part of what `JalrCap` answers (R5, R109): `given` is `LinkCap(pcc, pc + 4)`, as in
program P4 of spec/95; `free` leaves tag and metadata open (logs 9, 10). -/
def Hart.jalrLink {w : Nat} (h : Hart w) (c : Cap w) (imm : BitVec 12) : Cap w :=
  match h.cfg.base.jalr with
  | .given => h.linkCap h.nextPc
  | .free => ⟨(Config.freeJalrLink c imm h.pcc).1, (Config.freeJalrLink c imm h.pcc).2, h.nextPc⟩

/-- `JalrCap(c, imm, pcc)` (R5, R109): the checked target and the link, or the violation. -/
def Hart.jalrCap {w : Nat} (h : Hart w) (c : Cap w) (imm : BitVec 12) (t : BitVec w) : Except Violation (Cap w × Cap w) :=
  match h.jalrFailure c imm t with
  | some v => .error v
  | none => .ok (h.jalrInstalled c imm t, h.jalrLink c imm)

/-- JALR in Capability Mode (R109): after R100's check against the old `pcc` and `JalrCap`'s of the operand, the whole
target capability, M-bit included, becomes `pcc`; the target is read before the link is written. The kind reported when
the operand is no valid target is `jump`: DESIGN CHOICE (log 48), since R181 gives `jump` for a check against `pcc` and
`data` for one against a base register, and R182 names no kind for this row. -/
def Hart.jalrCapMode {w : Nat} (rd rs1 : Reg) (imm : BitVec 12) (h : Hart w) : Res w :=
  let t := h.jalrTarget rs1 imm
  match h.jalrPccFailure t with
  | some v => h.raise (.cheri v .jump)
  | none =>
    match h.jalrCap (h.creg rs1) imm t with
    | .error v => h.raise (.cheri v .jump)
    | .ok (target, link) =>
      if t.toNat % h.cfg.minInsn.bytes = 0 then .next ((h.setC rd link).setPcc target)
      else h.raise (.insnMisaligned t.toNat)

/-- JALR in Integer Mode (R110): only the address of `pcc` is replaced; tag, metadata and M-bit of the operand are
ignored. -/
def Hart.jalrIntMode {w : Nat} (rd rs1 : Reg) (imm : BitVec 12) (h : Hart w) : Res w :=
  h.checkTarget (h.jalrTarget rs1 imm) (.next ((h.setX rd h.nextPc).setPc (h.jalrTarget rs1 imm)))

/-- JALR at the level of the hart: one encoding, the mode decides (R109, R110). -/
def Hart.jalr {w : Nat} (rd rs1 : Reg) (imm : BitVec 12) (h : Hart w) : Res w :=
  match h.mode with
  | .cap => h.jalrCapMode rd rs1 imm
  | .int => h.jalrIntMode rd rs1 imm

/-- JALR (R109, R110). -/
def execJalr (rd rs1 : Reg) (imm : BitVec 12) (s : State) : Host.Outcome State Fault Refusal :=
  s.run (Hart.jalr rd rs1 imm s.hart)

/-- `SetAddr(pcc, v)` (R108): `given` is `set_addr_scaddr`; `free` leaves tag and metadata open (log 11). -/
def Hart.setAddrPcc {w : Nat} (h : Hart w) (v : BitVec w) : Cap w :=
  match h.cfg.base.setAddr with
  | .given => Cap.setAddrScaddr h.cfg h.pcc v
  | .free => ⟨(Config.freeSetAddr h.pcc v).1, (Config.freeSetAddr h.pcc v).2, v⟩

/-- What AUIPC writes: an integer in Integer Mode, `pcc` re-addressed in Capability Mode (R108). -/
def Hart.auipcValue {w : Nat} (h : Hart w) (imm : BitVec 20) : Cap w :=
  match h.mode with
  | .int => Cap.ofInt (h.pc + upperImm imm)
  | .cap => h.setAddrPcc (h.pc + upperImm imm)

/-- AUIPC (R108). -/
def execAuipc (rd : Reg) (imm : BitVec 20) (s : State) : Host.Outcome State Fault Refusal :=
  s.run (.next (s.hart.setC rd (s.hart.auipcValue imm)).advance)

end Sys2Proof.Machine
end

