-- ==== Sys2Proof/Machine/Csr.lean ====
section
/-!
DEFINITION. The Zicsr instructions (spec/44, R150 to R169).
-/

namespace Sys2Proof.Machine

/-- `ddc`: always implemented, a new capability CSR, no ASR-permission needed (R20, R21), written as given (R155). -/
def ddcDesc : CsrDesc := ⟨ddcAddr, .new, false, .given⟩

/-- The CSR at an address, if it is implemented (R150, R169). -/
def csrAt {w : Nat} (cfg : Config w) (a : CsrAddr) : Option CsrDesc :=
  if a = ddcAddr then some ddcDesc else cfg.csrs.find? (fun d => d.addr == a)

/-- `cap_access(a)` (R150): a new capability CSR, or an extended one in Capability Mode. -/
def capAccess (m : Mode) : CsrClass → Bool
  | .new => true
  | .ext => m == .cap
  | .ord => false

/-- Whether the privilege suffices for a CSR address: at least `a[9:8]` (R169). -/
def privSuffices (p : Priv) (a : CsrAddr) : Bool := decide (a.extractLsb' 8 2 ≤ Priv.level p)

/-- Whether a CSR address is read-only: `a[11:10] = 11` (R169). -/
def csrReadOnly (a : CsrAddr) : Bool := a.extractLsb' 10 2 == 3#2

/-- The checks of every CSR instruction, in order: R169 (implemented, privilege, write to a read-only CSR), R167
(a capability access needs CHERI access), R152 (ASR-permission). `writes` is whether the instruction writes (R165). -/
def Hart.csrChecked {w : Nat} (h : Hart w) (a : CsrAddr) (writes : Bool) (next : CsrDesc → Res w) : Res w :=
  match csrAt h.cfg a with
  | none => h.illegal
  | some d =>
    if !privSuffices h.priv a || (writes && csrReadOnly a) then h.illegal
    else if capAccess h.mode d.cls && !h.cheriEnabled then h.illegal
    else if d.needsAsr && !h.pcc.permAsr h.cfg then h.raise (.cheri .permission .csr)
    else next d

/-- `ExtCSRWrite(a, old, req)` (R155): by default an address write has SCADDR semantics (R156) and a full write stores
the capability; a CSR specified otherwise is open (log 13). -/
def extCsrWrite {w : Nat} (cfg : Config w) (d : CsrDesc) (old : Cap w) (req : CapWrite w) : Cap w :=
  match d.write with
  | .free => Config.freeCapCsrWrite d.addr old req
  | .given =>
    match req with
    | .addrOnly v => old.setAddrScaddr cfg v
    | .full c => c

/-- The stored value of a write to an ordinary CSR (R159): the written bits, or what the CSR's own rule makes of them
(log 14). -/
def ordCsrWrite {w : Nat} (d : CsrDesc) (old v : BitVec w) : BitVec w :=
  match d.write with
  | .given => v
  | .free => Config.freeLegalise d.addr old v

/-- Write a capability CSR (R155). -/
def Hart.writeCapCsr {w : Nat} (h : Hart w) (a : CsrAddr) (d : CsrDesc) (req : CapWrite w) : Hart w :=
  h.setCapCsr a (extCsrWrite h.cfg d (h.capCsr a) req)

/-- Write an ordinary CSR (R159). -/
def Hart.writeOrdCsr {w : Nat} (h : Hart w) (a : CsrAddr) (d : CsrDesc) (v : BitVec w) : Hart w :=
  h.setOrdCsr a (ordCsrWrite d (h.ordCsr a) v)

/-- The old value of a CSR to the destination: a full capability to a *c* register on a capability access, else XLEN
bits to an *x* register (R153, R166). `old` is the hart before the write. -/
def Hart.csrToReg {w : Nat} (h : Hart w) (old : Hart w) (rd : Reg) (a : CsrAddr) (d : CsrDesc) : Hart w :=
  match d.cls with
  | .ord => h.setX rd (old.ordCsr a)
  | .new | .ext => if capAccess old.mode d.cls then h.setC rd (old.capCsr a) else h.setX rd (old.capCsr a).addr

/-- The CSR write of CSRRW (R157, R158, R159): full on a capability access, address only on an extended CSR in Integer
Mode, XLEN bits on an ordinary CSR. -/
def Hart.csrrwWrite {w : Nat} (h : Hart w) (rs1 : Reg) (a : CsrAddr) (d : CsrDesc) : Hart w :=
  match d.cls with
  | .ord => h.writeOrdCsr a d (h.x rs1)
  | .new | .ext =>
    h.writeCapCsr a d (if capAccess h.mode d.cls then .full (h.creg rs1) else .addrOnly (h.x rs1))

/-- The CSR write of the other five (R160 to R164): the new value or address is a function of the old one; on a
capability CSR always an address write (R153). -/
def Hart.csrUpdate {w : Nat} (h : Hart w) (f : BitVec w → BitVec w) (a : CsrAddr) (d : CsrDesc) : Hart w :=
  match d.cls with
  | .ord => h.writeOrdCsr a d (f (h.ordCsr a))
  | .new | .ext => h.writeCapCsr a d (.addrOnly (f (h.capCsr a).addr))

/-- CSRRW at the level of the hart; it always writes (R165). -/
def Hart.csrrw {w : Nat} (rd rs1 : Reg) (a : CsrAddr) (h : Hart w) : Res w :=
  h.csrChecked a true fun d => .next ((h.csrrwWrite rs1 a d).csrToReg h rd a d).advance

/-- The other five at the level of the hart: read, update unless suppressed (R165), old value to the destination. -/
def Hart.csrModify {w : Nat} (rd : Reg) (f : BitVec w → BitVec w) (writes : Bool) (a : CsrAddr) (h : Hart w) : Res w :=
  h.csrChecked a writes fun d =>
    .next ((if writes then h.csrUpdate f a d else h).csrToReg h rd a d).advance

/-- CSRRW (R157, R158, R159). -/
def execCsrrw (rd rs1 : Reg) (a : CsrAddr) (s : State) : Host.Outcome State Fault Refusal :=
  s.run (Hart.csrrw rd rs1 a s.hart)

/-- CSRRS (R160); no write when the `rs1` field is 0 (R165). -/
def execCsrrs (rd rs1 : Reg) (a : CsrAddr) (s : State) : Host.Outcome State Fault Refusal :=
  s.run (Hart.csrModify rd (setBits · (s.hart.x rs1)) (rs1 != 0) a s.hart)

/-- CSRRC (R161); no write when the `rs1` field is 0 (R165). -/
def execCsrrc (rd rs1 : Reg) (a : CsrAddr) (s : State) : Host.Outcome State Fault Refusal :=
  s.run (Hart.csrModify rd (clearBits · (s.hart.x rs1)) (rs1 != 0) a s.hart)

/-- CSRRWI (R162): an address write on a capability CSR, never suppressed. -/
def execCsrrwi (rd uimm : BitVec 5) (a : CsrAddr) (s : State) : Host.Outcome State Fault Refusal :=
  s.run (Hart.csrModify rd (fun _ => zimm uimm) true a s.hart)

/-- CSRRSI (R163); no write when the immediate field is 0 (R165). -/
def execCsrrsi (rd uimm : BitVec 5) (a : CsrAddr) (s : State) : Host.Outcome State Fault Refusal :=
  s.run (Hart.csrModify rd (setBits · (zimm uimm)) (uimm != 0) a s.hart)

/-- CSRRCI (R164); no write when the immediate field is 0 (R165). -/
def execCsrrci (rd uimm : BitVec 5) (a : CsrAddr) (s : State) : Host.Outcome State Fault Refusal :=
  s.run (Hart.csrModify rd (clearBits · (zimm uimm)) (uimm != 0) a s.hart)

end Sys2Proof.Machine
end

