-- ==== Sys2Proof/Machine/LoadStore.lean ====
section
/-!
DEFINITION. The base loads and stores (spec/40, R80 to R91): one template, one meaning per instruction.
-/

namespace Sys2Proof.Machine

/-- What the destination of a load of `n` bytes at `ea` receives. -/
def Hart.loaded {w : Nat} (h : Hart w) (n : Nat) (signed : Bool) (ea : BitVec w) : BitVec w :=
  extendLoaded n signed (h.memRead ea n)

/-- `LOAD(n, ext)` (R80): check, alignment policy, read, write the *x* register, `pc + 4`. -/
def Hart.load {w : Nat} (n : Nat) (signed : Bool) (rd rs1 : Reg) (imm : BitVec 12) (h : Hart w) : Res w :=
  let ea := h.effAddr rs1 imm
  h.needLoad n rs1 ea (.next (h.setX rd (h.loaded n signed ea)).advance)

/-- `STORE(n)` (R80): check, alignment policy, write the low `n` bytes of `x[rs2]`, `pc + 4`. -/
def Hart.store {w : Nat} (n : Nat) (rs2 rs1 : Reg) (imm : BitVec 12) (h : Hart w) : Res w :=
  let ea := h.effAddr rs1 imm
  h.needStore n rs1 ea (.next (h.memWrite ea n (h.x rs2).toNat).advance)

/-- LB (R81). -/
def execLb (rd rs1 : Reg) (imm : BitVec 12) (s : State) : Host.Outcome State Fault Refusal :=
  s.run (Hart.load 1 true rd rs1 imm s.hart)

/-- LH (R82). -/
def execLh (rd rs1 : Reg) (imm : BitVec 12) (s : State) : Host.Outcome State Fault Refusal :=
  s.run (Hart.load 2 true rd rs1 imm s.hart)

/-- LW (R83). -/
def execLw (rd rs1 : Reg) (imm : BitVec 12) (s : State) : Host.Outcome State Fault Refusal :=
  s.run (Hart.load 4 true rd rs1 imm s.hart)

/-- LD (R87), XLEN = 64 only. -/
def execLd (rd rs1 : Reg) (imm : BitVec 12) (s : State) : Host.Outcome State Fault Refusal :=
  s.run64 "LD" (Hart.load 8 true rd rs1 imm s.hart)

/-- LBU (R84). -/
def execLbu (rd rs1 : Reg) (imm : BitVec 12) (s : State) : Host.Outcome State Fault Refusal :=
  s.run (Hart.load 1 false rd rs1 imm s.hart)

/-- LHU (R85). -/
def execLhu (rd rs1 : Reg) (imm : BitVec 12) (s : State) : Host.Outcome State Fault Refusal :=
  s.run (Hart.load 2 false rd rs1 imm s.hart)

/-- LWU (R86), XLEN = 64 only. -/
def execLwu (rd rs1 : Reg) (imm : BitVec 12) (s : State) : Host.Outcome State Fault Refusal :=
  s.run64 "LWU" (Hart.load 4 false rd rs1 imm s.hart)

/-- SB (R88). -/
def execSb (rs2 rs1 : Reg) (imm : BitVec 12) (s : State) : Host.Outcome State Fault Refusal :=
  s.run (Hart.store 1 rs2 rs1 imm s.hart)

/-- SH (R89). -/
def execSh (rs2 rs1 : Reg) (imm : BitVec 12) (s : State) : Host.Outcome State Fault Refusal :=
  s.run (Hart.store 2 rs2 rs1 imm s.hart)

/-- SW (R90). -/
def execSw (rs2 rs1 : Reg) (imm : BitVec 12) (s : State) : Host.Outcome State Fault Refusal :=
  s.run (Hart.store 4 rs2 rs1 imm s.hart)

/-- SD (R91), XLEN = 64 only. -/
def execSd (rs2 rs1 : Reg) (imm : BitVec 12) (s : State) : Host.Outcome State Fault Refusal :=
  s.run64 "SD" (Hart.store 8 rs2 rs1 imm s.hart)

end Sys2Proof.Machine
end

