-- ==== Sys2Proof/Machine/ModeInstr.lean ====
section
/-!
DEFINITION. SCMODE, GCMODE, MODESW.CAP, MODESW.INT and GCTAG (spec/42, R120 to R125).
-/

namespace Sys2Proof.Machine

/-- The result of SCMODE on a capability and a new M value (R120): M is written when the capability has X-permission,
else `SCMODE_NO_X` applies; the tag is cleared when the operand is sealed. -/
def scmodeResult {w : Nat} (cfg : Config w) (c : Cap w) (m : Bool) : Cap w :=
  let r := if c.permX cfg then c.withM cfg m
    else match cfg.scmodeNoX with
      | .unchanged => c
      | .clearTag => c.clearTag
      | .writeAnyway => c.withM cfg m
  if c.isSealed cfg then r.clearTag else r

/-- SCMODE at the level of the hart: the new M value is bit 0 of `x[rs2]` (R120). -/
def Hart.scmode {w : Nat} (cd cs1 rs2 : Reg) (h : Hart w) : Res w :=
  h.needCheri
    (.next (h.setC cd (scmodeResult h.cfg (h.creg cs1) ((h.x rs2).getLsbD 0))).advance)

/-- SCMODE (R120). -/
def execScmode (cd cs1 rs2 : Reg) (s : State) : Host.Outcome State Fault Refusal :=
  s.run (Hart.scmode cd cs1 rs2 s.hart)

/-- The result of GCMODE (R121): the M field of a capability with X-permission, else `GCMODE_NO_X`. -/
def gcmodeResult {w : Nat} (cfg : Config w) (c : Cap w) : BitVec w :=
  if c.permX cfg then bitToWord (c.m cfg)
  else match cfg.gcmodeNoX with
    | .zero => 0
    | .rawBit => bitToWord (c.m cfg)

/-- GCMODE at the level of the hart. -/
def Hart.gcmode {w : Nat} (rd cs1 : Reg) (h : Hart w) : Res w :=
  h.needCheri (.next (h.setX rd (gcmodeResult h.cfg (h.creg cs1))).advance)

/-- GCMODE (R121). -/
def execGcmode (rd cs1 : Reg) (s : State) : Host.Outcome State Fault Refusal := s.run (Hart.gcmode rd cs1 s.hart)

/-- `pcc` with its M-bit set to `m`, then `pc + 4`: the effect of a mode switch (R122, R123). -/
def Hart.switchM {w : Nat} (h : Hart w) (m : Bool) : Hart w := (h.setPcc (h.pcc.withM h.cfg m)).advance

/-- MODESW.CAP at the level of the hart (R122): with CHERI access disabled illegal-instruction; refused in Capability
Mode (R66). -/
def Hart.modeswCap {w : Nat} (h : Hart w) : Res w :=
  h.needCheri
    (match h.mode with
      | .int => .next (h.switchM h.cfg.capModeValue)
      | .cap => .refused (.wrongMode "MODESW.CAP"))

/-- MODESW.CAP (R122). -/
def execModeswCap (s : State) : Host.Outcome State Fault Refusal := s.run s.hart.modeswCap

/-- MODESW.INT at the level of the hart (R123): in Integer Mode illegal-instruction with CHERI access disabled, else
refused (R66). INT_MODE_VALUE is the other value of the bit (R15). -/
def Hart.modeswInt {w : Nat} (h : Hart w) : Res w :=
  match h.mode with
  | .cap => .next (h.switchM (!h.cfg.capModeValue))
  | .int => h.needCheri (.refused (.wrongMode "MODESW.INT"))

/-- MODESW.INT (R123). -/
def execModeswInt (s : State) : Host.Outcome State Fault Refusal := s.run s.hart.modeswInt

/-- GCTAG at the level of the hart (R125). -/
def Hart.gctag {w : Nat} (rd cs1 : Reg) (h : Hart w) : Res w :=
  h.needCheri (.next (h.setX rd (bitToWord (h.creg cs1).tag)).advance)

/-- GCTAG (R125). -/
def execGctag (rd cs1 : Reg) (s : State) : Host.Outcome State Fault Refusal := s.run (Hart.gctag rd cs1 s.hart)

end Sys2Proof.Machine
end

