-- ==== Sys2Proof/Machine/Fetch.lean ====
section
/-!
DEFINITION. Instruction fetch (R49) and the end of a run (R207).
-/

namespace Sys2Proof.Machine

/-- `pc` is END_PC: the run is final before the fetch (R207). -/
def Hart.final {w : Nat} (h : Hart w) : Bool := h.cfg.endPc == some h.pc

/-- What stops a fetch, if anything: the check of the four bytes at `pc` against `pcc` (R49), unbacked memory (D13), or
bytes that are no program text: "the program is a parameter, not state" (R52, D34), and executing what a program has
written is outside the model (R205; log 30). -/
def Hart.fetchFailure {w : Nat} (h : Hart w) : Option (Res w) :=
  match authCheck h.cfg h.pcc .fetch h.pc 4 with
  | some v => some (h.raise (.cheri v .fetch))
  | none =>
    if meetsAny h.cfg.unbacked h.pc 4 then some (.refused (.unbacked h.pc.toNat))
    else if within h.cfg.text h.pc 4 then none
    else some (.refused (.outsideText h.pc.toNat))

/-- The `n` bytes from an address on. -/
def Hart.bytesFrom {w : Nat} (h : Hart w) (a : BitVec w) : Nat → List Byte
  | 0 => []
  | n + 1 => h.byteAt a :: h.bytesFrom (a + 1) n

/-- What the four bytes at `pc` decode to, in the current mode. -/
def State.fetched (s : State) : Except DecodeError Instr :=
  match decode s.xlen s.hart.cfg.enc s.hart.mode (s.hart.bytesFrom s.hart.pc 4) with
  | .ok (i, _) => .ok i
  | .error e => .error e

/-- Place bytes in memory from an address on, leaving tags alone. -/
def Hart.pokeBytes {w : Nat} (h : Hart w) (a : BitVec w) : List Byte → Hart w
  | [] => h
  | b :: bs => (h.pokeByte a b).pokeBytes (a + 1) bs

/-- The one-byte ranges of the `n` addresses from `a` on. -/
def byteRanges {w : Nat} (a : BitVec w) : Nat → List Range
  | 0 => []
  | n + 1 => ⟨a.toNat, a.toNat + 1⟩ :: byteRanges (a + 1) n

/-- Place a program's bytes in memory from an address on and make them program text: a program loaded from outside
(log 34). -/
def Hart.placeText {w : Nat} (h : Hart w) (a : BitVec w) (bs : List Byte) : Hart w :=
  let h1 := h.pokeBytes a bs
  { h1 with cfg := { h1.cfg with text := byteRanges a bs.length ++ h1.cfg.text } }

end Sys2Proof.Machine
end

