-- ==== Sys2Proof/Machine/Step.lean ====
section
/-!
DEFINITION. One step of the machine: fetch (Machine/Fetch.lean), decode, execute.
-/

namespace Sys2Proof.Machine

/-- One step. Before a fetch at END_PC the run is over (R207); the fetch is checked against `pcc` (R49) and must be of
backed memory and of program text (R52); a word that is no row of the opcode table is delegated to `CapModeStep` or refused (R67); else the
instruction executes, in the mode of the state it starts in (R17), with `pc` its own address (R13). -/
def step (s : State) : Host.Outcome State Fault Refusal :=
  if s.hart.final then .refused .runEnded
  else match s.hart.fetchFailure with
    | some r => s.run r
    | none =>
      match s.fetched with
      | .ok i => exec i s
      | .error e => s.run (s.hart.undecoded e)

/-- `s` with the instruction whose bits are `w`, as spec/opcode_table.json numbers them, in the four bytes at `pc`, which
are then program text (log 34). -/
def State.withFetchWord (s : State) (nbits w : Nat) : State :=
  { s with hart := s.hart.placeText s.hart.pc (tableBytes nbits w) }

end Sys2Proof.Machine
end

