-- ==== Sys2Proof/Safety.lean ====
section
/-!
DEFINITION. The terms in which claims about the machine are stated: when an instruction's access, target or CSR is
allowed, what an instruction leaves unchanged, and the invariant that every step keeps.
-/

namespace Sys2Proof.Machine

/-! ## When an access happens -/

/-- The alignment policy lets a base access of `n` bytes at `ea` happen (R48). -/
def Hart.alignmentAllows {w : Nat} (h : Hart w) (ea : BitVec w) (n : Nat) : Prop :=
  ea.toNat % n = 0 ∨ h.cfg.misaligned = .bytewise

/-- The launch memory backs the `n` bytes at `a` (D13). -/
def Hart.backed {w : Nat} (h : Hart w) (a : BitVec w) (n : Nat) : Prop := meetsAny h.cfg.unbacked a n = false

/-- The `n` bytes at `a` do not meet the program text (D34). -/
def Hart.offText {w : Nat} (h : Hart w) (a : BitVec w) (n : Nat) : Prop := meetsAny h.cfg.text a n = false

/-- The `n` bytes at `a` are program text (R52, D34). -/
def Hart.isText {w : Nat} (h : Hart w) (a : BitVec w) (n : Nat) : Prop := within h.cfg.text a n = true

/-- A data access of kind `k` with base `rs1` is authorised: by `ddc` in Integer Mode, by `c[rs1]` in Capability Mode
(R40, R42). -/
def Hart.authorised {w : Nat} (h : Hart w) (k : AccessKind) (rs1 : Reg) (ea : BitVec w) (n : Nat) : Prop :=
  authCheck h.cfg (match h.mode with | .int => h.ddc | .cap => h.creg rs1) k ea n = none

/-- A base load of `n` bytes at `ea` with base `rs1` happens (R80). -/
def Hart.loadAllowedAt {w : Nat} (h : Hart w) (n : Nat) (rs1 : Reg) (ea : BitVec w) : Prop :=
  h.authorised .load rs1 ea n ∧ h.alignmentAllows ea n ∧ h.backed ea n

/-- A base store of `n` bytes at `ea` with base `rs1` happens (R80, R52). -/
def Hart.storeAllowedAt {w : Nat} (h : Hart w) (n : Nat) (rs1 : Reg) (ea : BitVec w) : Prop :=
  h.authorised .store rs1 ea n ∧ h.alignmentAllows ea n ∧ h.backed ea n ∧ h.offText ea n

/-- A capability access of kind `k` at `ea` with base `rs1` is authorised, aligned and of backed memory (R140, R141). -/
def Hart.capAllowedAt {w : Nat} (h : Hart w) (k : AccessKind) (rs1 : Reg) (ea : BitVec w) : Prop :=
  h.authorised k rs1 ea (clenBytes w) ∧ ea.toNat % clenBytes w = 0 ∧ h.backed ea (clenBytes w)

/-- A base load of `n` bytes with base `rs1` and offset `imm` executes normally (R80). -/
def Hart.loadAllowed {w : Nat} (h : Hart w) (n : Nat) (rs1 : Reg) (imm : BitVec 12) : Prop :=
  h.loadAllowedAt n rs1 (h.x rs1 + imm.signExtend w)

/-- A base store of `n` bytes executes normally (R80). -/
def Hart.storeAllowed {w : Nat} (h : Hart w) (n : Nat) (rs1 : Reg) (imm : BitVec 12) : Prop :=
  h.storeAllowedAt n rs1 (h.x rs1 + imm.signExtend w)

/-- A transfer to `t` passes `check_target` (R100, R111). -/
def Hart.targetAllowed {w : Nat} (h : Hart w) (t : BitVec w) : Prop :=
  authCheck h.cfg h.pcc .jump t h.cfg.minInsn.bytes = none ∧ t.toNat % h.cfg.minInsn.bytes = 0

/-- A CSR instruction on `a`, implemented as `d`, passes its checks (R169, R167, R152). -/
def Hart.csrAllowed {w : Nat} (h : Hart w) (a : CsrAddr) (writes : Bool) (d : CsrDesc) : Prop :=
  csrAt h.cfg a = some d ∧ a.extractLsb' 8 2 ≤ Priv.level h.priv ∧ (writes = true → a.extractLsb' 10 2 ≠ 3#2) ∧
    (capAccess h.mode d.cls = true → h.cheriEnabled = true) ∧ (d.needsAsr = true → h.pcc.permAsr h.cfg = true)

/-- LC or SC with base `rs1` and offset `imm` executes normally (R140, R141). -/
def Hart.capAccessAllowed {w : Nat} (h : Hart w) (k : AccessKind) (rs1 : Reg) (imm : BitVec 12) : Prop :=
  h.cheriEnabled = true ∧ h.capAllowedAt k rs1 (h.x rs1 + imm.signExtend w)

/-- The kind of a load of this size (R40). -/
def AccessSize.loadKind : AccessSize → AccessKind
  | .bytes _ => .load
  | .cap => .loadCap

/-- The kind of a store of this size (R40). -/
def AccessSize.storeKind : AccessSize → AccessKind
  | .bytes _ => .store
  | .cap => .storeCap

/-- The width of an access at XLEN = `w`, in bytes (R50). -/
def AccessSize.width (w : Nat) : AccessSize → Nat
  | .bytes n => n
  | .cap => clenBytes w

/-- A load of a `CapModeStep` instruction happens (R40, R42, R92). -/
def Hart.baseLoadAllowed {w : Nat} (h : Hart w) (a : BaseAccess w) : Prop :=
  match a.size with
  | .bytes n => h.loadAllowedAt n a.base a.ea
  | .cap => h.capAllowedAt .loadCap a.base a.ea

/-- A store of a `CapModeStep` instruction happens (R40, R42, R92, R52). -/
def Hart.baseStoreAllowed {w : Nat} (h : Hart w) (a : BaseAccess w) : Prop :=
  match a.size with
  | .bytes n => h.storeAllowedAt n a.base a.ea
  | .cap => h.capAllowedAt .storeCap a.base a.ea ∧ h.offText a.ea (clenBytes w)

/-- An access of a `CapModeStep` instruction passes the alignment policy, or is of a capability and aligned (R47, R48). -/
def Hart.accessAligned {w : Nat} (h : Hart w) (a : BaseAccess w) : Prop :=
  match a.size with
  | .bytes n => h.alignmentAllows a.ea n
  | .cap => a.ea.toNat % clenBytes w = 0

/-- The base loads with their widths, LD and LWU at XLEN = 64 only (R81 to R87). -/
def baseLoads (x : Xlen) (rd rs1 : Reg) (imm : BitVec 12) : List (Instr × Nat) :=
  [(.lb rd rs1 imm, 1), (.lh rd rs1 imm, 2), (.lw rd rs1 imm, 4), (.lbu rd rs1 imm, 1), (.lhu rd rs1 imm, 2)] ++
  match x with
  | .rv32 => []
  | .rv64 => [(.ld rd rs1 imm, 8), (.lwu rd rs1 imm, 4)]

/-- The base stores with their widths, SD at XLEN = 64 only (R88 to R91). -/
def baseStores (x : Xlen) (rs2 rs1 : Reg) (imm : BitVec 12) : List (Instr × Nat) :=
  [(.sb rs2 rs1 imm, 1), (.sh rs2 rs1 imm, 2), (.sw rs2 rs1 imm, 4)] ++
  match x with
  | .rv32 => []
  | .rv64 => [(.sd rs2 rs1 imm, 8)]

/-- The branches with the conditions on which they are taken (R101 to R106). -/
def branches {w : Nat} (h : Hart w) (rs1 rs2 : Reg) (off : BitVec 13) : List (Instr × Prop) :=
  [(.beq rs1 rs2 off, h.x rs1 = h.x rs2), (.bne rs1 rs2 off, h.x rs1 ≠ h.x rs2),
   (.blt rs1 rs2 off, (h.x rs1).toInt < (h.x rs2).toInt), (.bge rs1 rs2 off, (h.x rs2).toInt ≤ (h.x rs1).toInt),
   (.bltu rs1 rs2 off, (h.x rs1).toNat < (h.x rs2).toNat), (.bgeu rs1 rs2 off, (h.x rs2).toNat ≤ (h.x rs1).toNat)]

/-- The six CSR instructions on a CSR address, each with whether it writes (R165). -/
def csrInstrs (rd rs1 : Reg) (a : CsrAddr) : List (Instr × Bool) :=
  [(.csrrw rd rs1 a, true), (.csrrs rd rs1 a, rs1 != 0), (.csrrc rd rs1 a, rs1 != 0),
   (.csrrwi rd rs1 a, true), (.csrrsi rd rs1 a, rs1 != 0), (.csrrci rd rs1 a, rs1 != 0)]

/-- The encoding is a row of R64, not an open parameter of R63. -/
def fixedEncoding : Instr → Bool
  | .scmode _ _ _ | .gcmode _ _ | .modeswCap | .modeswInt | .gctag _ _ | .lc _ _ _ | .sc _ _ _ => false
  | _ => true

/-- `INFINITE_CAP` (R5) at some address, with either M-bit: tagged, and with its metadata (logs 6, 8). -/
def infinite {w : Nat} (cfg : Config w) (c : Cap w) : Prop :=
  c.tag = true ∧ (c.withM cfg false).metadata = ((Cap.infinite cfg).withM cfg false).metadata

/-- Tagged, unsealed, with all permissions and bounds `[0, 2^XLEN)`. -/
def grantsAll {w : Nat} (cfg : Config w) (c : Cap w) : Prop :=
  c.tag = true ∧ c.isSealed cfg = false ∧ (c.rights cfg).perms = ⟨true, true, true, true⟩ ∧ c.base cfg = 0 ∧
    c.top cfg = 2 ^ w

/-! ## What an instruction leaves unchanged -/

/-- Every register but `rd` reads as before. -/
def keepsRegsBut {w : Nat} (rd : Reg) (h h' : Hart w) : Prop := ∀ i, i ≠ rd → h'.creg i = h.creg i

/-- Every register reads as before. -/
def keepsRegs {w : Nat} (h h' : Hart w) : Prop := ∀ i, h'.creg i = h.creg i

/-- `ddc` and every other CSR read as before. -/
def keepsCsrs {w : Nat} (h h' : Hart w) : Prop :=
  h'.ddc = h.ddc ∧ (∀ a, h'.capCsr a = h.capCsr a) ∧ ∀ a, h'.ordCsr a = h.ordCsr a

/-- Every byte and every tag of memory reads as before. -/
def keepsMemory {w : Nat} (h h' : Hart w) : Prop := ∀ a, h'.byteAt a = h.byteAt a ∧ h'.tagAt a = h.tagAt a

/-- Every byte but the `n` at `ea`, and every tag but those of their granules, reads as before. -/
def keepsMemoryBut {w : Nat} (ea : BitVec w) (n : Nat) (h h' : Hart w) : Prop :=
  (∀ b, (∀ k < n, b ≠ ea + BitVec.ofNat w k) → h'.byteAt b = h.byteAt b) ∧
  ∀ b : BitVec w, (∀ k < n, granule b ≠ granule (ea + BitVec.ofNat w k)) → h'.tagAt b = h.tagAt b

/-- Tag and metadata of `pcc`, the M-bit among them, are as before: only `pc` may have changed. -/
def keepsPcc {w : Nat} (h h' : Hart w) : Prop := h'.pcc.tag = h.pcc.tag ∧ h'.pcc.metadata = h.pcc.metadata

/-- Privilege and parameters are as before. -/
def keepsSetting {w : Nat} (h h' : Hart w) : Prop := h'.priv = h.priv ∧ h'.cfg = h.cfg

/-! ## Exceptions -/

/-- What `raise e` makes of a state (R180). -/
def raised (x : Xlen) (h : Hart x.bits) (e : Exn) : Host.Outcome State Fault Refusal := State.run ⟨x, h⟩ (h.raise e)

/-- What becomes of an authorised access that cannot happen: bytes misaligned under a policy that is not `bytewise` are
refused or raise the misaligned exception `mis` (R48), a misaligned capability always raises it (R47), and memory that is
not backed is refused (D13). -/
def accessStops (x : Xlen) (h : Hart x.bits) (a : BaseAccess x.bits) (mis : Exn) (o : Host.Outcome State Fault Refusal) :
    Prop :=
  (∀ n, a.size = .bytes n → a.ea.toNat % n ≠ 0 →
    (h.cfg.misaligned = .refuse → o = .refused (.misaligned a.ea.toNat)) ∧
    (h.cfg.misaligned = .trap → o = raised x h mis)) ∧
  (a.size = .cap → a.ea.toNat % clenBytes x.bits ≠ 0 → o = raised x h mis) ∧
  (h.accessAligned a → ¬h.backed a.ea (a.size.width x.bits) → o = .refused (.unbacked a.ea.toNat))

/-- The hart entered a trap handler: the only next state an exception can have (R180, R187). -/
def Hart.Entered {w : Nat} (h h' : Hart w) : Prop := ∃ t e, h.cfg.trap = .handler t ∧ h' = h.enterTrap t e

/-! ## The invariant -/

/-- The canonical form of the CSR tables, `ddc` having no second home in them. -/
def csrTablesWf {w : Nat} (h : Hart w) : Bool :=
  Table.wf Cap.null h.capCsrs && Table.wf 0 h.ordCsrs && decide (Table.get Cap.null h.capCsrs ddcAddr.toNat = Cap.null)

/-- `pcc.addr` is a multiple of MIN_INSN_BYTES (R13). -/
def pcAligned {w : Nat} (h : Hart w) : Bool := decide (h.pc.toNat % h.cfg.minInsn.bytes = 0)

/-- The invariant that every step keeps. -/
def State.Inv (s : State) : Bool := Memory.wf s.hart && csrTablesWf s.hart && pcAligned s.hart

end Sys2Proof.Machine
end

