-- ==== Sys2Proof/Certificates/Slice0/Obligations.lean ====
section
/-!
DEFINITION. The statements for the provers, each over every XLEN, every parameter of the model and every state, with the
rule of spec/ it formalises.
-/

section

open Sys2Proof Sys2Proof.Machine

/-! ## Registers, the mode, capabilities -/

/-- R12: a write of a *c* register replaces tag, metadata and address; a write of an *x* register zeroes tag and metadata;
a write of register 0 does nothing, and register 0 reads as the null capability; nothing but the register changes. -/
def Obligations.RegisterWrites : Prop :=
  ∀ (x : Xlen) (h : Hart x.bits) (i j : Reg) (v : Cap x.bits) (n : BitVec x.bits),
    (h.setC i v).creg j = (if i ≠ 0 ∧ j = i then v else h.creg j) ∧
    (h.setX i n).creg j = (if i ≠ 0 ∧ j = i then ⟨false, 0, n⟩ else h.creg j) ∧
    h.creg 0 = ⟨false, 0, 0⟩ ∧
    h.setC i v = { h with c := (h.setC i v).c } ∧ h.setX i n = { h with c := (h.setX i n).c }

/-- R16: the execution mode is a function of the M-bit of `pcc` and the access setting of the current privilege (R27). -/
def Obligations.ExecutionMode : Prop :=
  ∀ (x : Xlen) (h : Hart x.bits),
    let enabled := match h.priv with
      | .user => h.cfg.cheriAccess.user
      | .supervisor => h.cfg.cheriAccess.supervisor
      | .machine => h.cfg.cheriAccess.machine
    h.cheriEnabled = enabled ∧
    h.mode = if h.pcc.m h.cfg = h.cfg.capModeValue ∧ enabled = true then Mode.cap else Mode.int

/-- R5, R14 (`with_M`): M becomes the given value, and nothing else of the capability changes: its address, its tag, its
other metadata bits, and what the metadata mean. That the M-bit is one bit and does not bear on permissions, bounds or
seal, and what the metadata of `INFINITE_CAP`, at any address, and those that the parameters list mean, is the model's
reading (logs 5, 6, 7). -/
def Obligations.SetModeBit : Prop :=
  ∀ (x : Xlen) (cfg : Config x.bits) (c : Cap x.bits) (m : Bool),
    (c.withM cfg m).m cfg = m ∧ (c.withM cfg m).tag = c.tag ∧ (c.withM cfg m).addr = c.addr ∧
    (∀ k, k ≠ cfg.mPos.val → (c.withM cfg m).metadata.getLsbD k = c.metadata.getLsbD k) ∧
    (c.withM cfg m).rights cfg = c.rights cfg ∧ (c.withM cfg m).bounds cfg = c.bounds cfg ∧
    (∀ a, (c.withM cfg m).representable cfg a = c.representable cfg a) ∧
    c.m cfg = c.metadata.getLsbD cfg.mPos.val ∧
    let isInfinites := (c.withM cfg false).metadata = ((⟨true, cfg.infinite, 0⟩ : Cap x.bits).withM cfg false).metadata
    (isInfinites → c.rights cfg = ⟨⟨true, true, true, true⟩, false⟩ ∧ c.bounds cfg = ⟨0, 2 ^ x.bits⟩) ∧
    (∀ f, ¬isInfinites → cfg.forms.find? (fun f => f.bits == (c.withM cfg false).metadata) = some f →
      c.rights cfg = f.rights ∧
      c.bounds cfg = (if f.repBase ≤ c.addr.toNat ∧ c.addr.toNat < f.repTop then f.bounds else f.outside)) ∧
    c.permX cfg = (c.rights cfg).perms.x ∧ c.permAsr cfg = (c.rights cfg).perms.asr ∧
    c.isSealed cfg = (c.rights cfg).isSealed ∧
    c.base cfg = (c.bounds cfg).base ∧ c.top cfg = min (c.bounds cfg).top (2 ^ x.bits)

/-- R156: the address is replaced, the metadata are kept, and the tag survives only if the capability is not sealed and
the address is representable, that is (R5) if the bounds survive it; the address a capability has is representable. -/
def Obligations.AddressUpdate : Prop :=
  ∀ (x : Xlen) (cfg : Config x.bits) (c : Cap x.bits) (v : BitVec x.bits),
    (c.setAddrScaddr cfg v).addr = v ∧ (c.setAddrScaddr cfg v).metadata = c.metadata ∧
    ((c.setAddrScaddr cfg v).tag = true ↔
      c.tag = true ∧ c.isSealed cfg = false ∧ c.representable cfg v = true) ∧
    (c.representable cfg v = true ↔ (⟨c.tag, c.metadata, v⟩ : Cap x.bits).bounds cfg = c.bounds cfg) ∧
    c.representable cfg c.addr = true

/-- R44: which violation the default capability check reports, in the order tag, seal, permission, bounds; it passes when
all four tests do. -/
def Obligations.CheckVerdict : Prop :=
  ∀ (x : Xlen) (cfg : Config x.bits) (c : Cap x.bits) (k : AccessKind) (a : BitVec x.bits) (n : Nat),
    cfg.base.auth = .given →
    let permitted := match k with
      | .load | .loadCap => (c.rights cfg).perms.r
      | .store | .storeCap => (c.rights cfg).perms.w
      | .fetch | .jump => (c.rights cfg).perms.x
    let inBounds := c.base cfg ≤ a.toNat ∧ a.toNat + n ≤ c.top cfg
    (authCheck cfg c k a n = none ↔ c.tag = true ∧ c.isSealed cfg = false ∧ permitted = true ∧ inBounds) ∧
    (authCheck cfg c k a n = some .tag ↔ c.tag = false) ∧
    (authCheck cfg c k a n = some .seal ↔ c.tag = true ∧ c.isSealed cfg = true) ∧
    (authCheck cfg c k a n = some .permission ↔ c.tag = true ∧ c.isSealed cfg = false ∧ permitted = false) ∧
    (authCheck cfg c k a n = some .bounds ↔
      c.tag = true ∧ c.isSealed cfg = false ∧ permitted = true ∧ ¬inBounds)

/-! ## Memory and CSR storage -/

/-- R45: a read of `n` bytes is little-endian: byte `k` of the value is the byte at `a + k`. -/
def Obligations.MemoryReads : Prop :=
  ∀ (x : Xlen) (h : Hart x.bits) (a : BitVec x.bits) (n : Nat), n ∈ [1, 2, 4, 8] →
    h.memRead a n < 2 ^ (8 * n) ∧
    ∀ k < n, h.memRead a n / 2 ^ (8 * k) % 256 = (h.byteAt (a + BitVec.ofNat x.bits k)).toNat

/-- R46: a write of `n` bytes puts byte `k` of the value at `a + k`, clears the tag of every granule touched, and changes
nothing else. -/
def Obligations.MemoryWrites : Prop :=
  ∀ (x : Xlen) (h : Hart x.bits) (a : BitVec x.bits) (n v : Nat), n ∈ [1, 2, 4, 8] → Memory.wf h = true →
    (∀ k < n, ((h.memWrite a n v).byteAt (a + BitVec.ofNat x.bits k)).toNat = v / 2 ^ (8 * k) % 256 ∧
      (h.memWrite a n v).tagAt (a + BitVec.ofNat x.bits k) = false) ∧
    keepsMemoryBut a n h (h.memWrite a n v) ∧
    h.memWrite a n v = { h with mem := (h.memWrite a n v).mem, tags := (h.memWrite a n v).tags }

/-- R47: a capability stored at an aligned address is loaded back, tag included; its address field stands in the low
XLEN bits and its metadata above; no other byte or tag changes. A granule is CLEN/8 bytes, naturally aligned (R4, R47). -/
def Obligations.CapabilityRoundTrip : Prop :=
  ∀ (x : Xlen) (h : Hart x.bits) (a : BitVec x.bits) (c : Cap x.bits),
    Memory.wf h = true → a.toNat % clenBytes x.bits = 0 →
    clenBytes x.bits = 2 * x.bits / 8 ∧
    (∀ b : BitVec x.bits, granule b = b.toNat - b.toNat % clenBytes x.bits) ∧
    (h.memWriteCap a c).memReadCap a = c ∧
    (h.memWriteCap a c).memRead a (x.bits / 8) = c.addr.toNat ∧
    (h.memWriteCap a c).memRead (a + BitVec.ofNat x.bits (x.bits / 8)) (x.bits / 8) = c.metadata.toNat ∧
    keepsMemoryBut a (clenBytes x.bits) h (h.memWriteCap a c)

/-- R10, R20, R24, R26: each CSR holds what was last written to it, `ddc` is the CSR at 0x416, and a write of one CSR
changes no other and nothing else. -/
def Obligations.CsrStorage : Prop :=
  ∀ (x : Xlen) (h : Hart x.bits) (a b : CsrAddr) (c : Cap x.bits) (v : BitVec x.bits), csrTablesWf h = true →
    (h.setCapCsr a c).capCsr b = (if b = a then c else h.capCsr b) ∧
    (h.setOrdCsr a v).ordCsr b = (if b = a then v else h.ordCsr b) ∧
    h.capCsr 0x416#12 = h.ddc ∧
    h.setCapCsr a c = { h with ddc := (h.setCapCsr a c).ddc, capCsrs := (h.setCapCsr a c).capCsrs } ∧
    h.setOrdCsr a v = { h with ordCsrs := (h.setOrdCsr a v).ordCsrs }

/-! ## Decoding and the step -/

/-- When the fetch is allowed (authorised by `pcc`, of backed memory and of program text) and the four bytes at `pc` decode
to an instruction in the current mode, the step executes it, and adds nothing around it. -/
def Obligations.StepRunsDecoded : Prop :=
  ∀ (s : State) (i : Instr),
    s.hart.final = false → authCheck s.hart.cfg s.hart.pcc .fetch s.hart.pc 4 = none → s.hart.backed s.hart.pc 4 →
    s.hart.isText s.hart.pc 4 →
    decode s.xlen s.hart.cfg.enc s.hart.mode (s.hart.bytesFrom s.hart.pc 4) = .ok (i, []) → step s = exec i s

/-- R49, R67, R207, R40, R42, R92, R100: what a step is that executes no row of the opcode table: END_PC, a failed fetch
check, memory the launch does not back and bytes that are no program text (D13, D34, logs 29, 30) stop it; a word that is no
row is refused, or, under a base CHERI extension that has it (`CapModeStep`; log 49), what that makes of it: illegal if it
takes *c* registers and CHERI access is disabled; an unauthorised load or store raises a CHERI exception with its own
address, and an authorised one that is misaligned, unbacked or over the program text stops as the opcode table's do (R48,
D13, D34), the accesses one after another, each with all its checks (log 49); a target outside `pcc` raises a CHERI exception and a misaligned one instruction-address-misaligned (R100, R111);
if its accesses and its target are allowed, the step completes with its writes. The instruction word is the four bytes at
`pc`, the first the least significant (R49), and what the extension sees, loads and writes is as log 49 says. -/
def Obligations.StepStops : Prop :=
  ∀ (x : Xlen) (h : Hart x.bits),
    let insn := h.fetchedWord
    let fetches := h.final = false ∧ authCheck h.cfg h.pcc .fetch h.pc 4 = none
    let decoded := decode x h.cfg.enc h.mode (h.bytesFrom h.pc 4)
    (h.final = true ↔ h.cfg.endPc = some h.pc) ∧
    State.fetched ⟨x, h⟩ = decoded.map Prod.fst ∧
    (h.cfg.endPc = some h.pc → step ⟨x, h⟩ = .refused .runEnded) ∧
    (h.final = false → ∀ v, authCheck h.cfg h.pcc .fetch h.pc 4 = some v →
      step ⟨x, h⟩ = raised x h (.cheri v .fetch)) ∧
    (fetches → ¬h.backed h.pc 4 → step ⟨x, h⟩ = .refused (.unbacked h.pc.toNat)) ∧
    (fetches → h.backed h.pc 4 → ¬h.isText h.pc 4 → step ⟨x, h⟩ = .refused (.outsideText h.pc.toNat)) ∧
    (fetches → h.backed h.pc 4 → h.isText h.pc 4 →
      ∀ e, decoded = .error e → (e = .noSuchWord → h.cfg.base.capModeStep = .given) →
        step ⟨x, h⟩ = .refused (.undecodable insn.toNat)) ∧
    (fetches → h.backed h.pc 4 → h.isText h.pc 4 → decoded = .error .noSuchWord → h.cfg.base.capModeStep = .free →
      let takesCap := Config.freeTakesCap insn
      let disabled := takesCap = true ∧ h.cheriEnabled = false
      match Config.freeCapModeStep h.cfg insn h.baseView with
      | .unknown => step ⟨x, h⟩ = .refused (.undecodable insn.toNat)
      | .illegal => step ⟨x, h⟩ = raised x h (.illegal insn)
      | .raises v k =>
        (disabled → step ⟨x, h⟩ = raised x h (.illegal insn)) ∧
        (¬disabled → step ⟨x, h⟩ = raised x h (.cheri v k))
      | .loads as =>
        let e := Config.freeCapModeEffect h.cfg insn h.baseView (as.map h.baseLoaded)
        let authority := fun a : BaseAccess x.bits => match h.mode with | .int => h.ddc | .cap => h.creg a.base
        (disabled → step ⟨x, h⟩ = raised x h (.illegal insn)) ∧
        (¬disabled → ∀ before a after v, as = before ++ a :: after → (∀ b ∈ before, h.baseLoadAllowed b) →
          authCheck h.cfg (authority a) a.size.loadKind a.ea (a.size.width x.bits) = some v →
          step ⟨x, h⟩ = raised x h (.cheri v (.data a.ea.toNat))) ∧
        (¬disabled → ∀ before a after, as = before ++ a :: after → (∀ b ∈ before, h.baseLoadAllowed b) →
          authCheck h.cfg (authority a) a.size.loadKind a.ea (a.size.width x.bits) = none →
          accessStops x h a (.loadMisaligned a.ea.toNat) (step ⟨x, h⟩)) ∧
        (¬disabled → (∀ b ∈ as, h.baseLoadAllowed b) →
          (∀ before p after v, e.stores = before ++ p :: after → (∀ q ∈ before, h.baseStoreAllowed q.1) →
            authCheck h.cfg (authority p.1) p.1.size.storeKind p.1.ea (p.1.size.width x.bits) = some v →
            step ⟨x, h⟩ = raised x h (.cheri v (.data p.1.ea.toNat))) ∧
          (∀ before p after, e.stores = before ++ p :: after → (∀ q ∈ before, h.baseStoreAllowed q.1) →
            authCheck h.cfg (authority p.1) p.1.size.storeKind p.1.ea (p.1.size.width x.bits) = none →
            accessStops x h p.1 (.storeMisaligned p.1.ea.toNat) (step ⟨x, h⟩) ∧
            (h.accessAligned p.1 → h.backed p.1.ea (p.1.size.width x.bits) → ¬h.offText p.1.ea (p.1.size.width x.bits) →
              step ⟨x, h⟩ = .refused (.programText p.1.ea.toNat))) ∧
          ((∀ p ∈ e.stores, h.baseStoreAllowed p.1) →
            (∀ t v, e.target = some t → authCheck h.cfg h.pcc .jump t h.cfg.minInsn.bytes = some v →
              step ⟨x, h⟩ = raised x h (.cheri v .jump)) ∧
            (∀ t, e.target = some t → authCheck h.cfg h.pcc .jump t h.cfg.minInsn.bytes = none →
              t.toNat % h.cfg.minInsn.bytes ≠ 0 → step ⟨x, h⟩ = raised x h (.insnMisaligned t.toNat)) ∧
            ((∀ t, e.target = some t → h.targetAllowed t) →
              step ⟨x, h⟩ = .next ⟨x, (h.baseWritten takesCap e).setPc (e.target.getD (h.pc + 4))⟩)))) ∧
    (h.bytesFrom h.pc 4 = [h.byteAt h.pc, h.byteAt (h.pc + 1), h.byteAt (h.pc + 2), h.byteAt (h.pc + 3)] ∧
      h.bytesFrom h.pc 4 =
        [insn.extractLsb' 0 8, insn.extractLsb' 8 8, insn.extractLsb' 16 8, insn.extractLsb' 24 8]) ∧
    (h.baseView.pcc = h.pcc.withM h.cfg false ∧ ∀ i : Reg, h.baseView.regs[i.toNat]'i.isLt = h.creg i) ∧
    (∀ a : BaseAccess x.bits, h.baseLoaded a = match a.size with
      | .bytes n => ⟨false, h.memRead a.ea n⟩
      | .cap =>
        let c := loadCapFilter h.cfg (match h.mode with | .int => h.ddc | .cap => h.creg a.base) (h.memReadCap a.ea)
        ⟨c.tag, c.addr.toNat + 2 ^ x.bits * c.metadata.toNat⟩) ∧
    ∀ (takesCap : Bool) (e : BaseEffect x.bits),
      let stored := e.stores.foldl (init := h) fun g p => match p.1.size with
        | .bytes n => g.memWrite p.1.ea n p.2.bits
        | .cap => g.memWriteCap p.1.ea (storeCapFilter h.cfg (match h.mode with | .int => h.ddc | .cap => h.creg p.1.base)
            ⟨p.2.tag, BitVec.ofNat x.bits (p.2.bits / 2 ^ x.bits), BitVec.ofNat x.bits p.2.bits⟩)
      h.baseWritten takesCap e =
        e.regs.foldl (init := stored) fun g p => if takesCap = true then g.setC p.1 p.2 else g.setX p.1 p.2.addr

/-- The example words of R81, R83, R91, R101, R102, R107, R108, R110, R157 and R162 decode as those rules say, whatever
the open encodings are and in both modes. -/
def Obligations.DecodeExampleWords : Prop :=
  ∀ (e : Encodings) (m : Mode),
    decodeWord .rv64 e m 0xFFF50283#32 = .ok (.lb 5 10 (-1)) ∧
    decodeWord .rv64 e m 0x01052283#32 = .ok (.lw 5 10 16) ∧
    decodeWord .rv64 e m 0xFE553C23#32 = .ok (.sd 5 10 (-8)) ∧
    decodeWord .rv64 e m 0x00B50463#32 = .ok (.beq 10 11 8) ∧
    decodeWord .rv64 e m 0xFEB51EE3#32 = .ok (.bne 10 11 (-4)) ∧
    decodeWord .rv64 e m 0x100000EF#32 = .ok (.jal 1 0x100) ∧
    decodeWord .rv64 e m 0x00000097#32 = .ok (.auipc 1 0) ∧
    decodeWord .rv64 e m 0x004500E7#32 = .ok (.jalr 1 10 4) ∧
    decodeWord .rv64 e m 0x416110F3#32 = .ok (.csrrw 1 2 0x416) ∧
    decodeWord .rv64 e m 0x416450F3#32 = .ok (.csrrwi 1 8 0x416)

/-- Decoding gives only well-formed instructions: even offsets (R62), and LD, LWU and SD only at XLEN = 64 (R64). -/
def Obligations.DecodedWellFormed : Prop :=
  ∀ (x : Xlen) (e : Encodings) (m : Mode) (w : BitVec 32) (i : Instr),
    decodeWord x e m w = .ok i → i.wf x = true

/-- Decoding an encoded well-formed instruction gives it back with every operand, under open encodings that meet the
constraints of R63; where the two MODESW encodings coincide, in the mode the instruction is valid in. -/
def Obligations.DecodeOfEncode : Prop :=
  ∀ (x : Xlen) (e : Encodings) (m : Mode) (i : Instr) (rest : List Byte),
    e.ok x = true → i.wf x = true →
    (e.modeswCap = e.modeswInt → (i = .modeswCap → m = .int) ∧ (i = .modeswInt → m = .cap)) →
    decode x e m (encode e i ++ rest) = .ok (i, rest)

/-- A word of R64's encodings is the encoding of what it decodes to: no bit of it is ignored. -/
def Obligations.EncodeOfDecode : Prop :=
  ∀ (x : Xlen) (e : Encodings) (m : Mode) (w : BitVec 32) (i : Instr),
    decodeWord x e m w = .ok i → fixedEncoding i = true → encodeWord e i = w

/-- R65: the execution mode changes no encoding, but for which MODESW a word is if their encodings coincide (R63). -/
def Obligations.DecodingModeBlind : Prop :=
  ∀ (x : Xlen) (e : Encodings) (w : BitVec 32),
    e.ok x = true → e.modeswCap ≠ e.modeswInt → decodeWord x e .int w = decodeWord x e .cap w

/-! ## Loads and stores -/

/-- R80 to R87: the base loads, when the access is authorised, aligned (or bytewise) and backed: the bytes at
`x[rs1] + sext(imm)`, sign- or zero-extended, become the integer in `rd`, and `pc` moves on; `x[rs1]` is the address of
`c[rs1]` (the spec's decision D5). -/
def Obligations.LoadsComplete : Prop :=
  ∀ (x : Xlen) (h : Hart x.bits) (rd rs1 : Reg) (imm : BitVec 12),
    let ea := h.x rs1 + imm.signExtend x.bits
    let after := fun v : BitVec x.bits => (.next ⟨x, (h.setX rd v).setPc (h.pc + 4)⟩ : Host.Outcome State Fault Refusal)
    (h.loadAllowed 1 rs1 imm →
      exec (.lb rd rs1 imm) ⟨x, h⟩ = after ((BitVec.ofNat 8 (h.memRead ea 1)).signExtend x.bits) ∧
      exec (.lbu rd rs1 imm) ⟨x, h⟩ = after (BitVec.ofNat x.bits (h.memRead ea 1))) ∧
    (h.loadAllowed 2 rs1 imm →
      exec (.lh rd rs1 imm) ⟨x, h⟩ = after ((BitVec.ofNat 16 (h.memRead ea 2)).signExtend x.bits) ∧
      exec (.lhu rd rs1 imm) ⟨x, h⟩ = after (BitVec.ofNat x.bits (h.memRead ea 2))) ∧
    (h.loadAllowed 4 rs1 imm →
      exec (.lw rd rs1 imm) ⟨x, h⟩ = after ((BitVec.ofNat 32 (h.memRead ea 4)).signExtend x.bits) ∧
      (x = .rv64 → exec (.lwu rd rs1 imm) ⟨x, h⟩ = after (BitVec.ofNat x.bits (h.memRead ea 4)))) ∧
    (x = .rv64 → h.loadAllowed 8 rs1 imm →
      exec (.ld rd rs1 imm) ⟨x, h⟩ = after (BitVec.ofNat x.bits (h.memRead ea 8))) ∧
    h.x rs1 = (h.creg rs1).addr

/-- R80, R88 to R91: the base stores, when the access is allowed: the low bytes of `x[rs2]` go to memory at
`x[rs1] + sext(imm)` as `MemWrite` puts them, and `pc` moves on. -/
def Obligations.StoresComplete : Prop :=
  ∀ (x : Xlen) (h : Hart x.bits) (rs2 rs1 : Reg) (imm : BitVec 12) (p : Instr × Nat),
    p ∈ baseStores x rs2 rs1 imm → h.storeAllowed p.2 rs1 imm →
    exec p.1 ⟨x, h⟩ =
      .next ⟨x, (h.memWrite (h.x rs1 + imm.signExtend x.bits) p.2 ((h.x rs2).toNat % 2 ^ (8 * p.2))).setPc (h.pc + 4)⟩

/-- R40, R42, R182, R185: a load, store, LC or SC that its authority (`ddc` in Integer Mode, `c[rs1]` in Capability Mode)
does not authorise raises a CHERI exception with the violation and `ea`, aligned or not and whatever the destination. No
`AuthCheck` lets a capability with tag 0 authorise anything, nor any an access past 2^XLEN (R80; for an `AuthCheck` other than
the default, that this is so of every kind of access, and its violations, is the model's reading: log 8). -/
def Obligations.UnauthorisedAccess : Prop :=
  ∀ (x : Xlen) (h : Hart x.bits) (r rs1 : Reg) (imm : BitVec 12) (v : Violation),
    let ea := h.x rs1 + imm.signExtend x.bits
    let authority := match h.mode with | .int => h.ddc | .cap => h.creg rs1
    let fails := fun (i : Instr) (k : AccessKind) (n : Nat) => authCheck h.cfg authority k ea n = some v →
      exec i ⟨x, h⟩ = raised x h (.cheri v (.data ea.toNat))
    (∀ p ∈ baseLoads x r rs1 imm, fails p.1 .load p.2) ∧ (∀ p ∈ baseStores x r rs1 imm, fails p.1 .store p.2) ∧
    (h.cheriEnabled = true →
      fails (.lc r rs1 imm) .loadCap (clenBytes x.bits) ∧ fails (.sc r rs1 imm) .storeCap (clenBytes x.bits)) ∧
    ∀ (c : Cap x.bits) (k : AccessKind) (a : BitVec x.bits) (n : Nat),
      (c.tag = false → authCheck h.cfg c k a n = some .tag) ∧ (2 ^ x.bits < a.toNat + n → authCheck h.cfg c k a n ≠ none)

/-- R48, R140, R141: an authorised but misaligned access: a base load or store is refused or raises the misaligned
exception as the policy says; LC and SC always raise it. -/
def Obligations.MisalignedAccess : Prop :=
  ∀ (x : Xlen) (h : Hart x.bits) (r rs1 : Reg) (imm : BitVec 12),
    let ea := h.x rs1 + imm.signExtend x.bits
    (∀ p ∈ baseLoads x r rs1 imm, h.authorised .load rs1 ea p.2 → ea.toNat % p.2 ≠ 0 →
      (h.cfg.misaligned = .refuse → exec p.1 ⟨x, h⟩ = .refused (.misaligned ea.toNat)) ∧
      (h.cfg.misaligned = .trap → exec p.1 ⟨x, h⟩ = raised x h (.loadMisaligned ea.toNat))) ∧
    (∀ p ∈ baseStores x r rs1 imm, h.authorised .store rs1 ea p.2 → ea.toNat % p.2 ≠ 0 →
      (h.cfg.misaligned = .refuse → exec p.1 ⟨x, h⟩ = .refused (.misaligned ea.toNat)) ∧
      (h.cfg.misaligned = .trap → exec p.1 ⟨x, h⟩ = raised x h (.storeMisaligned ea.toNat))) ∧
    (h.cheriEnabled = true → ea.toNat % clenBytes x.bits ≠ 0 →
      (h.authorised .loadCap rs1 ea (clenBytes x.bits) →
        exec (.lc r rs1 imm) ⟨x, h⟩ = raised x h (.loadMisaligned ea.toNat)) ∧
      (h.authorised .storeCap rs1 ea (clenBytes x.bits) →
        exec (.sc r rs1 imm) ⟨x, h⟩ = raised x h (.storeMisaligned ea.toNat)))

/-- R50, R52, R86, R87, R91 with decisions D13 and D34: the accesses the model refuses: of memory the launch does not
back, stores over the program text, and LD, LWU, SD where XLEN = 32 has none (logs 29, 30, 46). -/
def Obligations.RefusedAccess : Prop :=
  ∀ (x : Xlen) (h : Hart x.bits) (r rs1 : Reg) (imm : BitVec 12),
    let ea := h.x rs1 + imm.signExtend x.bits
    (∀ p ∈ baseLoads x r rs1 imm, h.authorised .load rs1 ea p.2 → h.alignmentAllows ea p.2 → ¬h.backed ea p.2 →
      exec p.1 ⟨x, h⟩ = .refused (.unbacked ea.toNat)) ∧
    (∀ p ∈ baseStores x r rs1 imm, h.authorised .store rs1 ea p.2 → h.alignmentAllows ea p.2 →
      (¬h.backed ea p.2 → exec p.1 ⟨x, h⟩ = .refused (.unbacked ea.toNat)) ∧
      (h.backed ea p.2 → ¬h.offText ea p.2 → exec p.1 ⟨x, h⟩ = .refused (.programText ea.toNat))) ∧
    (h.cheriEnabled = true → ea.toNat % clenBytes x.bits = 0 → ¬h.backed ea (clenBytes x.bits) →
      (h.authorised .loadCap rs1 ea (clenBytes x.bits) →
        exec (.lc r rs1 imm) ⟨x, h⟩ = .refused (.unbacked ea.toNat)) ∧
      (h.authorised .storeCap rs1 ea (clenBytes x.bits) →
        exec (.sc r rs1 imm) ⟨x, h⟩ = .refused (.unbacked ea.toNat))) ∧
    (x = .rv32 → exec (.ld r rs1 imm) ⟨x, h⟩ = .refused (.requiresXlen64 "LD") ∧
      exec (.lwu r rs1 imm) ⟨x, h⟩ = .refused (.requiresXlen64 "LWU") ∧
      exec (.sd r rs1 imm) ⟨x, h⟩ = .refused (.requiresXlen64 "SD")) ∧
    ∀ (a : BitVec x.bits) (n : Nat),
      let byteIn := fun (rs : List Range) (k : Nat) =>
        ∃ q ∈ rs, q.lo ≤ (a + BitVec.ofNat x.bits k).toNat ∧ (a + BitVec.ofNat x.bits k).toNat < q.hi
      (h.backed a n ↔ ∀ k < n, ¬byteIn h.cfg.unbacked k) ∧ (h.offText a n ↔ ∀ k < n, ¬byteIn h.cfg.text k) ∧
      (h.isText a n ↔ ∀ k < n, byteIn h.cfg.text k)

/-- R140: LC loads a full capability, tag included, through `LoadCapFilter`, into the *c* register; with the default
filter the register holds what was in memory. -/
def Obligations.LoadCapCompletes : Prop :=
  ∀ (x : Xlen) (h : Hart x.bits) (cd rs1 : Reg) (imm : BitVec 12), h.capAccessAllowed .loadCap rs1 imm →
    let ea := h.x rs1 + imm.signExtend x.bits
    let authority := match h.mode with | .int => h.ddc | .cap => h.creg rs1
    exec (.lc cd rs1 imm) ⟨x, h⟩ =
      .next ⟨x, (h.setC cd (loadCapFilter h.cfg authority (h.memReadCap ea))).setPc (h.pc + 4)⟩ ∧
    (h.cfg.base.loadFilter = .given → loadCapFilter h.cfg authority (h.memReadCap ea) = h.memReadCap ea)

/-- R141: SC stores the full capability, tag included, through `StoreCapFilter`; with the default filter it stores the
register as it is. A store over the program text is refused (D34, log 30). -/
def Obligations.StoreCapCompletes : Prop :=
  ∀ (x : Xlen) (h : Hart x.bits) (cs2 rs1 : Reg) (imm : BitVec 12), h.capAccessAllowed .storeCap rs1 imm →
    let ea := h.x rs1 + imm.signExtend x.bits
    let authority := match h.mode with | .int => h.ddc | .cap => h.creg rs1
    (h.offText ea (clenBytes x.bits) → exec (.sc cs2 rs1 imm) ⟨x, h⟩ =
      .next ⟨x, (h.memWriteCap ea (storeCapFilter h.cfg authority (h.creg cs2))).setPc (h.pc + 4)⟩) ∧
    (¬h.offText ea (clenBytes x.bits) → exec (.sc cs2 rs1 imm) ⟨x, h⟩ = .refused (.programText ea.toNat)) ∧
    (h.cfg.base.storeFilter = .given → storeCapFilter h.cfg authority (h.creg cs2) = h.creg cs2)

/-! ## Branches, jumps, AUIPC -/

/-- R101 to R106: a branch whose condition fails goes to `pc + 4` without a check; one whose condition holds goes to its
target when that is allowed. Nothing but `pc` changes. -/
def Obligations.BranchesComplete : Prop :=
  ∀ (x : Xlen) (h : Hart x.bits) (rs1 rs2 : Reg) (off : BitVec 13) (p : Instr × Prop), p ∈ branches h rs1 rs2 off →
    (¬p.2 → exec p.1 ⟨x, h⟩ = .next ⟨x, h.setPc (h.pc + 4)⟩) ∧
    (p.2 → h.targetAllowed (h.pc + off.signExtend x.bits) →
      exec p.1 ⟨x, h⟩ = .next ⟨x, h.setPc (h.pc + off.signExtend x.bits)⟩)

/-- R100, R111, R182, R185: a taken branch, JAL or JALR to a target outside `pcc` raises a CHERI exception, a Capability Mode
JALR where the parameter makes that check (log 47); then a Capability Mode JALR whose operand is no valid target raises one,
its kind `jump` the model's choice (log 48) and its violation, where `JalrCap` is `given`, that of `AuthCheck` (log 10); then a
misaligned target raises instruction-address-misaligned. MIN_INSN_BYTES is 2 or 4 (R4). -/
def Obligations.TransferFaults : Prop :=
  ∀ (x : Xlen) (h : Hart x.bits) (rd rs1 rs2 : Reg) (imm : BitVec 12) (off : BitVec 13) (off21 : BitVec 21),
    let faults := fun (i : Instr) (t : BitVec x.bits) =>
      (∀ v, authCheck h.cfg h.pcc .jump t h.cfg.minInsn.bytes = some v →
        exec i ⟨x, h⟩ = raised x h (.cheri v .jump)) ∧
      (authCheck h.cfg h.pcc .jump t h.cfg.minInsn.bytes = none → t.toNat % h.cfg.minInsn.bytes ≠ 0 →
        exec i ⟨x, h⟩ = raised x h (.insnMisaligned t.toNat))
    h.cfg.minInsn.bytes = (match h.cfg.minInsn with | .two => 2 | .four => 4) ∧
    (∀ p ∈ branches h rs1 rs2 off, p.2 → faults p.1 (h.pc + off.signExtend x.bits)) ∧
    faults (.jal rd off21) (h.pc + off21.signExtend x.bits) ∧
    (h.mode = .int → faults (.jalr rd rs1 imm) ((h.x rs1 + imm.signExtend x.bits) &&& ~~~1)) ∧
    (h.mode = .cap →
      let c := h.creg rs1
      let t := (h.x rs1 + imm.signExtend x.bits) &&& ~~~1
      let bytes := h.cfg.minInsn.bytes
      (h.cfg.base.jalrPcc = true → ∀ v, authCheck h.cfg h.pcc .jump t bytes = some v →
        exec (.jalr rd rs1 imm) ⟨x, h⟩ = raised x h (.cheri v .jump)) ∧
      (h.jalrPccFailure t = none → ∀ v, h.jalrFailure c imm t = some v →
        exec (.jalr rd rs1 imm) ⟨x, h⟩ = raised x h (.cheri v .jump)) ∧
      (h.cfg.base.jalr = .given → h.jalrFailure c imm t = authCheck h.cfg { c with addr := t } .jump t bytes) ∧
      (h.jalrPccFailure t = none → h.jalrFailure c imm t = none → t.toNat % bytes ≠ 0 →
        exec (.jalr rd rs1 imm) ⟨x, h⟩ = raised x h (.insnMisaligned t.toNat)))

/-- R107: JAL to an allowed target: the link is an integer in Integer Mode and `LinkCap(pcc, pc + 4)` in Capability Mode,
and only the address of `pcc` is replaced. That the link capability's address is the return address, and its value where
the parameter is `given`, is the model's reading (log 9). -/
def Obligations.JalCompletes : Prop :=
  ∀ (x : Xlen) (h : Hart x.bits) (rd : Reg) (off : BitVec 21), h.targetAllowed (h.pc + off.signExtend x.bits) →
    (h.mode = .int → exec (.jal rd off) ⟨x, h⟩ =
      .next ⟨x, (h.setX rd (h.pc + 4)).setPc (h.pc + off.signExtend x.bits)⟩) ∧
    (h.mode = .cap → exec (.jal rd off) ⟨x, h⟩ =
      .next ⟨x, (h.setC rd (h.linkCap (h.pc + 4))).setPc (h.pc + off.signExtend x.bits)⟩) ∧
    (h.linkCap (h.pc + 4)).addr = h.pc + 4 ∧
    (h.cfg.base.link = .given → h.linkCap (h.pc + 4) = { h.pcc with addr := h.pc + 4 })

/-- R110: JALR in Integer Mode to an allowed target: an integer link, and only the address of `pcc` is replaced, by
`(x[rs1] + sext(imm)) & ~1` of the state before the link is written. -/
def Obligations.JalrIntegerCompletes : Prop :=
  ∀ (x : Xlen) (h : Hart x.bits) (rd rs1 : Reg) (imm : BitVec 12), h.mode = .int →
    h.targetAllowed ((h.x rs1 + imm.signExtend x.bits) &&& ~~~1) →
    exec (.jalr rd rs1 imm) ⟨x, h⟩ =
      .next ⟨x, (h.setX rd (h.pc + 4)).setPc ((h.x rs1 + imm.signExtend x.bits) &&& ~~~1)⟩

/-- R109: JALR in Capability Mode: a target that is valid, in the sense that `AuthCheck` authorises the jump, is accepted,
and the whole of an unsealed operand, tag, metadata and M-bit, becomes `pcc` with the target address; of a sealed operand
tag and M-bit do. The link is a capability for the return address. That validity is `AuthCheck`'s, and the link's address and
its value where `JalrCap` is `given`, are the model's reading (logs 9, 10). -/
def Obligations.JalrCapabilityCompletes : Prop :=
  ∀ (x : Xlen) (h : Hart x.bits) (rd rs1 : Reg) (imm : BitVec 12), h.mode = .cap →
    let c := h.creg rs1
    let t := (h.x rs1 + imm.signExtend x.bits) &&& ~~~1
    let target := h.jalrInstalled c imm t
    (h.jalrPccFailure t = none → h.jalrFailure c imm t = none → t.toNat % h.cfg.minInsn.bytes = 0 →
      exec (.jalr rd rs1 imm) ⟨x, h⟩ = .next ⟨x, (h.setC rd (h.jalrLink c imm)).setPcc target⟩) ∧
    (h.cfg.base.jalrPcc = false ∨ authCheck h.cfg h.pcc .jump t h.cfg.minInsn.bytes = none →
      h.jalrPccFailure t = none) ∧
    (authCheck h.cfg { c with addr := t } .jump t h.cfg.minInsn.bytes = none → h.jalrFailure c imm t = none) ∧
    target.addr = t ∧ target.tag = c.tag ∧ target.m h.cfg = c.m h.cfg ∧
    (c.isSealed h.cfg = false → target = { c with addr := t }) ∧
    (h.jalrLink c imm).addr = h.pc + 4 ∧
    (h.cfg.base.jalr = .given → h.jalrLink c imm = h.linkCap (h.pc + 4))

/-- R108: AUIPC writes the integer `pc + sext(imm20 :: 0)` in Integer Mode and `SetAddr(pcc, that)` in Capability Mode,
by default `pcc` with its address updated as R156 says. `pc` is the address of `pcc`, and moving it changes nothing else
(R13). -/
def Obligations.AuipcCompletes : Prop :=
  ∀ (x : Xlen) (h : Hart x.bits) (rd : Reg) (imm : BitVec 20),
    let v := h.pc + (imm ++ 0#12).signExtend x.bits
    (h.mode = .int → exec (.auipc rd imm) ⟨x, h⟩ = .next ⟨x, (h.setX rd v).setPc (h.pc + 4)⟩) ∧
    (h.mode = .cap → exec (.auipc rd imm) ⟨x, h⟩ = .next ⟨x, (h.setC rd (h.setAddrPcc v)).setPc (h.pc + 4)⟩) ∧
    (h.setAddrPcc v).addr = v ∧ (h.cfg.base.setAddr = .given → h.setAddrPcc v = h.pcc.setAddrScaddr h.cfg v) ∧
    h.pc = h.pcc.addr ∧ h.setPc v = { h with pcc := { h.pcc with addr := v } }

/-! ## CSR instructions -/

/-- R157: CSRRW on a capability access moves full capabilities both ways through *c* registers, the register read before
it is written. -/
def Obligations.CsrrwCapability : Prop :=
  ∀ (x : Xlen) (h : Hart x.bits) (rd rs1 : Reg) (a : CsrAddr) (d : CsrDesc),
    h.csrAllowed a true d → capAccess h.mode d.cls = true →
    exec (.csrrw rd rs1 a) ⟨x, h⟩ =
      .next ⟨x, ((h.setCapCsr a (extCsrWrite h.cfg d (h.capCsr a) (.full (h.creg rs1)))).setC rd
        (h.capCsr a)).setPc (h.pc + 4)⟩

/-- R158, R166, R159: CSRRW on an extended CSR in Integer Mode moves its address both ways through *x* registers, the
write as an address write; on an ordinary CSR it moves XLEN bits in both modes, the write as the CSR legalises it, which
stores the bits as given where the CSR has no rule of its own (log 14). -/
def Obligations.CsrrwInteger : Prop :=
  ∀ (x : Xlen) (h : Hart x.bits) (rd rs1 : Reg) (a : CsrAddr) (d : CsrDesc), h.csrAllowed a true d →
    (d.cls = .ext → h.mode = .int → exec (.csrrw rd rs1 a) ⟨x, h⟩ =
      .next ⟨x, ((h.setCapCsr a (extCsrWrite h.cfg d (h.capCsr a) (.addrOnly (h.x rs1)))).setX rd
        (h.capCsr a).addr).setPc (h.pc + 4)⟩) ∧
    (d.cls = .ord → exec (.csrrw rd rs1 a) ⟨x, h⟩ =
      .next ⟨x, ((h.setOrdCsr a (ordCsrWrite d (h.ordCsr a) (h.x rs1))).setX rd (h.ordCsr a)).setPc (h.pc + 4)⟩) ∧
    (d.write = .given → ∀ old v : BitVec x.bits, ordCsrWrite d old v = v)

/-- R153, R160, R161, R163, R164, R165: the instructions that set and clear bits. The new value or address is the old one
with the operand's bits set or cleared; on a capability CSR the write is an address write; nothing is written when the
operand field is 0; the old value goes to the destination, in full on a capability access. -/
def Obligations.CsrSetAndClear : Prop :=
  ∀ (x : Xlen) (h : Hart x.bits) (rd rs1 : Reg) (a : CsrAddr) (d : CsrDesc), h.csrAllowed a (rs1 != 0) d →
    let after := fun new : BitVec x.bits → BitVec x.bits =>
      let capWritten := if rs1 = 0 then h else
        h.setCapCsr a (extCsrWrite h.cfg d (h.capCsr a) (.addrOnly (new (h.capCsr a).addr)))
      let ordWritten := if rs1 = 0 then h else h.setOrdCsr a (ordCsrWrite d (h.ordCsr a) (new (h.ordCsr a)))
      let h' := if d.cls = .ord then ordWritten.setX rd (h.ordCsr a)
        else if capAccess h.mode d.cls = true then capWritten.setC rd (h.capCsr a)
        else capWritten.setX rd (h.capCsr a).addr
      (.next ⟨x, h'.setPc (h.pc + 4)⟩ : Host.Outcome State Fault Refusal)
    exec (.csrrs rd rs1 a) ⟨x, h⟩ = after (fun old => old ||| h.x rs1) ∧
    exec (.csrrc rd rs1 a) ⟨x, h⟩ = after (fun old => old &&& ~~~(h.x rs1)) ∧
    exec (.csrrsi rd rs1 a) ⟨x, h⟩ = after (fun old => old ||| rs1.setWidth x.bits) ∧
    exec (.csrrci rd rs1 a) ⟨x, h⟩ = after (fun old => old &&& ~~~(rs1.setWidth x.bits))

/-- R162: CSRRWI writes the zero-extended immediate, on a capability CSR always as an address write, and is never
suppressed. -/
def Obligations.CsrrwiCompletes : Prop :=
  ∀ (x : Xlen) (h : Hart x.bits) (rd uimm : BitVec 5) (a : CsrAddr) (d : CsrDesc), h.csrAllowed a true d →
    let written := h.setCapCsr a (extCsrWrite h.cfg d (h.capCsr a) (.addrOnly (uimm.setWidth x.bits)))
    let ordWritten := h.setOrdCsr a (ordCsrWrite d (h.ordCsr a) (uimm.setWidth x.bits))
    (d.cls = .ord → exec (.csrrwi rd uimm a) ⟨x, h⟩ =
      .next ⟨x, (ordWritten.setX rd (h.ordCsr a)).setPc (h.pc + 4)⟩) ∧
    (capAccess h.mode d.cls = true → exec (.csrrwi rd uimm a) ⟨x, h⟩ =
      .next ⟨x, (written.setC rd (h.capCsr a)).setPc (h.pc + 4)⟩) ∧
    (d.cls = .ext → h.mode = .int → exec (.csrrwi rd uimm a) ⟨x, h⟩ =
      .next ⟨x, (written.setX rd (h.capCsr a).addr).setPc (h.pc + 4)⟩)

/-- R169, R167, R152, R185: when a CSR instruction stops, in order: not implemented, too low a privilege, or a write to a
read-only CSR is illegal; a capability access with CHERI access disabled is illegal; a CSR that needs ASR-permission
without it raises a CHERI exception. A CSR is implemented when the parameters list it, `ddc` at 0x416 whatever they list
(log 45), and privileges are numbered as the family does (log 16). -/
def Obligations.CsrChecks : Prop :=
  ∀ (x : Xlen) (h : Hart x.bits) (rd rs1 : Reg) (a : CsrAddr) (p : Instr × Bool), p ∈ csrInstrs rd rs1 a →
    let illegal := exec p.1 ⟨x, h⟩ = raised x h (.illegal h.fetchedWord)
    let level : BitVec 2 := match h.priv with | .user => 0 | .supervisor => 1 | .machine => 3
    let baseFails := ¬a.extractLsb' 8 2 ≤ level ∨ (p.2 = true ∧ a.extractLsb' 10 2 = 3#2)
    csrAt h.cfg a = (if a = 0x416 then some ⟨0x416, .new, false, .given⟩ else h.cfg.csrs.find? fun d => d.addr == a) ∧
    Priv.level h.priv = level ∧
    (csrAt h.cfg a = none → illegal) ∧
    ∀ d, csrAt h.cfg a = some d →
      (baseFails → illegal) ∧
      (¬baseFails → capAccess h.mode d.cls = true → h.cheriEnabled = false → illegal) ∧
      (¬baseFails → ¬(capAccess h.mode d.cls = true ∧ h.cheriEnabled = false) → d.needsAsr = true →
        h.pcc.permAsr h.cfg = false → exec p.1 ⟨x, h⟩ = raised x h (.cheri .permission .csr))

/-- R20, R21: `ddc` at 0x416 is always implemented, is a new capability CSR written as given, and is accessible for
reading and writing at every privilege and without ASR-permission whenever CHERI access is enabled. -/
def Obligations.DdcAccess : Prop :=
  ∀ (x : Xlen) (h : Hart x.bits) (writes : Bool), h.cheriEnabled = true →
    ∃ d, h.csrAllowed 0x416 writes d ∧ d.cls = .new ∧ d.write = .given

/-- R155: what a capability CSR stores, by default: an address write has the semantics of R156, a full write stores the
capability. -/
def Obligations.ExtCsrWriteDefault : Prop :=
  ∀ (x : Xlen) (cfg : Config x.bits) (d : CsrDesc) (old c : Cap x.bits) (v : BitVec x.bits), d.write = .given →
    extCsrWrite cfg d old (.addrOnly v) =
      (if old.isSealed cfg = true ∨ old.representable cfg v = false then ⟨false, old.metadata, v⟩
        else ⟨old.tag, old.metadata, v⟩) ∧
    extCsrWrite cfg d old (.full c) = c

/-- R150: a CSR instruction makes a capability access on a new capability CSR, and on an extended one in Capability Mode;
on no other. -/
def Obligations.CapabilityAccess : Prop :=
  ∀ (m : Mode) (c : CsrClass), capAccess m c = true ↔ c = .new ∨ (c = .ext ∧ m = .cap)

/-! ## Mode instructions -/

/-- R120: SCMODE copies the source with M set to bit 0 of `x[rs2]` when it has X-permission, else as the policy says, and
clears the tag when the source is sealed. -/
def Obligations.ScmodeCompletes : Prop :=
  ∀ (x : Xlen) (h : Hart x.bits) (cd cs1 rs2 : Reg), h.cheriEnabled = true →
    let c := h.creg cs1
    let set := c.withM h.cfg ((h.x rs2).getLsbD 0)
    let r := if c.permX h.cfg = true then set
      else match h.cfg.scmodeNoX with
        | .unchanged => c
        | .clearTag => { c with tag := false }
        | .writeAnyway => set
    exec (.scmode cd cs1 rs2) ⟨x, h⟩ =
      .next ⟨x, (h.setC cd (if c.isSealed h.cfg = true then { r with tag := false } else r)).setPc (h.pc + 4)⟩

/-- R121: GCMODE reads the M-bit of a capability with X-permission; without it the result is as the policy says. -/
def Obligations.GcmodeCompletes : Prop :=
  ∀ (x : Xlen) (h : Hart x.bits) (rd cs1 : Reg), h.cheriEnabled = true →
    let c := h.creg cs1
    let r : BitVec x.bits :=
      if (c.permX h.cfg = true ∨ h.cfg.gcmodeNoX = .rawBit) ∧ c.m h.cfg = true then 1 else 0
    exec (.gcmode rd cs1) ⟨x, h⟩ = .next ⟨x, (h.setX rd r).setPc (h.pc + 4)⟩

/-- R122: MODESW.CAP sets the M-bit of `pcc` to CAP_MODE_VALUE in Integer Mode, after which the mode is Capability Mode;
with CHERI access disabled it is illegal, the word at `pc` its info (R183; log 23), and in Capability Mode it is refused,
the model's choice (R66; log 22). -/
def Obligations.ModeswCapCompletes : Prop :=
  ∀ (x : Xlen) (h : Hart x.bits),
    let h' := (h.setPcc (h.pcc.withM h.cfg h.cfg.capModeValue)).setPc (h.pc + 4)
    (h.cheriEnabled = false → exec .modeswCap ⟨x, h⟩ = raised x h (.illegal h.fetchedWord)) ∧
    (h.cheriEnabled = true → h.mode = .int → exec .modeswCap ⟨x, h⟩ = .next ⟨x, h'⟩ ∧ h'.mode = .cap) ∧
    (h.cheriEnabled = true → h.mode = .cap → exec .modeswCap ⟨x, h⟩ = .refused (.wrongMode "MODESW.CAP"))

/-- R123: MODESW.INT sets the M-bit of `pcc` to the other value in Capability Mode, after which the mode is Integer Mode;
in Integer Mode it is illegal with CHERI access disabled, the word at `pc` its info (R183; log 23), else refused, the model's
choice (R66; log 22). -/
def Obligations.ModeswIntCompletes : Prop :=
  ∀ (x : Xlen) (h : Hart x.bits),
    let h' := (h.setPcc (h.pcc.withM h.cfg (!h.cfg.capModeValue))).setPc (h.pc + 4)
    (h.mode = .cap → exec .modeswInt ⟨x, h⟩ = .next ⟨x, h'⟩ ∧ h'.mode = .int) ∧
    (h.mode = .int → h.cheriEnabled = false →
      exec .modeswInt ⟨x, h⟩ = raised x h (.illegal h.fetchedWord)) ∧
    (h.mode = .int → h.cheriEnabled = true → exec .modeswInt ⟨x, h⟩ = .refused (.wrongMode "MODESW.INT"))

/-- R125: GCTAG writes the tag of the *c* register as an integer. -/
def Obligations.GctagCompletes : Prop :=
  ∀ (x : Xlen) (h : Hart x.bits) (rd cs1 : Reg), h.cheriEnabled = true →
    exec (.gctag rd cs1) ⟨x, h⟩ =
      .next ⟨x, (h.setX rd (if (h.creg cs1).tag = true then 1 else 0)).setPc (h.pc + 4)⟩

/-- R124, R167: with CHERI access disabled, the CHERI instructions and every CSR instruction that moves a capability through
a *c* register raise illegal-instruction, its info the instruction word (R183), which is the word at `pc` (log 23). -/
def Obligations.DisabledIsIllegal : Prop :=
  ∀ (x : Xlen) (h : Hart x.bits) (r r1 r2 : Reg) (imm : BitVec 12) (a : CsrAddr), h.cheriEnabled = false →
    (∀ i ∈ [.scmode r r1 r2, .gcmode r r1, .modeswCap, .modeswInt, .gctag r r1, .lc r r1 imm, .sc r r1 imm],
      exec i ⟨x, h⟩ = raised x h (.illegal h.fetchedWord)) ∧
    ∀ p ∈ csrInstrs r r1 a, ∀ d, csrAt h.cfg a = some d → capAccess h.mode d.cls = true →
      exec p.1 ⟨x, h⟩ = raised x h (.illegal h.fetchedWord)

/-- R126: `auipc c1, 0; gctag x1, c1` writes 1 to `x1` in Capability Mode and 0 in Integer Mode, with CHERI access
enabled, the default `SetAddr`, and in Capability Mode a tagged, unsealed `pcc`. -/
def Obligations.ObservingSequence : Prop :=
  ∀ (x : Xlen) (h : Hart x.bits), h.cheriEnabled = true →
    (h.mode = .cap → h.cfg.base.setAddr = .given ∧ h.pcc.tag = true ∧ h.pcc.isSealed h.cfg = false) →
    ∃ h1 h2, exec (.auipc 1 0) ⟨x, h⟩ = .next ⟨x, h1⟩ ∧ exec (.gctag 1 1) ⟨x, h1⟩ = .next ⟨x, h2⟩ ∧
      h2.x 1 = if h.mode = .cap then 1 else 0

/-! ## Exceptions -/

/-- R180, R181, R192: under the default `TrapModel` an exception ends the run, with its name, its `info` and the `pc` of
the raising instruction. -/
def Obligations.TerminalException : Prop :=
  ∀ (x : Xlen) (h : Hart x.bits), h.cfg.trap = .terminal →
    (∀ v k, raised x h (.cheri v k) = .fault (.cheri v k h.pc.toNat)) ∧
    (∀ i, raised x h (.illegal i) = .fault (.illegalInstruction i.toNat h.pc.toNat)) ∧
    (∀ t, raised x h (.insnMisaligned t) = .fault (.instructionAddressMisaligned t h.pc.toNat)) ∧
    (∀ a, raised x h (.loadMisaligned a) = .fault (.loadAddressMisaligned a h.pc.toNat)) ∧
    ∀ a, raised x h (.storeMisaligned a) = .fault (.storeAddressMisaligned a h.pc.toNat)

/-- R187 under the handler `TrapModel` (logs 24 to 26): the whole old `pcc` is saved in the exception-pc CSR, the whole
vector capability but for the low two bits of its address is installed in `pcc`, the exception's cause and the value that
R192 gives it are recorded (target, instruction word, `ea`; of a CHERI exception `ea` for a data access, else 0, and in the
CHERI trap-value register what R181 leaves open), in the status register MPP becomes the old privilege, MPIE the old MIE, MIE
0 and the other bits stay, the privilege is machine, and registers, memory, `ddc` and every CSR that the entry does not name are as they were. -/
def Obligations.HandlerEntry : Prop :=
  ∀ (x : Xlen) (h : Hart x.bits) (t : TrapCsrs) (e : Exn), h.cfg.trap = .handler t → csrTablesWf h = true →
    [t.cause, t.tval, t.tval2, t.status].Nodup → t.epc ≠ ddcAddr →
    ∃ h', raised x h e = .next ⟨x, h'⟩ ∧
      h'.capCsr t.epc = h.pcc ∧
      h'.pcc = { h.capCsr t.vector with addr := (h.capCsr t.vector).addr &&& ~~~3 } ∧
      h'.pcc.m h.cfg = (h.capCsr t.vector).m h.cfg ∧
      h'.ordCsr t.cause = BitVec.ofNat x.bits (match e with
        | .cheri _ _ => h.cfg.causes.cheri
        | .illegal _ => h.cfg.causes.illegal
        | .insnMisaligned _ => h.cfg.causes.iam
        | .loadMisaligned _ => h.cfg.causes.lam
        | .storeMisaligned _ => h.cfg.causes.sam) ∧
      h'.ordCsr t.tval = BitVec.ofNat x.bits (match e with
        | .cheri _ (.data ea) => ea
        | .cheri _ .jump | .cheri _ .fetch | .cheri _ .csr => 0
        | .illegal insn => insn.toNat
        | .insnMisaligned target => target
        | .loadMisaligned ea | .storeMisaligned ea => ea) ∧
      h'.ordCsr t.tval2 = (match e with
        | .cheri v k => Config.freeTval v k
        | .illegal _ | .insnMisaligned _ | .loadMisaligned _ | .storeMisaligned _ => 0) ∧
      (h'.ordCsr t.status).getLsbD 3 = false ∧
      (h'.ordCsr t.status).getLsbD 7 = (h.ordCsr t.status).getLsbD 3 ∧
      (h'.ordCsr t.status).extractLsb' 11 2 = (match h.priv with | .user => 0#2 | .supervisor => 1#2 | .machine => 3#2) ∧
      (∀ k, k ∉ [3, 7, 11, 12] → (h'.ordCsr t.status).getLsbD k = (h.ordCsr t.status).getLsbD k) ∧
      (∀ a, a ≠ t.epc → h'.capCsr a = h.capCsr a) ∧
      (∀ a, a ∉ [t.cause, t.tval, t.tval2, t.status] → h'.ordCsr a = h.ordCsr a) ∧
      h'.priv = .machine ∧ h'.ddc = h.ddc ∧ keepsRegs h h' ∧ keepsMemory h h' ∧ h'.cfg = h.cfg

/-! ## The whole machine -/

/-- R204, R5 (`INFINITE_CAP`): with `pcc` and `ddc` infinite, every access and every fetch or jump target that ends at or
below 2^XLEN passes its check; one that would run past it does not, and fails the bounds test of `AuthCheck` (R80); for `AuthCheck` of another base extension both are the model's reading (log 8). `INFINITE_CAP`, of whatever address and
M-bit, is unsealed, with all permissions and bounds from 0 to 2^XLEN (log 6), and under the default `AuthCheck` every
capability that is so passes alike. -/
def Obligations.LegacyConfiguration : Prop :=
  ∀ (x : Xlen) (h : Hart x.bits),
    (∀ a, infinite h.cfg ⟨true, h.cfg.infinite, a⟩) ∧ (∀ c, infinite h.cfg c → grantsAll h.cfg c) ∧
    (∀ c k (a : BitVec x.bits) n, h.cfg.base.auth = .given → grantsAll h.cfg c →
      (a.toNat + n ≤ 2 ^ x.bits → authCheck h.cfg c k a n = none) ∧
      (2 ^ x.bits < a.toNat + n → authCheck h.cfg c k a n = some .bounds)) ∧
    (infinite h.cfg h.pcc → infinite h.cfg h.ddc → h.mode = .int → ∀ (a : BitVec x.bits) (n : Nat),
      (a.toNat + n ≤ 2 ^ x.bits → ∀ k, authCheck h.cfg h.pcc k a n = none ∧ authCheck h.cfg h.ddc k a n = none) ∧
      (a.toNat + n ≤ 2 ^ x.bits → ∀ rs1 k, h.authorised k rs1 a n) ∧
      (2 ^ x.bits < a.toNat + n → ∀ rs1 k,
        ¬h.authorised k rs1 a n ∧ authCheck h.cfg h.ddc k a n = some .bounds))

/-- What `State.reset` holds. R31 and R200 give no reset value: every one is the model's (logs 1, 2, 28, 32, 33). -/
def Obligations.ResetState : Prop :=
  State.reset.xlen = .rv64 ∧ State.reset.hart.pc.toNat = 0x1000 ∧ State.reset.hart.mode = .int ∧
  State.reset.hart.priv = .machine ∧ infinite State.reset.hart.cfg State.reset.hart.pcc ∧
  infinite State.reset.hart.cfg State.reset.hart.ddc ∧ grantsAll State.reset.hart.cfg State.reset.hart.pcc ∧
  grantsAll State.reset.hart.cfg State.reset.hart.ddc ∧ (∀ i, State.reset.hart.creg i = Cap.null) ∧
  (∀ a, State.reset.hart.byteAt a = 0) ∧ ∀ a, State.reset.hart.tagAt a = false

/-- The launch state meets the invariant that every step keeps. -/
def Obligations.ResetMeetsInvariant : Prop := State.reset.Inv = true

/-- Every step keeps the invariant: memory, tags and CSR tables in canonical form, and `pcc.addr` a multiple of
MIN_INSN_BYTES (R13). -/
def Obligations.InvariantKept : Prop :=
  ∀ s s' : State, s.Inv = true → step s = .next s' → s'.Inv = true

/-- R18: nothing but MODESW.CAP in Integer Mode, MODESW.INT and JALR in Capability Mode, and entering a trap handler changes
the tag or the metadata of `pcc`, its M-bit among them: no instruction of the opcode table, and no step, one whose word is
`CapModeStep`'s included (log 49). -/
def Obligations.PccMetadataWriters : Prop :=
  ∀ (x : Xlen) (h : Hart x.bits),
    let writes := fun (i : Instr) (h' : Hart x.bits) =>
      (i = .modeswCap ∧ h.mode = .int ∧ h'.pcc.tag = h.pcc.tag ∧
        h'.pcc.metadata = (h.pcc.withM h.cfg h.cfg.capModeValue).metadata) ∨
      (i = .modeswInt ∧ h.mode = .cap ∧ h'.pcc.tag = h.pcc.tag ∧
        h'.pcc.metadata = (h.pcc.withM h.cfg (!h.cfg.capModeValue)).metadata) ∨
      ((∃ rd rs1 imm, i = .jalr rd rs1 imm ∧ h'.pcc.m h.cfg = (h.creg rs1).m h.cfg) ∧ h.mode = .cap)
    (∀ (i : Instr) (t : State), exec i ⟨x, h⟩ = .next t →
      ∃ h' : Hart x.bits, t = ⟨x, h'⟩ ∧ (h.Entered h' ∨ keepsPcc h h' ∨ writes i h')) ∧
    ∀ t : State, step ⟨x, h⟩ = .next t →
      ∃ h' : Hart x.bits, t = ⟨x, h'⟩ ∧
        (h.Entered h' ∨ keepsPcc h h' ∨ ∃ i, State.fetched ⟨x, h⟩ = .ok i ∧ writes i h')

/-- R51, R187, R154: `ddc` changes only by a CSR instruction that names 0x416 and writes: by no other instruction of the
opcode table, by no step that executes none, and by no entry to a trap handler, whatever CSRs that names. -/
def Obligations.DdcWriters : Prop :=
  ∀ (x : Xlen) (h : Hart x.bits),
    (∀ (i : Instr) (t : State), exec i ⟨x, h⟩ = .next t →
      ∃ h' : Hart x.bits, t = ⟨x, h'⟩ ∧ (h'.ddc = h.ddc ∨ ∃ rd rs1, (i, true) ∈ csrInstrs rd rs1 0x416)) ∧
    (∀ t : State, step ⟨x, h⟩ = .next t →
      ∃ h' : Hart x.bits, t = ⟨x, h'⟩ ∧
        (h'.ddc = h.ddc ∨
          ∃ i rd rs1, State.fetched ⟨x, h⟩ = .ok i ∧ (i, true) ∈ csrInstrs rd rs1 0x416)) ∧
    ∀ h', h.Entered h' → h'.ddc = h.ddc

/-- R4, R52, R190: no step changes XLEN, a parameter or a byte of the program text, and none but a handler entry the
privilege. -/
def Obligations.SettingFixed : Prop :=
  ∀ s s' : State, step s = .next s' →
    ∃ h' : Hart s.xlen.bits, s' = ⟨s.xlen, h'⟩ ∧ h'.cfg = s.hart.cfg ∧
      (∀ a, s.hart.isText a 1 → h'.byteAt a = s.hart.byteAt a) ∧ (s.hart.Entered h' ∨ h'.priv = s.hart.priv)

/-- R40, R51: in Integer Mode a step changes no byte but within a store that `ddc` authorises, and no tag but of a granule
that such a store meets; the `ddc` is tagged and the store ends at or below 2^XLEN under every `AuthCheck` (log 8), and under
the default one these lie within the bounds of a `ddc` that is unsealed and grants writing. -/
def Obligations.IntegerModeWritesConfined : Prop :=
  ∀ (x : Xlen) (h : Hart x.bits) (t : State), h.mode = .int → step ⟨x, h⟩ = .next t →
    ∃ h' : Hart x.bits, t = ⟨x, h'⟩ ∧
      ∀ a, h'.byteAt a ≠ h.byteAt a ∨ h'.tagAt a ≠ h.tagAt a →
        ∃ (k : AccessKind) (ea : BitVec x.bits) (n j : Nat), (k = .store ∨ k = .storeCap) ∧
          authCheck h.cfg h.ddc k ea n = none ∧ h.ddc.tag = true ∧ ea.toNat + n ≤ 2 ^ x.bits ∧
          j < n ∧ granule (ea + BitVec.ofNat x.bits j) = granule a ∧
          (h'.byteAt a ≠ h.byteAt a → a = ea + BitVec.ofNat x.bits j) ∧
          (h.cfg.base.auth = .given →
            h.ddc.isSealed h.cfg = false ∧ (h.ddc.rights h.cfg).perms.w = true ∧
            h.ddc.base h.cfg ≤ (ea + BitVec.ofNat x.bits j).toNat ∧
            (ea + BitVec.ofNat x.bits j).toNat < h.ddc.top h.cfg)

/-- R40, R51, R92: in Integer Mode neither an instruction of the opcode table nor a step, one whose word is `CapModeStep`'s
included (log 49), learns anything of memory that `ddc` does not authorise it to load, its own word apart: on two states that
differ only in memory, have the same bytes at `pc`, and agree on every byte and tag of every load that `ddc` authorises, it
has the same effect but for memory. -/
def Obligations.IntegerModeReadsConfined : Prop :=
  ∀ (x : Xlen) (h g : Hart x.bits), h.mode = .int → g = { h with mem := g.mem, tags := g.tags } →
    g.bytesFrom h.pc 4 = h.bytesFrom h.pc 4 →
    (∀ (k : AccessKind) (ea : BitVec x.bits) (n j : Nat), k = .load ∨ k = .loadCap → authCheck h.cfg h.ddc k ea n = none →
      j < n → g.byteAt (ea + BitVec.ofNat x.bits j) = h.byteAt (ea + BitVec.ofNat x.bits j) ∧
        g.tagAt (ea + BitVec.ofNat x.bits j) = h.tagAt (ea + BitVec.ofNat x.bits j)) →
    let sameEffect := fun (run : State → Host.Outcome State Fault Refusal) => ∀ h' : Hart x.bits,
      run ⟨x, h⟩ = .next ⟨x, h'⟩ → ∃ g', run ⟨x, g⟩ = .next ⟨x, g'⟩ ∧ g' = { h' with mem := g'.mem, tags := g'.tags }
    (∀ i, sameEffect (exec i)) ∧ sameEffect step

/-! ## Frames -/

/-- What the instructions that write one register and nothing else leave unchanged. -/
def Obligations.FrameRegisterWriters : Prop :=
  ∀ (x : Xlen) (h : Hart x.bits) (rd rs1 rs2 : Reg) (imm : BitVec 12) (upper : BitVec 20) (i : Instr) (t : State),
    i ∈ [.lb rd rs1 imm, .lh rd rs1 imm, .lw rd rs1 imm, .ld rd rs1 imm, .lbu rd rs1 imm, .lhu rd rs1 imm,
      .lwu rd rs1 imm, .lc rd rs1 imm, .auipc rd upper, .scmode rd rs1 rs2, .gcmode rd rs1, .gctag rd rs1] →
    exec i ⟨x, h⟩ = .next t →
    ∃ h' : Hart x.bits, t = ⟨x, h'⟩ ∧
      (h.Entered h' ∨ keepsRegsBut rd h h' ∧ keepsCsrs h h' ∧ keepsMemory h h' ∧ keepsPcc h h' ∧
        h'.pc = h.pc + 4 ∧ keepsSetting h h')

/-- What the stores leave unchanged: everything but the bytes at `x[rs1] + sext(imm)` and the tags of their granules. -/
def Obligations.FrameStores : Prop :=
  ∀ (x : Xlen) (h : Hart x.bits) (rs2 rs1 : Reg) (imm : BitVec 12) (p : Instr × Nat) (t : State),
    p ∈ [(.sb rs2 rs1 imm, 1), (.sh rs2 rs1 imm, 2), (.sw rs2 rs1 imm, 4), (.sd rs2 rs1 imm, 8),
      (.sc rs2 rs1 imm, clenBytes x.bits)] →
    exec p.1 ⟨x, h⟩ = .next t →
    ∃ h' : Hart x.bits, t = ⟨x, h'⟩ ∧
      (h.Entered h' ∨ keepsRegs h h' ∧ keepsCsrs h h' ∧
        keepsMemoryBut (h.x rs1 + imm.signExtend x.bits) p.2 h h' ∧ keepsPcc h h' ∧ h'.pc = h.pc + 4 ∧
        keepsSetting h h')

/-- What branches and mode switches leave unchanged: every register, CSR, byte and tag; branches also the tag and metadata
of `pcc`, mode switches its tag and every metadata bit but M. -/
def Obligations.FrameBranchesAndSwitches : Prop :=
  ∀ (x : Xlen) (h : Hart x.bits) (rs1 rs2 : Reg) (off : BitVec 13) (i : Instr) (t : State),
    i ∈ [.beq rs1 rs2 off, .bne rs1 rs2 off, .blt rs1 rs2 off, .bge rs1 rs2 off, .bltu rs1 rs2 off,
      .bgeu rs1 rs2 off, .modeswCap, .modeswInt] →
    exec i ⟨x, h⟩ = .next t →
    ∃ h' : Hart x.bits, t = ⟨x, h'⟩ ∧
      (h.Entered h' ∨ keepsRegs h h' ∧ keepsCsrs h h' ∧ keepsMemory h h' ∧ keepsSetting h h' ∧
        h'.pcc.tag = h.pcc.tag ∧
        (∀ k, k ≠ h.cfg.mPos.val → h'.pcc.metadata.getLsbD k = h.pcc.metadata.getLsbD k) ∧
        (i ∉ [.modeswCap, .modeswInt] → keepsPcc h h'))

/-- What JAL and JALR leave unchanged: every register but the link, every CSR, byte and tag; JAL and an Integer Mode JALR
also the tag and metadata of `pcc`. -/
def Obligations.FrameJumps : Prop :=
  ∀ (x : Xlen) (h : Hart x.bits) (rd rs1 : Reg) (imm : BitVec 12) (off : BitVec 21) (i : Instr) (t : State),
    i ∈ [.jal rd off, .jalr rd rs1 imm] → exec i ⟨x, h⟩ = .next t →
    ∃ h' : Hart x.bits, t = ⟨x, h'⟩ ∧
      (h.Entered h' ∨ keepsRegsBut rd h h' ∧ keepsCsrs h h' ∧ keepsMemory h h' ∧ keepsSetting h h' ∧
        (i = .jal rd off ∨ h.mode = .int → keepsPcc h h'))

/-- What the CSR instructions leave unchanged: every register but `rd`, every CSR but the one named (and that one too when
the instruction does not write, R165), memory, and the tag and metadata of `pcc`. -/
def Obligations.FrameCsrInstructions : Prop :=
  ∀ (x : Xlen) (h : Hart x.bits) (rd rs1 : Reg) (a : CsrAddr) (p : Instr × Bool) (t : State),
    p ∈ csrInstrs rd rs1 a → exec p.1 ⟨x, h⟩ = .next t →
    ∃ h' : Hart x.bits, t = ⟨x, h'⟩ ∧
      (h.Entered h' ∨ keepsRegsBut rd h h' ∧
        (∀ b, b ≠ a → h'.capCsr b = h.capCsr b ∧ h'.ordCsr b = h.ordCsr b) ∧ (a ≠ 0x416 → h'.ddc = h.ddc) ∧
        (p.2 = false → keepsCsrs h h') ∧ keepsMemory h h' ∧ keepsPcc h h' ∧ h'.pc = h.pc + 4 ∧ keepsSetting h h')

end
end

