-- ==== Sys2Proof/Laws/Table.lean ====
section
/-!
SUPPORT. Tables: reading after setting, and the canonical form.
-/

namespace Sys2Proof

variable {α : Type} [DecidableEq α] {d : α} {t : Table α} {k k' : Nat} {v : α}

/-- Setting one key leaves every other key's value. -/
theorem Table.get_set_ne (hk : k' ≠ k) : Table.get d (Table.set d t k v) k' = Table.get d t k' := by
  induction t with
  | nil =>
    simp only [Table.set]
    split
    · rfl
    · simp [Table.get, Ne.symm hk]
  | cons e t ih =>
    obtain ⟨a, u⟩ := e
    simp only [Table.set]
    split
    · split
      · rfl
      · simp [Table.get, Ne.symm hk]
    · split
      · rename_i h
        subst h
        split <;> simp [Table.get, Ne.symm hk]
      · simp only [Table.get, ih]

/-- In a canonical table every later key is above the head's. -/
theorem Table.lt_of_wf {a : Nat} {u : α} (h : Table.wf d ((a, u) :: t)) : ∀ e ∈ t, a < e.1 := by
  simp only [Table.wf, Bool.and_eq_true, List.all_eq_true, decide_eq_true_eq] at h
  exact h.1.2

/-- The tail of a canonical table is canonical. -/
theorem Table.wf_tail {e : Nat × α} (h : Table.wf d (e :: t)) : Table.wf d t := by
  simp only [Table.wf, Bool.and_eq_true] at h
  exact h.2

omit [DecidableEq α] in
/-- A key below every listed one reads as the default. -/
theorem Table.get_of_lt (h : ∀ e ∈ t, k < e.1) : Table.get d t k = d := by
  induction t with
  | nil => rfl
  | cons e t ih =>
    have he : e.1 ≠ k := Nat.ne_of_gt (h e (List.mem_cons_self ..))
    simp only [Table.get, he, if_false]
    exact ih fun e' he' => h e' (List.mem_cons_of_mem _ he')

/-- In a canonical table, a set key reads as the value set. -/
theorem Table.get_set_self (h : Table.wf d t) : Table.get d (Table.set d t k v) k = v := by
  induction t with
  | nil =>
    simp only [Table.set]
    split
    · simp [Table.get, *]
    · simp [Table.get]
  | cons e t ih =>
    obtain ⟨a, u⟩ := e
    have hlt := Table.lt_of_wf h
    simp only [Table.set]
    split
    · rename_i hk
      split
      · rename_i hv
        rw [hv]
        apply Table.get_of_lt
        intro e he
        rcases List.mem_cons.1 he with rfl | he
        · exact hk
        · exact Nat.lt_trans hk (hlt e he)
      · simp [Table.get]
    · split
      · rename_i hk
        subst hk
        split
        · rename_i hv
          rw [hv]
          exact Table.get_of_lt hlt
        · simp [Table.get]
      · rename_i hne
        simp only [Table.get, Ne.symm hne, if_false]
        exact ih (Table.wf_tail h)

/-- A key of a table after a set is the key set or was there before. -/
theorem Table.mem_set {e : Nat × α} (h : e ∈ Table.set d t k v) : e.1 = k ∨ e ∈ t := by
  induction t with
  | nil =>
    simp only [Table.set] at h
    split at h
    · simp at h
    · simp_all
  | cons f t ih =>
    obtain ⟨a, u⟩ := f
    simp only [Table.set] at h
    split at h
    · split at h
      · exact Or.inr h
      · rcases List.mem_cons.1 h with rfl | h
        · exact Or.inl rfl
        · exact Or.inr h
    · split at h
      · split at h
        · exact Or.inr (List.mem_cons_of_mem _ h)
        · rcases List.mem_cons.1 h with rfl | h
          · exact Or.inl rfl
          · exact Or.inr (List.mem_cons_of_mem _ h)
      · rcases List.mem_cons.1 h with rfl | h
        · exact Or.inr (List.mem_cons_self ..)
        · exact (ih h).imp_right (List.mem_cons_of_mem _)

/-- Setting a key keeps the canonical form. -/
theorem Table.wf_set (h : Table.wf d t) : Table.wf d (Table.set d t k v) := by
  induction t with
  | nil =>
    simp only [Table.set]
    split
    · rfl
    · simp_all [Table.wf]
  | cons e t ih =>
    obtain ⟨a, u⟩ := e
    have hlt := Table.lt_of_wf h
    have htl := Table.wf_tail h
    simp only [Table.set]
    split
    · rename_i hk
      split
      · exact h
      · rename_i hv
        have hall : ∀ e ∈ (a, u) :: t, k < e.1 := by
          intro e he
          rcases List.mem_cons.1 he with rfl | he
          · exact hk
          · exact Nat.lt_trans hk (hlt e he)
        rw [Table.wf, Bool.and_eq_true, Bool.and_eq_true, List.all_eq_true]
        exact ⟨⟨decide_eq_true hv, fun e he => decide_eq_true (hall e he)⟩, h⟩
    · split
      · rename_i hk
        subst hk
        split
        · exact htl
        · rename_i hv
          rw [Table.wf, Bool.and_eq_true, Bool.and_eq_true, List.all_eq_true]
          exact ⟨⟨decide_eq_true hv, fun e he => decide_eq_true (hlt e he)⟩, htl⟩
      · rename_i hnlt hne
        have hd : decide (u ≠ d) = true := by
          simp only [Table.wf, Bool.and_eq_true] at h
          exact h.1.1
        rw [Table.wf, Bool.and_eq_true, Bool.and_eq_true, List.all_eq_true]
        refine ⟨⟨hd, fun e he => decide_eq_true ?_⟩, ih htl⟩
        rcases Table.mem_set he with hek | het
        · omega
        · exact hlt e het

end Sys2Proof
end

