-- ==== Sys2Proof/Laws/State.lean ====
section
/-!
SUPPORT. What each update of the hart leaves alone, one lemma per field and update; what registers, memory and CSRs
read as after an update of something else; and what a register reads as after a write.
-/

namespace Sys2Proof.Machine

variable {w : Nat} (h : Hart w)

/-! ## setC -/

@[simp] theorem Hart.setC_cfg (i : Reg) (v : Cap w) : (h.setC i v).cfg = h.cfg := by
  unfold Hart.setC; split <;> rfl

@[simp] theorem Hart.setC_pcc (i : Reg) (v : Cap w) : (h.setC i v).pcc = h.pcc := by
  unfold Hart.setC; split <;> rfl

@[simp] theorem Hart.setC_ddc (i : Reg) (v : Cap w) : (h.setC i v).ddc = h.ddc := by
  unfold Hart.setC; split <;> rfl

@[simp] theorem Hart.setC_capCsrs (i : Reg) (v : Cap w) : (h.setC i v).capCsrs = h.capCsrs := by
  unfold Hart.setC; split <;> rfl

@[simp] theorem Hart.setC_ordCsrs (i : Reg) (v : Cap w) : (h.setC i v).ordCsrs = h.ordCsrs := by
  unfold Hart.setC; split <;> rfl

@[simp] theorem Hart.setC_priv (i : Reg) (v : Cap w) : (h.setC i v).priv = h.priv := by
  unfold Hart.setC; split <;> rfl

@[simp] theorem Hart.setC_mem (i : Reg) (v : Cap w) : (h.setC i v).mem = h.mem := by
  unfold Hart.setC; split <;> rfl

@[simp] theorem Hart.setC_tags (i : Reg) (v : Cap w) : (h.setC i v).tags = h.tags := by
  unfold Hart.setC; split <;> rfl

/-! ## setX -/

@[simp] theorem Hart.setX_cfg (i : Reg) (v : BitVec w) : (h.setX i v).cfg = h.cfg := Hart.setC_cfg ..

@[simp] theorem Hart.setX_pcc (i : Reg) (v : BitVec w) : (h.setX i v).pcc = h.pcc := Hart.setC_pcc ..

@[simp] theorem Hart.setX_ddc (i : Reg) (v : BitVec w) : (h.setX i v).ddc = h.ddc := Hart.setC_ddc ..

@[simp] theorem Hart.setX_capCsrs (i : Reg) (v : BitVec w) : (h.setX i v).capCsrs = h.capCsrs := Hart.setC_capCsrs ..

@[simp] theorem Hart.setX_ordCsrs (i : Reg) (v : BitVec w) : (h.setX i v).ordCsrs = h.ordCsrs := Hart.setC_ordCsrs ..

@[simp] theorem Hart.setX_priv (i : Reg) (v : BitVec w) : (h.setX i v).priv = h.priv := Hart.setC_priv ..

@[simp] theorem Hart.setX_mem (i : Reg) (v : BitVec w) : (h.setX i v).mem = h.mem := Hart.setC_mem ..

@[simp] theorem Hart.setX_tags (i : Reg) (v : BitVec w) : (h.setX i v).tags = h.tags := Hart.setC_tags ..

/-! ## setPc -/

@[simp] theorem Hart.setPc_cfg (t : BitVec w) : (h.setPc t).cfg = h.cfg := rfl

@[simp] theorem Hart.setPc_c (t : BitVec w) : (h.setPc t).c = h.c := rfl

@[simp] theorem Hart.setPc_ddc (t : BitVec w) : (h.setPc t).ddc = h.ddc := rfl

@[simp] theorem Hart.setPc_capCsrs (t : BitVec w) : (h.setPc t).capCsrs = h.capCsrs := rfl

@[simp] theorem Hart.setPc_ordCsrs (t : BitVec w) : (h.setPc t).ordCsrs = h.ordCsrs := rfl

@[simp] theorem Hart.setPc_priv (t : BitVec w) : (h.setPc t).priv = h.priv := rfl

@[simp] theorem Hart.setPc_mem (t : BitVec w) : (h.setPc t).mem = h.mem := rfl

@[simp] theorem Hart.setPc_tags (t : BitVec w) : (h.setPc t).tags = h.tags := rfl

/-! ## setPcc -/

@[simp] theorem Hart.setPcc_cfg (c : Cap w) : (h.setPcc c).cfg = h.cfg := rfl

@[simp] theorem Hart.setPcc_c (c : Cap w) : (h.setPcc c).c = h.c := rfl

@[simp] theorem Hart.setPcc_ddc (c : Cap w) : (h.setPcc c).ddc = h.ddc := rfl

@[simp] theorem Hart.setPcc_capCsrs (c : Cap w) : (h.setPcc c).capCsrs = h.capCsrs := rfl

@[simp] theorem Hart.setPcc_ordCsrs (c : Cap w) : (h.setPcc c).ordCsrs = h.ordCsrs := rfl

@[simp] theorem Hart.setPcc_priv (c : Cap w) : (h.setPcc c).priv = h.priv := rfl

@[simp] theorem Hart.setPcc_mem (c : Cap w) : (h.setPcc c).mem = h.mem := rfl

@[simp] theorem Hart.setPcc_tags (c : Cap w) : (h.setPcc c).tags = h.tags := rfl

/-! ## advance -/

@[simp] theorem Hart.advance_cfg : (h.advance).cfg = h.cfg := rfl

@[simp] theorem Hart.advance_c : (h.advance).c = h.c := rfl

@[simp] theorem Hart.advance_ddc : (h.advance).ddc = h.ddc := rfl

@[simp] theorem Hart.advance_capCsrs : (h.advance).capCsrs = h.capCsrs := rfl

@[simp] theorem Hart.advance_ordCsrs : (h.advance).ordCsrs = h.ordCsrs := rfl

@[simp] theorem Hart.advance_priv : (h.advance).priv = h.priv := rfl

@[simp] theorem Hart.advance_mem : (h.advance).mem = h.mem := rfl

@[simp] theorem Hart.advance_tags : (h.advance).tags = h.tags := rfl

/-! ## setTag -/

@[simp] theorem Hart.setTag_cfg (a : BitVec w) (t : Bool) : (h.setTag a t).cfg = h.cfg := rfl

@[simp] theorem Hart.setTag_c (a : BitVec w) (t : Bool) : (h.setTag a t).c = h.c := rfl

@[simp] theorem Hart.setTag_pcc (a : BitVec w) (t : Bool) : (h.setTag a t).pcc = h.pcc := rfl

@[simp] theorem Hart.setTag_ddc (a : BitVec w) (t : Bool) : (h.setTag a t).ddc = h.ddc := rfl

@[simp] theorem Hart.setTag_capCsrs (a : BitVec w) (t : Bool) : (h.setTag a t).capCsrs = h.capCsrs := rfl

@[simp] theorem Hart.setTag_ordCsrs (a : BitVec w) (t : Bool) : (h.setTag a t).ordCsrs = h.ordCsrs := rfl

@[simp] theorem Hart.setTag_priv (a : BitVec w) (t : Bool) : (h.setTag a t).priv = h.priv := rfl

@[simp] theorem Hart.setTag_mem (a : BitVec w) (t : Bool) : (h.setTag a t).mem = h.mem := rfl

/-! ## pokeByte -/

@[simp] theorem Hart.pokeByte_cfg (a : BitVec w) (b : Byte) : (h.pokeByte a b).cfg = h.cfg := rfl

@[simp] theorem Hart.pokeByte_c (a : BitVec w) (b : Byte) : (h.pokeByte a b).c = h.c := rfl

@[simp] theorem Hart.pokeByte_pcc (a : BitVec w) (b : Byte) : (h.pokeByte a b).pcc = h.pcc := rfl

@[simp] theorem Hart.pokeByte_ddc (a : BitVec w) (b : Byte) : (h.pokeByte a b).ddc = h.ddc := rfl

@[simp] theorem Hart.pokeByte_capCsrs (a : BitVec w) (b : Byte) : (h.pokeByte a b).capCsrs = h.capCsrs := rfl

@[simp] theorem Hart.pokeByte_ordCsrs (a : BitVec w) (b : Byte) : (h.pokeByte a b).ordCsrs = h.ordCsrs := rfl

@[simp] theorem Hart.pokeByte_priv (a : BitVec w) (b : Byte) : (h.pokeByte a b).priv = h.priv := rfl

@[simp] theorem Hart.pokeByte_tags (a : BitVec w) (b : Byte) : (h.pokeByte a b).tags = h.tags := rfl

/-! ## storeByte -/

@[simp] theorem Hart.storeByte_cfg (a : BitVec w) (b : Byte) : (h.storeByte a b).cfg = h.cfg := rfl

@[simp] theorem Hart.storeByte_c (a : BitVec w) (b : Byte) : (h.storeByte a b).c = h.c := rfl

@[simp] theorem Hart.storeByte_pcc (a : BitVec w) (b : Byte) : (h.storeByte a b).pcc = h.pcc := rfl

@[simp] theorem Hart.storeByte_ddc (a : BitVec w) (b : Byte) : (h.storeByte a b).ddc = h.ddc := rfl

@[simp] theorem Hart.storeByte_capCsrs (a : BitVec w) (b : Byte) : (h.storeByte a b).capCsrs = h.capCsrs := rfl

@[simp] theorem Hart.storeByte_ordCsrs (a : BitVec w) (b : Byte) : (h.storeByte a b).ordCsrs = h.ordCsrs := rfl

@[simp] theorem Hart.storeByte_priv (a : BitVec w) (b : Byte) : (h.storeByte a b).priv = h.priv := rfl

/-! ## memWrite -/

@[simp] theorem Hart.memWrite_cfg (a : BitVec w) (n v : Nat) : (h.memWrite a n v).cfg = h.cfg := by
  induction n generalizing h a v with
  | zero => rfl
  | succ n ih => exact ih ..

@[simp] theorem Hart.memWrite_c (a : BitVec w) (n v : Nat) : (h.memWrite a n v).c = h.c := by
  induction n generalizing h a v with
  | zero => rfl
  | succ n ih => exact ih ..

@[simp] theorem Hart.memWrite_pcc (a : BitVec w) (n v : Nat) : (h.memWrite a n v).pcc = h.pcc := by
  induction n generalizing h a v with
  | zero => rfl
  | succ n ih => exact ih ..

@[simp] theorem Hart.memWrite_ddc (a : BitVec w) (n v : Nat) : (h.memWrite a n v).ddc = h.ddc := by
  induction n generalizing h a v with
  | zero => rfl
  | succ n ih => exact ih ..

@[simp] theorem Hart.memWrite_capCsrs (a : BitVec w) (n v : Nat) : (h.memWrite a n v).capCsrs = h.capCsrs := by
  induction n generalizing h a v with
  | zero => rfl
  | succ n ih => exact ih ..

@[simp] theorem Hart.memWrite_ordCsrs (a : BitVec w) (n v : Nat) : (h.memWrite a n v).ordCsrs = h.ordCsrs := by
  induction n generalizing h a v with
  | zero => rfl
  | succ n ih => exact ih ..

@[simp] theorem Hart.memWrite_priv (a : BitVec w) (n v : Nat) : (h.memWrite a n v).priv = h.priv := by
  induction n generalizing h a v with
  | zero => rfl
  | succ n ih => exact ih ..

/-! ## memWriteCap -/

@[simp] theorem Hart.memWriteCap_cfg (a : BitVec w) (c : Cap w) : (h.memWriteCap a c).cfg = h.cfg := Hart.memWrite_cfg ..

@[simp] theorem Hart.memWriteCap_c (a : BitVec w) (c : Cap w) : (h.memWriteCap a c).c = h.c := Hart.memWrite_c ..

@[simp] theorem Hart.memWriteCap_pcc (a : BitVec w) (c : Cap w) : (h.memWriteCap a c).pcc = h.pcc := Hart.memWrite_pcc ..

@[simp] theorem Hart.memWriteCap_ddc (a : BitVec w) (c : Cap w) : (h.memWriteCap a c).ddc = h.ddc := Hart.memWrite_ddc ..

@[simp] theorem Hart.memWriteCap_capCsrs (a : BitVec w) (c : Cap w) : (h.memWriteCap a c).capCsrs = h.capCsrs := Hart.memWrite_capCsrs ..

@[simp] theorem Hart.memWriteCap_ordCsrs (a : BitVec w) (c : Cap w) : (h.memWriteCap a c).ordCsrs = h.ordCsrs := Hart.memWrite_ordCsrs ..

@[simp] theorem Hart.memWriteCap_priv (a : BitVec w) (c : Cap w) : (h.memWriteCap a c).priv = h.priv := Hart.memWrite_priv ..

/-! ## setOrdCsr -/

@[simp] theorem Hart.setOrdCsr_cfg (a : CsrAddr) (v : BitVec w) : (h.setOrdCsr a v).cfg = h.cfg := rfl

@[simp] theorem Hart.setOrdCsr_c (a : CsrAddr) (v : BitVec w) : (h.setOrdCsr a v).c = h.c := rfl

@[simp] theorem Hart.setOrdCsr_pcc (a : CsrAddr) (v : BitVec w) : (h.setOrdCsr a v).pcc = h.pcc := rfl

@[simp] theorem Hart.setOrdCsr_ddc (a : CsrAddr) (v : BitVec w) : (h.setOrdCsr a v).ddc = h.ddc := rfl

@[simp] theorem Hart.setOrdCsr_capCsrs (a : CsrAddr) (v : BitVec w) : (h.setOrdCsr a v).capCsrs = h.capCsrs := rfl

@[simp] theorem Hart.setOrdCsr_priv (a : CsrAddr) (v : BitVec w) : (h.setOrdCsr a v).priv = h.priv := rfl

@[simp] theorem Hart.setOrdCsr_mem (a : CsrAddr) (v : BitVec w) : (h.setOrdCsr a v).mem = h.mem := rfl

@[simp] theorem Hart.setOrdCsr_tags (a : CsrAddr) (v : BitVec w) : (h.setOrdCsr a v).tags = h.tags := rfl

/-! ## setCapCsr -/

@[simp] theorem Hart.setCapCsr_cfg (a : CsrAddr) (v : Cap w) : (h.setCapCsr a v).cfg = h.cfg := by
  unfold Hart.setCapCsr; split <;> rfl

@[simp] theorem Hart.setCapCsr_c (a : CsrAddr) (v : Cap w) : (h.setCapCsr a v).c = h.c := by
  unfold Hart.setCapCsr; split <;> rfl

@[simp] theorem Hart.setCapCsr_pcc (a : CsrAddr) (v : Cap w) : (h.setCapCsr a v).pcc = h.pcc := by
  unfold Hart.setCapCsr; split <;> rfl

@[simp] theorem Hart.setCapCsr_ordCsrs (a : CsrAddr) (v : Cap w) : (h.setCapCsr a v).ordCsrs = h.ordCsrs := by
  unfold Hart.setCapCsr; split <;> rfl

@[simp] theorem Hart.setCapCsr_priv (a : CsrAddr) (v : Cap w) : (h.setCapCsr a v).priv = h.priv := by
  unfold Hart.setCapCsr; split <;> rfl

@[simp] theorem Hart.setCapCsr_mem (a : CsrAddr) (v : Cap w) : (h.setCapCsr a v).mem = h.mem := by
  unfold Hart.setCapCsr; split <;> rfl

@[simp] theorem Hart.setCapCsr_tags (a : CsrAddr) (v : Cap w) : (h.setCapCsr a v).tags = h.tags := by
  unfold Hart.setCapCsr; split <;> rfl

/-! ## enterTrap -/

@[simp] theorem Hart.enterTrap_ddc (t : TrapCsrs) (e : Exn) : (h.enterTrap t e).ddc = h.ddc := rfl

@[simp] theorem Hart.enterTrap_priv (t : TrapCsrs) (e : Exn) : (h.enterTrap t e).priv = .machine := rfl

@[simp] theorem Hart.enterTrap_cfg (t : TrapCsrs) (e : Exn) : (h.enterTrap t e).cfg = h.cfg := by simp [Hart.enterTrap]

@[simp] theorem Hart.enterTrap_c (t : TrapCsrs) (e : Exn) : (h.enterTrap t e).c = h.c := by simp [Hart.enterTrap]

@[simp] theorem Hart.enterTrap_mem (t : TrapCsrs) (e : Exn) : (h.enterTrap t e).mem = h.mem := by simp [Hart.enterTrap]

@[simp] theorem Hart.enterTrap_tags (t : TrapCsrs) (e : Exn) : (h.enterTrap t e).tags = h.tags := by simp [Hart.enterTrap]

/-! ## Readers -/

@[simp] theorem Hart.setC_byteAt (i : Reg) (v : Cap w) (b' : BitVec w) : (h.setC i v).byteAt b' = h.byteAt b' := by simp only [Hart.byteAt, Hart.setC_mem]

@[simp] theorem Hart.setC_tagAt (i : Reg) (v : Cap w) (b' : BitVec w) : (h.setC i v).tagAt b' = h.tagAt b' := by simp only [Hart.tagAt, Hart.setC_tags]

@[simp] theorem Hart.setC_capCsr (i : Reg) (v : Cap w) (a' : CsrAddr) : (h.setC i v).capCsr a' = h.capCsr a' := by simp only [Hart.capCsr, Hart.setC_ddc, Hart.setC_capCsrs]

@[simp] theorem Hart.setC_ordCsr (i : Reg) (v : Cap w) (a' : CsrAddr) : (h.setC i v).ordCsr a' = h.ordCsr a' := by simp only [Hart.ordCsr, Hart.setC_ordCsrs]

@[simp] theorem Hart.setC_pc (i : Reg) (v : Cap w) : (h.setC i v).pc = h.pc := by simp only [Hart.pc, Hart.setC_pcc]

@[simp] theorem Hart.setC_nextPc (i : Reg) (v : Cap w) : (h.setC i v).nextPc = h.nextPc := by simp only [Hart.nextPc, Hart.setC_pc]

@[simp] theorem Hart.setC_cheriEnabled (i : Reg) (v : Cap w) : (h.setC i v).cheriEnabled = h.cheriEnabled := by simp only [Hart.cheriEnabled, Hart.setC_priv, Hart.setC_cfg]

@[simp] theorem Hart.setC_mode (i : Reg) (v : Cap w) : (h.setC i v).mode = h.mode := by simp only [Hart.mode, Hart.setC_pcc, Hart.setC_cfg, Hart.setC_cheriEnabled]

@[simp] theorem Hart.setX_byteAt (i : Reg) (v : BitVec w) (b' : BitVec w) : (h.setX i v).byteAt b' = h.byteAt b' := by simp only [Hart.byteAt, Hart.setX_mem]

@[simp] theorem Hart.setX_tagAt (i : Reg) (v : BitVec w) (b' : BitVec w) : (h.setX i v).tagAt b' = h.tagAt b' := by simp only [Hart.tagAt, Hart.setX_tags]

@[simp] theorem Hart.setX_capCsr (i : Reg) (v : BitVec w) (a' : CsrAddr) : (h.setX i v).capCsr a' = h.capCsr a' := by simp only [Hart.capCsr, Hart.setX_ddc, Hart.setX_capCsrs]

@[simp] theorem Hart.setX_ordCsr (i : Reg) (v : BitVec w) (a' : CsrAddr) : (h.setX i v).ordCsr a' = h.ordCsr a' := by simp only [Hart.ordCsr, Hart.setX_ordCsrs]

@[simp] theorem Hart.setX_pc (i : Reg) (v : BitVec w) : (h.setX i v).pc = h.pc := by simp only [Hart.pc, Hart.setX_pcc]

@[simp] theorem Hart.setX_nextPc (i : Reg) (v : BitVec w) : (h.setX i v).nextPc = h.nextPc := by simp only [Hart.nextPc, Hart.setX_pc]

@[simp] theorem Hart.setX_cheriEnabled (i : Reg) (v : BitVec w) : (h.setX i v).cheriEnabled = h.cheriEnabled := by simp only [Hart.cheriEnabled, Hart.setX_priv, Hart.setX_cfg]

@[simp] theorem Hart.setX_mode (i : Reg) (v : BitVec w) : (h.setX i v).mode = h.mode := by simp only [Hart.mode, Hart.setX_pcc, Hart.setX_cfg, Hart.setX_cheriEnabled]

@[simp] theorem Hart.setPc_creg (t : BitVec w) (j : Reg) : (h.setPc t).creg j = h.creg j := by simp only [Hart.creg, Hart.setPc_c]

@[simp] theorem Hart.setPc_x (t : BitVec w) (j : Reg) : (h.setPc t).x j = h.x j := by simp only [Hart.x, Hart.setPc_creg]

@[simp] theorem Hart.setPc_byteAt (t : BitVec w) (b' : BitVec w) : (h.setPc t).byteAt b' = h.byteAt b' := by simp only [Hart.byteAt, Hart.setPc_mem]

@[simp] theorem Hart.setPc_tagAt (t : BitVec w) (b' : BitVec w) : (h.setPc t).tagAt b' = h.tagAt b' := by simp only [Hart.tagAt, Hart.setPc_tags]

@[simp] theorem Hart.setPc_capCsr (t : BitVec w) (a' : CsrAddr) : (h.setPc t).capCsr a' = h.capCsr a' := by simp only [Hart.capCsr, Hart.setPc_ddc, Hart.setPc_capCsrs]

@[simp] theorem Hart.setPc_ordCsr (t : BitVec w) (a' : CsrAddr) : (h.setPc t).ordCsr a' = h.ordCsr a' := by simp only [Hart.ordCsr, Hart.setPc_ordCsrs]

@[simp] theorem Hart.setPc_cheriEnabled (t : BitVec w) : (h.setPc t).cheriEnabled = h.cheriEnabled := by simp only [Hart.cheriEnabled, Hart.setPc_priv, Hart.setPc_cfg]

@[simp] theorem Hart.setPcc_creg (c : Cap w) (j : Reg) : (h.setPcc c).creg j = h.creg j := by simp only [Hart.creg, Hart.setPcc_c]

@[simp] theorem Hart.setPcc_x (c : Cap w) (j : Reg) : (h.setPcc c).x j = h.x j := by simp only [Hart.x, Hart.setPcc_creg]

@[simp] theorem Hart.setPcc_byteAt (c : Cap w) (b' : BitVec w) : (h.setPcc c).byteAt b' = h.byteAt b' := by simp only [Hart.byteAt, Hart.setPcc_mem]

@[simp] theorem Hart.setPcc_tagAt (c : Cap w) (b' : BitVec w) : (h.setPcc c).tagAt b' = h.tagAt b' := by simp only [Hart.tagAt, Hart.setPcc_tags]

@[simp] theorem Hart.setPcc_capCsr (c : Cap w) (a' : CsrAddr) : (h.setPcc c).capCsr a' = h.capCsr a' := by simp only [Hart.capCsr, Hart.setPcc_ddc, Hart.setPcc_capCsrs]

@[simp] theorem Hart.setPcc_ordCsr (c : Cap w) (a' : CsrAddr) : (h.setPcc c).ordCsr a' = h.ordCsr a' := by simp only [Hart.ordCsr, Hart.setPcc_ordCsrs]

@[simp] theorem Hart.setPcc_cheriEnabled (c : Cap w) : (h.setPcc c).cheriEnabled = h.cheriEnabled := by simp only [Hart.cheriEnabled, Hart.setPcc_priv, Hart.setPcc_cfg]

@[simp] theorem Hart.advance_creg (j : Reg) : (h.advance).creg j = h.creg j := by simp only [Hart.creg, Hart.advance_c]

@[simp] theorem Hart.advance_x (j : Reg) : (h.advance).x j = h.x j := by simp only [Hart.x, Hart.advance_creg]

@[simp] theorem Hart.advance_byteAt (b' : BitVec w) : (h.advance).byteAt b' = h.byteAt b' := by simp only [Hart.byteAt, Hart.advance_mem]

@[simp] theorem Hart.advance_tagAt (b' : BitVec w) : (h.advance).tagAt b' = h.tagAt b' := by simp only [Hart.tagAt, Hart.advance_tags]

@[simp] theorem Hart.advance_capCsr (a' : CsrAddr) : (h.advance).capCsr a' = h.capCsr a' := by simp only [Hart.capCsr, Hart.advance_ddc, Hart.advance_capCsrs]

@[simp] theorem Hart.advance_ordCsr (a' : CsrAddr) : (h.advance).ordCsr a' = h.ordCsr a' := by simp only [Hart.ordCsr, Hart.advance_ordCsrs]

@[simp] theorem Hart.advance_cheriEnabled : (h.advance).cheriEnabled = h.cheriEnabled := by simp only [Hart.cheriEnabled, Hart.advance_priv, Hart.advance_cfg]

@[simp] theorem Hart.setTag_creg (a : BitVec w) (t : Bool) (j : Reg) : (h.setTag a t).creg j = h.creg j := by simp only [Hart.creg, Hart.setTag_c]

@[simp] theorem Hart.setTag_x (a : BitVec w) (t : Bool) (j : Reg) : (h.setTag a t).x j = h.x j := by simp only [Hart.x, Hart.setTag_creg]

@[simp] theorem Hart.setTag_byteAt (a : BitVec w) (t : Bool) (b' : BitVec w) : (h.setTag a t).byteAt b' = h.byteAt b' := by simp only [Hart.byteAt, Hart.setTag_mem]

@[simp] theorem Hart.setTag_capCsr (a : BitVec w) (t : Bool) (a' : CsrAddr) : (h.setTag a t).capCsr a' = h.capCsr a' := by simp only [Hart.capCsr, Hart.setTag_ddc, Hart.setTag_capCsrs]

@[simp] theorem Hart.setTag_ordCsr (a : BitVec w) (t : Bool) (a' : CsrAddr) : (h.setTag a t).ordCsr a' = h.ordCsr a' := by simp only [Hart.ordCsr, Hart.setTag_ordCsrs]

@[simp] theorem Hart.setTag_pc (a : BitVec w) (t : Bool) : (h.setTag a t).pc = h.pc := by simp only [Hart.pc, Hart.setTag_pcc]

@[simp] theorem Hart.setTag_nextPc (a : BitVec w) (t : Bool) : (h.setTag a t).nextPc = h.nextPc := by simp only [Hart.nextPc, Hart.setTag_pc]

@[simp] theorem Hart.setTag_cheriEnabled (a : BitVec w) (t : Bool) : (h.setTag a t).cheriEnabled = h.cheriEnabled := by simp only [Hart.cheriEnabled, Hart.setTag_priv, Hart.setTag_cfg]

@[simp] theorem Hart.setTag_mode (a : BitVec w) (t : Bool) : (h.setTag a t).mode = h.mode := by simp only [Hart.mode, Hart.setTag_pcc, Hart.setTag_cfg, Hart.setTag_cheriEnabled]

@[simp] theorem Hart.pokeByte_creg (a : BitVec w) (b : Byte) (j : Reg) : (h.pokeByte a b).creg j = h.creg j := by simp only [Hart.creg, Hart.pokeByte_c]

@[simp] theorem Hart.pokeByte_x (a : BitVec w) (b : Byte) (j : Reg) : (h.pokeByte a b).x j = h.x j := by simp only [Hart.x, Hart.pokeByte_creg]

@[simp] theorem Hart.pokeByte_tagAt (a : BitVec w) (b : Byte) (b' : BitVec w) : (h.pokeByte a b).tagAt b' = h.tagAt b' := by simp only [Hart.tagAt, Hart.pokeByte_tags]

@[simp] theorem Hart.pokeByte_capCsr (a : BitVec w) (b : Byte) (a' : CsrAddr) : (h.pokeByte a b).capCsr a' = h.capCsr a' := by simp only [Hart.capCsr, Hart.pokeByte_ddc, Hart.pokeByte_capCsrs]

@[simp] theorem Hart.pokeByte_ordCsr (a : BitVec w) (b : Byte) (a' : CsrAddr) : (h.pokeByte a b).ordCsr a' = h.ordCsr a' := by simp only [Hart.ordCsr, Hart.pokeByte_ordCsrs]

@[simp] theorem Hart.pokeByte_pc (a : BitVec w) (b : Byte) : (h.pokeByte a b).pc = h.pc := by simp only [Hart.pc, Hart.pokeByte_pcc]

@[simp] theorem Hart.pokeByte_nextPc (a : BitVec w) (b : Byte) : (h.pokeByte a b).nextPc = h.nextPc := by simp only [Hart.nextPc, Hart.pokeByte_pc]

@[simp] theorem Hart.pokeByte_cheriEnabled (a : BitVec w) (b : Byte) : (h.pokeByte a b).cheriEnabled = h.cheriEnabled := by simp only [Hart.cheriEnabled, Hart.pokeByte_priv, Hart.pokeByte_cfg]

@[simp] theorem Hart.pokeByte_mode (a : BitVec w) (b : Byte) : (h.pokeByte a b).mode = h.mode := by simp only [Hart.mode, Hart.pokeByte_pcc, Hart.pokeByte_cfg, Hart.pokeByte_cheriEnabled]

@[simp] theorem Hart.storeByte_creg (a : BitVec w) (b : Byte) (j : Reg) : (h.storeByte a b).creg j = h.creg j := by simp only [Hart.creg, Hart.storeByte_c]

@[simp] theorem Hart.storeByte_x (a : BitVec w) (b : Byte) (j : Reg) : (h.storeByte a b).x j = h.x j := by simp only [Hart.x, Hart.storeByte_creg]

@[simp] theorem Hart.storeByte_capCsr (a : BitVec w) (b : Byte) (a' : CsrAddr) : (h.storeByte a b).capCsr a' = h.capCsr a' := by simp only [Hart.capCsr, Hart.storeByte_ddc, Hart.storeByte_capCsrs]

@[simp] theorem Hart.storeByte_ordCsr (a : BitVec w) (b : Byte) (a' : CsrAddr) : (h.storeByte a b).ordCsr a' = h.ordCsr a' := by simp only [Hart.ordCsr, Hart.storeByte_ordCsrs]

@[simp] theorem Hart.storeByte_pc (a : BitVec w) (b : Byte) : (h.storeByte a b).pc = h.pc := by simp only [Hart.pc, Hart.storeByte_pcc]

@[simp] theorem Hart.storeByte_nextPc (a : BitVec w) (b : Byte) : (h.storeByte a b).nextPc = h.nextPc := by simp only [Hart.nextPc, Hart.storeByte_pc]

@[simp] theorem Hart.storeByte_cheriEnabled (a : BitVec w) (b : Byte) : (h.storeByte a b).cheriEnabled = h.cheriEnabled := by simp only [Hart.cheriEnabled, Hart.storeByte_priv, Hart.storeByte_cfg]

@[simp] theorem Hart.storeByte_mode (a : BitVec w) (b : Byte) : (h.storeByte a b).mode = h.mode := by simp only [Hart.mode, Hart.storeByte_pcc, Hart.storeByte_cfg, Hart.storeByte_cheriEnabled]

@[simp] theorem Hart.memWrite_creg (a : BitVec w) (n v : Nat) (j : Reg) : (h.memWrite a n v).creg j = h.creg j := by simp only [Hart.creg, Hart.memWrite_c]

@[simp] theorem Hart.memWrite_x (a : BitVec w) (n v : Nat) (j : Reg) : (h.memWrite a n v).x j = h.x j := by simp only [Hart.x, Hart.memWrite_creg]

@[simp] theorem Hart.memWrite_capCsr (a : BitVec w) (n v : Nat) (a' : CsrAddr) : (h.memWrite a n v).capCsr a' = h.capCsr a' := by simp only [Hart.capCsr, Hart.memWrite_ddc, Hart.memWrite_capCsrs]

@[simp] theorem Hart.memWrite_ordCsr (a : BitVec w) (n v : Nat) (a' : CsrAddr) : (h.memWrite a n v).ordCsr a' = h.ordCsr a' := by simp only [Hart.ordCsr, Hart.memWrite_ordCsrs]

@[simp] theorem Hart.memWrite_pc (a : BitVec w) (n v : Nat) : (h.memWrite a n v).pc = h.pc := by simp only [Hart.pc, Hart.memWrite_pcc]

@[simp] theorem Hart.memWrite_nextPc (a : BitVec w) (n v : Nat) : (h.memWrite a n v).nextPc = h.nextPc := by simp only [Hart.nextPc, Hart.memWrite_pc]

@[simp] theorem Hart.memWrite_cheriEnabled (a : BitVec w) (n v : Nat) : (h.memWrite a n v).cheriEnabled = h.cheriEnabled := by simp only [Hart.cheriEnabled, Hart.memWrite_priv, Hart.memWrite_cfg]

@[simp] theorem Hart.memWrite_mode (a : BitVec w) (n v : Nat) : (h.memWrite a n v).mode = h.mode := by simp only [Hart.mode, Hart.memWrite_pcc, Hart.memWrite_cfg, Hart.memWrite_cheriEnabled]

@[simp] theorem Hart.memWriteCap_creg (a : BitVec w) (c : Cap w) (j : Reg) : (h.memWriteCap a c).creg j = h.creg j := by simp only [Hart.creg, Hart.memWriteCap_c]

@[simp] theorem Hart.memWriteCap_x (a : BitVec w) (c : Cap w) (j : Reg) : (h.memWriteCap a c).x j = h.x j := by simp only [Hart.x, Hart.memWriteCap_creg]

@[simp] theorem Hart.memWriteCap_capCsr (a : BitVec w) (c : Cap w) (a' : CsrAddr) : (h.memWriteCap a c).capCsr a' = h.capCsr a' := by simp only [Hart.capCsr, Hart.memWriteCap_ddc, Hart.memWriteCap_capCsrs]

@[simp] theorem Hart.memWriteCap_ordCsr (a : BitVec w) (c : Cap w) (a' : CsrAddr) : (h.memWriteCap a c).ordCsr a' = h.ordCsr a' := by simp only [Hart.ordCsr, Hart.memWriteCap_ordCsrs]

@[simp] theorem Hart.memWriteCap_pc (a : BitVec w) (c : Cap w) : (h.memWriteCap a c).pc = h.pc := by simp only [Hart.pc, Hart.memWriteCap_pcc]

@[simp] theorem Hart.memWriteCap_nextPc (a : BitVec w) (c : Cap w) : (h.memWriteCap a c).nextPc = h.nextPc := by simp only [Hart.nextPc, Hart.memWriteCap_pc]

@[simp] theorem Hart.memWriteCap_cheriEnabled (a : BitVec w) (c : Cap w) : (h.memWriteCap a c).cheriEnabled = h.cheriEnabled := by simp only [Hart.cheriEnabled, Hart.memWriteCap_priv, Hart.memWriteCap_cfg]

@[simp] theorem Hart.memWriteCap_mode (a : BitVec w) (c : Cap w) : (h.memWriteCap a c).mode = h.mode := by simp only [Hart.mode, Hart.memWriteCap_pcc, Hart.memWriteCap_cfg, Hart.memWriteCap_cheriEnabled]

@[simp] theorem Hart.setOrdCsr_creg (a : CsrAddr) (v : BitVec w) (j : Reg) : (h.setOrdCsr a v).creg j = h.creg j := by simp only [Hart.creg, Hart.setOrdCsr_c]

@[simp] theorem Hart.setOrdCsr_x (a : CsrAddr) (v : BitVec w) (j : Reg) : (h.setOrdCsr a v).x j = h.x j := by simp only [Hart.x, Hart.setOrdCsr_creg]

@[simp] theorem Hart.setOrdCsr_byteAt (a : CsrAddr) (v : BitVec w) (b' : BitVec w) : (h.setOrdCsr a v).byteAt b' = h.byteAt b' := by simp only [Hart.byteAt, Hart.setOrdCsr_mem]

@[simp] theorem Hart.setOrdCsr_tagAt (a : CsrAddr) (v : BitVec w) (b' : BitVec w) : (h.setOrdCsr a v).tagAt b' = h.tagAt b' := by simp only [Hart.tagAt, Hart.setOrdCsr_tags]

@[simp] theorem Hart.setOrdCsr_capCsr (a : CsrAddr) (v : BitVec w) (a' : CsrAddr) : (h.setOrdCsr a v).capCsr a' = h.capCsr a' := by simp only [Hart.capCsr, Hart.setOrdCsr_ddc, Hart.setOrdCsr_capCsrs]

@[simp] theorem Hart.setOrdCsr_pc (a : CsrAddr) (v : BitVec w) : (h.setOrdCsr a v).pc = h.pc := by simp only [Hart.pc, Hart.setOrdCsr_pcc]

@[simp] theorem Hart.setOrdCsr_nextPc (a : CsrAddr) (v : BitVec w) : (h.setOrdCsr a v).nextPc = h.nextPc := by simp only [Hart.nextPc, Hart.setOrdCsr_pc]

@[simp] theorem Hart.setOrdCsr_cheriEnabled (a : CsrAddr) (v : BitVec w) : (h.setOrdCsr a v).cheriEnabled = h.cheriEnabled := by simp only [Hart.cheriEnabled, Hart.setOrdCsr_priv, Hart.setOrdCsr_cfg]

@[simp] theorem Hart.setOrdCsr_mode (a : CsrAddr) (v : BitVec w) : (h.setOrdCsr a v).mode = h.mode := by simp only [Hart.mode, Hart.setOrdCsr_pcc, Hart.setOrdCsr_cfg, Hart.setOrdCsr_cheriEnabled]

@[simp] theorem Hart.setCapCsr_creg (a : CsrAddr) (v : Cap w) (j : Reg) : (h.setCapCsr a v).creg j = h.creg j := by simp only [Hart.creg, Hart.setCapCsr_c]

@[simp] theorem Hart.setCapCsr_x (a : CsrAddr) (v : Cap w) (j : Reg) : (h.setCapCsr a v).x j = h.x j := by simp only [Hart.x, Hart.setCapCsr_creg]

@[simp] theorem Hart.setCapCsr_byteAt (a : CsrAddr) (v : Cap w) (b' : BitVec w) : (h.setCapCsr a v).byteAt b' = h.byteAt b' := by simp only [Hart.byteAt, Hart.setCapCsr_mem]

@[simp] theorem Hart.setCapCsr_tagAt (a : CsrAddr) (v : Cap w) (b' : BitVec w) : (h.setCapCsr a v).tagAt b' = h.tagAt b' := by simp only [Hart.tagAt, Hart.setCapCsr_tags]

@[simp] theorem Hart.setCapCsr_ordCsr (a : CsrAddr) (v : Cap w) (a' : CsrAddr) : (h.setCapCsr a v).ordCsr a' = h.ordCsr a' := by simp only [Hart.ordCsr, Hart.setCapCsr_ordCsrs]

@[simp] theorem Hart.setCapCsr_pc (a : CsrAddr) (v : Cap w) : (h.setCapCsr a v).pc = h.pc := by simp only [Hart.pc, Hart.setCapCsr_pcc]

@[simp] theorem Hart.setCapCsr_nextPc (a : CsrAddr) (v : Cap w) : (h.setCapCsr a v).nextPc = h.nextPc := by simp only [Hart.nextPc, Hart.setCapCsr_pc]

@[simp] theorem Hart.setCapCsr_cheriEnabled (a : CsrAddr) (v : Cap w) : (h.setCapCsr a v).cheriEnabled = h.cheriEnabled := by simp only [Hart.cheriEnabled, Hart.setCapCsr_priv, Hart.setCapCsr_cfg]

@[simp] theorem Hart.setCapCsr_mode (a : CsrAddr) (v : Cap w) : (h.setCapCsr a v).mode = h.mode := by simp only [Hart.mode, Hart.setCapCsr_pcc, Hart.setCapCsr_cfg, Hart.setCapCsr_cheriEnabled]

/-! ## Registers -/

/-- Register 0 reads as the null capability (R11). -/
@[simp] theorem Hart.creg_zero : h.creg 0 = Cap.null := rfl

/-- What a register reads as after a write (R12). -/
theorem Hart.creg_setC (i j : Reg) (v : Cap w) :
    (h.setC i v).creg j = if j = i ∧ i ≠ 0 then v else h.creg j := by
  by_cases hi : i = 0
  · simp [Hart.setC, hi]
  · by_cases hj : j = 0
    · subst hj
      have : (0 : Reg) ≠ i := Ne.symm hi
      rw [if_neg fun hc => this hc.1]
      rfl
    · simp only [Hart.setC, Hart.creg, hi, hj, if_false, Vector.getElem_set, ne_eq, not_false_eq_true, and_true]
      by_cases hij : j = i
      · subst hij
        simp
      · have : i.toNat ≠ j.toNat := fun he => hij (BitVec.eq_of_toNat_eq he.symm)
        simp [hij, this]

/-- A register other than the one written reads as before. -/
theorem Hart.creg_setC_ne {i j : Reg} (v : Cap w) (hj : j ≠ i) : (h.setC i v).creg j = h.creg j := by
  simp [Hart.creg_setC, hj]

/-- What a register reads as after an integer write (R12). -/
theorem Hart.creg_setX (i j : Reg) (v : BitVec w) :
    (h.setX i v).creg j = if j = i ∧ i ≠ 0 then Cap.ofInt v else h.creg j := Hart.creg_setC ..

/-- A register other than the one written reads as before. -/
theorem Hart.creg_setX_ne {i j : Reg} (v : BitVec w) (hj : j ≠ i) : (h.setX i v).creg j = h.creg j :=
  h.creg_setC_ne _ hj

/-- Writing register 0 does nothing (R12). -/
@[simp] theorem Hart.setC_zero (v : Cap w) : h.setC 0 v = h := rfl

/-- Writing register 0 does nothing (R12). -/
@[simp] theorem Hart.setX_zero (v : BitVec w) : h.setX 0 v = h := rfl

/-! ## pcc -/

/-- `pc` after a write of it. -/
@[simp] theorem Hart.setPc_pc (t : BitVec w) : (h.setPc t).pc = t := rfl

/-- A write of `pc` keeps the tag of `pcc`. -/
@[simp] theorem Hart.setPc_tag (t : BitVec w) : (h.setPc t).pcc.tag = h.pcc.tag := rfl

/-- A write of `pc` keeps the metadata of `pcc`. -/
@[simp] theorem Hart.setPc_metadata (t : BitVec w) : (h.setPc t).pcc.metadata = h.pcc.metadata := rfl

/-- `pc` after an instruction that transfers no control (R13). -/
@[simp] theorem Hart.advance_pc : h.advance.pc = h.pc + 4 := rfl

/-- Advancing keeps the tag of `pcc` (R13). -/
@[simp] theorem Hart.advance_tag : h.advance.pcc.tag = h.pcc.tag := rfl

/-- Advancing keeps the metadata of `pcc` (R13). -/
@[simp] theorem Hart.advance_metadata : h.advance.pcc.metadata = h.pcc.metadata := rfl

/-- `pcc` after a write of it. -/
@[simp] theorem Hart.setPcc_pcc (c : Cap w) : (h.setPcc c).pcc = c := rfl

/-! ## CSRs -/

/-- An ordinary CSR other than the one written reads as before. -/
theorem Hart.ordCsr_setOrdCsr_ne {a b : CsrAddr} (v : BitVec w) (hb : b ≠ a) :
    (h.setOrdCsr a v).ordCsr b = h.ordCsr b :=
  Table.get_set_ne fun he => hb (BitVec.eq_of_toNat_eq he)

/-- A capability CSR other than the one written reads as before. -/
theorem Hart.capCsr_setCapCsr_ne {a b : CsrAddr} (v : Cap w) (hb : b ≠ a) :
    (h.setCapCsr a v).capCsr b = h.capCsr b := by
  unfold Hart.setCapCsr
  split
  · rename_i ha
    have : b ≠ ddcAddr := fun he => hb (he.trans ha.symm)
    simp [Hart.capCsr, this]
  · simp only [Hart.capCsr]
    split
    · rfl
    · exact Table.get_set_ne fun he => hb (BitVec.eq_of_toNat_eq he)

/-- `ddc` is changed only by a write of the CSR at 0x416. -/
theorem Hart.setCapCsr_ddc_ne {a : CsrAddr} (v : Cap w) (ha : a ≠ ddcAddr) : (h.setCapCsr a v).ddc = h.ddc := by
  simp [Hart.setCapCsr, ha]

/-- The bits of the status register on entry to a handler: MIE 3 is clear, MPIE 7 the old MIE, MPP 12:11 the privilege. -/
theorem trapStatus_getLsbD {x : Xlen} (p : Priv) (old : BitVec x.bits) (k : Nat) :
    (trapStatus p old).getLsbD k =
      if k = 3 then false else if k = 7 then old.getLsbD 3
      else if k = 11 ∨ k = 12 then (Priv.level p).getLsbD (k - 11) else old.getLsbD k := by
  by_cases hk : k < x.bits
  · have hm : (0x1888#x.bits).getLsbD k = decide (k ∈ [3, 7, 11, 12]) := by cases x <;> revert k <;> decide
    have hb : (0x80#x.bits).getLsbD k = decide (k = 7) := by cases x <;> revert k <;> decide
    have hp : 2 ≤ k - 11 → (Priv.level p).getLsbD (k - 11) = false := fun h => BitVec.getLsbD_of_ge _ _ h
    simp only [trapStatus, BitVec.getLsbD_or, BitVec.getLsbD_and, BitVec.getLsbD_not, hm, BitVec.getLsbD_shiftLeft,
      BitVec.getLsbD_setWidth, apply_ite (fun v : BitVec x.bits => v.getLsbD k), hb, BitVec.getLsbD_zero]
    rcases (by omega : k = 3 ∨ k = 7 ∨ k = 11 ∨ k = 12 ∨ k < 11 ∧ k ≠ 3 ∧ k ≠ 7 ∨ 13 ≤ k) with rfl | rfl | rfl | rfl | h | h
    · simp [hk]
    · simp [hk]
    · simpa [hk] using fun _ => Nat.zero_lt_of_lt hk
    · simpa [hk] using fun _ => lt_trans (by decide) hk
    · simp [hk, show k ≠ 3 ∧ k ≠ 7 ∧ k ≠ 11 ∧ k ≠ 12 ∧ ¬11 ≤ k by omega]
    · simp [hk, show k ≠ 3 ∧ k ≠ 7 ∧ k ≠ 11 ∧ k ≠ 12 by omega, hp (by omega)]
  · have : 13 ≤ x.bits := by cases x <;> decide
    rw [BitVec.getLsbD_of_ge _ _ (by omega), BitVec.getLsbD_of_ge old k (by omega), if_neg (by omega), if_neg (by omega),
      if_neg (by omega)]

/-! ## Outcomes -/

/-- A state runs to a next state exactly when its hart does, XLEN unchanged. -/
theorem State.run_eq_next {x : Xlen} {g : Hart x.bits} {r : Res x.bits} {t : State} :
    State.run ⟨x, g⟩ r = .next t ↔ ∃ g', r = .next g' ∧ t = ⟨x, g'⟩ := by
  cases r <;> simp [State.run, eq_comm]

/-- On XLEN = 64, an instruction of XLEN = 64 runs like any other. -/
@[simp] theorem State.run64_rv64 {g : Hart Xlen.rv64.bits} (m : String) (r : Res Xlen.rv64.bits) :
    State.run64 ⟨.rv64, g⟩ m r = State.run ⟨.rv64, g⟩ r := rfl

/-- An instruction of XLEN = 64 reaches a next state only as it would by running. -/
theorem State.run64_eq_next {x : Xlen} {g : Hart x.bits} {m : String} {r : Res x.bits} {t : State}
    (hr : State.run64 ⟨x, g⟩ m r = .next t) : State.run ⟨x, g⟩ r = .next t := by
  cases x
  · simp [State.run64] at hr
  · exact hr

end Sys2Proof.Machine
end

