-- ==== Sys2Proof/Laws/Memory.lean ====
section
/-!
SUPPORT. Memory: reading after writing, what a store leaves alone, and that every memory operation keeps the canonical
form.
-/

namespace Sys2Proof.Machine

variable {w : Nat} (h : Hart w)

/-! ## Single bytes and tags -/

/-- A byte other than the one poked reads as before. -/
theorem Hart.byteAt_pokeByte_ne {a b : BitVec w} (v : Byte) (hb : b ≠ a) : (h.pokeByte a v).byteAt b = h.byteAt b :=
  Table.get_set_ne fun he => hb (BitVec.eq_of_toNat_eq he)

/-- A byte other than the one stored reads as before. -/
theorem Hart.byteAt_storeByte_ne {a b : BitVec w} (v : Byte) (hb : b ≠ a) :
    (h.storeByte a v).byteAt b = h.byteAt b := by
  rw [Hart.storeByte, Hart.setTag_byteAt, h.byteAt_pokeByte_ne v hb]

/-- A tag of a granule other than the one set reads as before. -/
theorem Hart.tagAt_setTag_ne {a b : BitVec w} (t : Bool) (hb : granule b ≠ granule a) :
    (h.setTag a t).tagAt b = h.tagAt b := Table.get_set_ne hb

/-- A tag of a granule other than that of the byte stored reads as before. -/
theorem Hart.tagAt_storeByte_ne {a b : BitVec w} (v : Byte) (hb : granule b ≠ granule a) :
    (h.storeByte a v).tagAt b = h.tagAt b := by
  rw [Hart.storeByte, Hart.tagAt_setTag_ne _ _ hb, Hart.pokeByte_tagAt]

/-! ## The canonical form -/

/-- A key set below 2^XLEN keeps every key below it. -/
theorem keys_lt_set {α : Type} [DecidableEq α] {d : α} {t : Table α} {k : Nat} {v : α} {p : Nat → Bool} (hk : p k = true)
    (ht : t.all (fun e => p e.1) = true) : (Table.set d t k v).all (fun e => p e.1) = true := by
  rw [List.all_eq_true] at ht ⊢
  intro e he
  rcases Table.mem_set he with hek | het
  · simpa [hek] using hk
  · exact ht e het

/-- The granule of a byte is an address below 2^XLEN and a multiple of the granule size. -/
theorem granule_ok (a : BitVec w) :
    (decide (granule a < 2 ^ w) && decide (granule a % clenBytes w = 0)) = true := by
  rw [Bool.and_eq_true]
  exact ⟨decide_eq_true (Nat.lt_of_le_of_lt (Nat.div_mul_le_self _ _) a.isLt),
    decide_eq_true (Nat.mul_mod_left _ _)⟩

/-- Poking a byte keeps the canonical form. -/
theorem Memory.wf_pokeByte (a : BitVec w) (v : Byte) (hw : Memory.wf h = true) : Memory.wf (h.pokeByte a v) = true := by
  simp only [Memory.wf, Bool.and_eq_true, Hart.pokeByte_tags] at hw ⊢
  exact ⟨⟨⟨Table.wf_set hw.1.1.1, keys_lt_set (p := fun n => decide (n < 2 ^ w)) (decide_eq_true a.isLt) hw.1.1.2⟩,
    hw.1.2⟩, hw.2⟩

/-- Setting a tag keeps the canonical form. -/
theorem Memory.wf_setTag (a : BitVec w) (t : Bool) (hw : Memory.wf h = true) : Memory.wf (h.setTag a t) = true := by
  simp only [Memory.wf, Bool.and_eq_true, Hart.setTag_mem] at hw ⊢
  exact ⟨⟨hw.1.1, Table.wf_set hw.1.2⟩,
    keys_lt_set (p := fun n => decide (n < 2 ^ w) && decide (n % clenBytes w = 0)) (granule_ok a) hw.2⟩

/-- Storing a byte keeps the canonical form. -/
theorem Memory.wf_storeByte (a : BitVec w) (v : Byte) (hw : Memory.wf h = true) : Memory.wf (h.storeByte a v) = true :=
  Memory.wf_setTag _ _ _ (Memory.wf_pokeByte _ _ _ hw)

/-- `MemWrite` keeps the canonical form. -/
theorem Memory.wf_memWrite (a : BitVec w) (n v : Nat) (hw : Memory.wf h = true) :
    Memory.wf (h.memWrite a n v) = true := by
  induction n generalizing h a v with
  | zero => exact hw
  | succ n ih => exact ih _ _ _ (Memory.wf_storeByte _ _ _ hw)

/-- `MemWriteCap` keeps the canonical form. -/
theorem Memory.wf_memWriteCap (a : BitVec w) (c : Cap w) (hw : Memory.wf h = true) :
    Memory.wf (h.memWriteCap a c) = true := Memory.wf_setTag _ _ _ (Memory.wf_memWrite _ _ _ _ hw)

/-- Placing bytes keeps the canonical form. -/
theorem Memory.wf_pokeBytes (a : BitVec w) (bs : List Byte) (hw : Memory.wf h = true) :
    Memory.wf (h.pokeBytes a bs) = true := by
  induction bs generalizing h a with
  | nil => exact hw
  | cons b bs ih => exact ih _ _ (Memory.wf_pokeByte _ _ _ hw)

/-- The canonical form depends on bytes and tags alone. -/
theorem Memory.wf_congr {g g' : Hart w} (hm : g'.mem = g.mem) (ht : g'.tags = g.tags) : Memory.wf g' = Memory.wf g := by
  simp only [Memory.wf, hm, ht]

/-- The memory of the launch state is in canonical form. -/
theorem Memory.wf_reset : Memory.wf State.reset.hart = true := rfl

/-! ## Runs of bytes -/

/-- A read of `n` bytes is below `2^(8n)`. -/
theorem Hart.memRead_lt (a : BitVec w) (n : Nat) : h.memRead a n < 2 ^ (8 * n) := by
  induction n generalizing a with
  | zero => exact Nat.one_pos
  | succ n ih =>
    have h1 := ih (a + 1)
    have h2 := (h.byteAt a).isLt
    rw [Hart.memRead, Nat.mul_succ, Nat.add_comm, pow_add]
    omega

/-- A write of `n` bytes reads only the low `8n` bits of the value (R7). -/
theorem Hart.memWrite_mod (a : BitVec w) (n v : Nat) : h.memWrite a n (v % 2 ^ (8 * n)) = h.memWrite a n v := by
  induction n generalizing h a v with
  | zero => rfl
  | succ n ih =>
    have h1 : v % 2 ^ (8 * (n + 1)) / 256 = v / 256 % 2 ^ (8 * n) := by
      rw [Nat.mul_succ, Nat.add_comm, pow_add, show (2 : Nat) ^ 8 = 256 from rfl, Nat.mod_mul_right_div_self]
    have h2 : BitVec.ofNat 8 (v % 2 ^ (8 * (n + 1))) = BitVec.ofNat 8 v :=
      BitVec.eq_of_toNat_eq (Nat.mod_mod_of_dvd _ (pow_dvd_pow 2 (by omega)))
    rw [Hart.memWrite, Hart.memWrite, h1, h2, ih]

/-- `a + k + 1` reached one step later. -/
theorem add_one_add (a : BitVec w) (k : Nat) : a + 1 + BitVec.ofNat w k = a + BitVec.ofNat w (k + 1) := by
  rw [BitVec.add_assoc]
  congr 1
  apply BitVec.eq_of_toNat_eq
  simp [BitVec.toNat_add, BitVec.toNat_ofNat, Nat.add_comm]

/-- A byte outside a store reads as before. -/
theorem Hart.byteAt_memWrite_of_outside {a b : BitVec w} (n v : Nat) (hb : ∀ k < n, b ≠ a + BitVec.ofNat w k) :
    (h.memWrite a n v).byteAt b = h.byteAt b := by
  induction n generalizing h a v with
  | zero => rfl
  | succ n ih =>
    rw [Hart.memWrite, ih, Hart.byteAt_storeByte_ne]
    · simpa using hb 0 (Nat.succ_pos n)
    · intro k hk
      rw [add_one_add]
      exact hb (k + 1) (Nat.succ_lt_succ hk)

/-- A tag of a granule no byte of a store lies in reads as before. -/
theorem Hart.tagAt_memWrite_of_outside {a b : BitVec w} (n v : Nat)
    (hb : ∀ k < n, granule b ≠ granule (a + BitVec.ofNat w k)) : (h.memWrite a n v).tagAt b = h.tagAt b := by
  induction n generalizing h a v with
  | zero => rfl
  | succ n ih =>
    rw [Hart.memWrite, ih, Hart.tagAt_storeByte_ne]
    · simpa using hb 0 (Nat.succ_pos n)
    · intro k hk
      rw [add_one_add]
      exact hb (k + 1) (Nat.succ_lt_succ hk)

/-- A byte outside a capability store reads as before. -/
theorem Hart.byteAt_memWriteCap_of_outside {a b : BitVec w} (c : Cap w)
    (hb : ∀ k < clenBytes w, b ≠ a + BitVec.ofNat w k) : (h.memWriteCap a c).byteAt b = h.byteAt b := by
  rw [Hart.memWriteCap, Hart.setTag_byteAt, h.byteAt_memWrite_of_outside _ _ hb]

/-- A tag of a granule no byte of a capability store lies in reads as before. -/
theorem Hart.tagAt_memWriteCap_of_outside {a b : BitVec w} (c : Cap w) (hn : 0 < clenBytes w)
    (hb : ∀ k < clenBytes w, granule b ≠ granule (a + BitVec.ofNat w k)) : (h.memWriteCap a c).tagAt b = h.tagAt b := by
  rw [Hart.memWriteCap, Hart.tagAt_setTag_ne, h.tagAt_memWrite_of_outside _ _ hb]
  simpa using hb 0 hn

end Sys2Proof.Machine
end

