-- ==== Sys2Proof/Laws/Checks.lean ====
section
/-!
SUPPORT. What the checks before an effect can do: pass, in which case the effect is the outcome, or stop. Under the
default `TrapModel` a stop is no next state, so a next state tells that every check passed.
-/

namespace Sys2Proof.Machine

variable {w : Nat} {h h' : Hart w}

/-! ## Ranges of addresses -/

/-- An access meets ranges exactly when one of its bytes lies in one. -/
theorem meetsAny_eq_false {rs : List Range} {a : BitVec w} {n : Nat} :
    meetsAny rs a n = false ↔ ∀ k < n, inAny rs (a + BitVec.ofNat w k) = false := by
  induction n generalizing a with
  | zero => simp [meetsAny]
  | succ n ih =>
    rw [meetsAny, Bool.or_eq_false_iff, ih]
    constructor
    · rintro ⟨h0, hs⟩ k hk
      cases k with
      | zero => simpa using h0
      | succ k => exact add_one_add a k ▸ hs k (Nat.lt_of_succ_lt_succ hk)
    · intro hs
      refine ⟨by simpa using hs 0 (Nat.succ_pos n), fun k hk => ?_⟩
      rw [add_one_add]
      exact hs (k + 1) (Nat.succ_lt_succ hk)

/-- No byte of a store off the program text is program text. -/
theorem Hart.offText_byte {a : BitVec w} {n j : Nat} (ho : h.offText a n) (hj : j < n) :
    ¬h.isText (a + BitVec.ofNat w j) 1 := by
  intro ht
  have hf := meetsAny_eq_false.mp ho j hj
  simp [Hart.isText, within, hf] at ht

/-! ## The infinite capability -/

/-- `INFINITE_CAP` is what its metadata say, however else they are listed. -/
theorem listed_of_infinite {cfg : Config w} {c : Cap w} (hc : infinite cfg c) : c.listed cfg = some cfg.infiniteForm := by
  simp only [Cap.listed, List.find?_cons]
  rw [show (cfg.infiniteForm.bits == c.form cfg) = true from beq_iff_eq.mpr hc.2.symm]

/-- `INFINITE_CAP` grants everything, everywhere. -/
theorem grantsAll_of_infinite {cfg : Config w} {c : Cap w} (hc : infinite cfg c) : grantsAll cfg c := by
  have hl := listed_of_infinite hc
  refine ⟨hc.1, ?_, ?_, ?_, ?_⟩ <;>
    simp [Cap.isSealed, Cap.rights, Cap.base, Cap.top, Cap.bounds, hl, Config.infiniteForm, c.addr.isLt]

/-- No `AuthCheck` lets a capability with tag 0 authorise anything (R80). -/
theorem authCheck_of_untagged {cfg : Config w} {c : Cap w} {k : AccessKind} {a : BitVec w} {n : Nat} (hc : c.tag = false) :
    authCheck cfg c k a n = some .tag := by
  unfold authCheck
  split <;> simp [authCheckDefault, hc]

/-- No `AuthCheck` lets anything authorise an access past 2^XLEN (R80). -/
theorem authCheck_past_top {cfg : Config w} {c : Cap w} {k : AccessKind} {a : BitVec w} {n : Nat}
    (hn : 2 ^ w < a.toNat + n) : authCheck cfg c k a n ≠ none := by
  have ht : c.top cfg < a.toNat + n := Nat.lt_of_le_of_lt (Nat.min_le_right _ _) hn
  unfold authCheck authCheckDefault
  split <;> split_ifs <;> simp_all

/-- What every `AuthCheck` says of `INFINITE_CAP`: it authorises every access to every address (R5) that does not run past
2^XLEN (R80). -/
theorem authCheck_of_infinite {cfg : Config w} {c : Cap w} {k : AccessKind} {a : BitVec w} {n : Nat} (hc : infinite cfg c) :
    authCheck cfg c k a n = if 2 ^ w < a.toNat + n then some .bounds else none := by
  obtain ⟨h1, h2, h3, h4, h5⟩ := grantsAll_of_infinite hc
  have hi : c.isInfinite cfg = true := by
    rw [Cap.isInfinite, h1, Bool.true_and]
    exact beq_iff_eq.mpr hc.2
  unfold authCheck
  split
  · unfold authCheckDefault
    rw [h1, h2, h3, h4, h5]
    cases k <;> simp [AccessKind.permitted]
  · simp [h1, hi]

/-! ## When a check passes -/

/-- A passed capability check goes on. -/
theorem Hart.check_pass {c : Cap w} {k : AccessKind} {a : BitVec w} {n : Nat} {kd : CheckKind} {r : Res w}
    (hc : authCheck h.cfg c k a n = none) : h.check c k a n kd r = r := by simp only [Hart.check, hc]

/-- A failed capability check raises its violation. -/
theorem Hart.check_fail {c : Cap w} {k : AccessKind} {a : BitVec w} {n : Nat} {kd : CheckKind} {r : Res w} {v : Violation}
    (hc : authCheck h.cfg c k a n = some v) : h.check c k a n kd r = h.raise (.cheri v kd) := by
  simp only [Hart.check, hc]

/-- With CHERI access enabled a CHERI instruction goes on. -/
theorem Hart.needCheri_pass {r : Res w} (he : h.cheriEnabled = true) : h.needCheri r = r := by
  simp only [Hart.needCheri, he, if_true]

/-- With CHERI access disabled a CHERI instruction is illegal. -/
theorem Hart.needCheri_fail {r : Res w} (he : h.cheriEnabled = false) :
    h.needCheri r = h.raise (.illegal h.fetchedWord) := by
  simp [Hart.needCheri, he, Hart.illegal]

/-- Under the alignment policy a base access goes on. -/
theorem Hart.needAligned_pass {ea : BitVec w} {n : Nat} {e : Exn} {r : Res w} (ha : h.alignmentAllows ea n) :
    h.needAligned ea n e r = r := by
  rcases ha with ha | ha <;> simp [Hart.needAligned, ha]

/-- LC and SC at a multiple of the granule go on. -/
theorem Hart.needCapAligned_pass {ea : BitVec w} {e : Exn} {r : Res w} (ha : ea.toNat % clenBytes w = 0) :
    h.needCapAligned ea e r = r := if_pos ha

/-- Backed memory goes on. -/
theorem Hart.needBacked_pass {a : BitVec w} {n : Nat} {r : Res w} (hb : h.backed a n) : h.needBacked a n r = r := by
  rw [Hart.backed] at hb
  simp [Hart.needBacked, hb]

/-- A store off the program text goes on. -/
theorem Hart.needNoText_pass {a : BitVec w} {n : Nat} {r : Res w} (hb : h.offText a n) : h.needNoText a n r = r := by
  rw [Hart.offText] at hb
  simp [Hart.needNoText, hb]

/-- Memory that is not backed is refused. -/
theorem Hart.needBacked_fail {a : BitVec w} {n : Nat} {r : Res w} (hb : ¬h.backed a n) :
    h.needBacked a n r = .refused (.unbacked a.toNat) := by
  rw [Hart.backed, Bool.not_eq_false] at hb
  simp [Hart.needBacked, hb]

/-- A store over the program text is refused. -/
theorem Hart.needNoText_fail {a : BitVec w} {n : Nat} {r : Res w} (hb : ¬h.offText a n) :
    h.needNoText a n r = .refused (.programText a.toNat) := by
  rw [Hart.offText, Bool.not_eq_false] at hb
  simp [Hart.needNoText, hb]

/-- An allowed base load goes on (R80). -/
theorem Hart.needLoad_pass {n : Nat} {rs1 : Reg} {ea : BitVec w} {r : Res w} (ha : h.loadAllowedAt n rs1 ea) :
    h.needLoad n rs1 ea r = r :=
  (Hart.check_pass ha.1).trans ((Hart.needAligned_pass ha.2.1).trans (Hart.needBacked_pass ha.2.2))

/-- An allowed base store goes on (R80). -/
theorem Hart.needStore_pass {n : Nat} {rs1 : Reg} {ea : BitVec w} {r : Res w} (ha : h.storeAllowedAt n rs1 ea) :
    h.needStore n rs1 ea r = r :=
  (Hart.check_pass ha.1).trans ((Hart.needAligned_pass ha.2.1).trans ((Hart.needBacked_pass ha.2.2.1).trans
    (Hart.needNoText_pass ha.2.2.2)))

/-- An allowed capability load goes on (R140). -/
theorem Hart.needLoadCap_pass {rs1 : Reg} {ea : BitVec w} {r : Res w} (ha : h.capAllowedAt .loadCap rs1 ea) :
    h.needLoadCap rs1 ea r = r :=
  (Hart.check_pass ha.1).trans ((Hart.needCapAligned_pass ha.2.1).trans (Hart.needBacked_pass ha.2.2))

/-- An allowed capability store goes on (R141). -/
theorem Hart.needStoreCap_pass {rs1 : Reg} {ea : BitVec w} {r : Res w} (ha : h.capAllowedAt .storeCap rs1 ea)
    (ht : h.offText ea (clenBytes w)) : h.needStoreCap rs1 ea r = r :=
  (Hart.check_pass ha.1).trans ((Hart.needCapAligned_pass ha.2.1).trans ((Hart.needBacked_pass ha.2.2).trans
    (Hart.needNoText_pass ht)))

/-- An allowed target goes on. -/
theorem Hart.checkTarget_pass {t : BitVec w} {r : Res w} (ht : h.targetAllowed t) : h.checkTarget t r = r := by
  rw [Hart.checkTarget, Hart.check_pass ht.1, if_pos ht.2]

/-- An allowed CSR access goes on with the CSR's description. -/
theorem Hart.csrChecked_pass {a : CsrAddr} {wr : Bool} {d : CsrDesc} {f : CsrDesc → Res w}
    (ha : h.csrAllowed a wr d) : h.csrChecked a wr f = f d := by
  obtain ⟨h1, h2, h3, h4, h5⟩ := ha
  have e1 : (!privSuffices h.priv a || (wr && csrReadOnly a)) = false := by
    cases wr
    · simp [privSuffices, h2]
    · simpa [privSuffices, h2, csrReadOnly] using h3 rfl
  have e2 : (capAccess h.mode d.cls && !h.cheriEnabled) = false := by
    cases hc : capAccess h.mode d.cls
    · rfl
    · simp [h4 hc]
  have e3 : (d.needsAsr && !h.pcc.permAsr h.cfg) = false := by
    cases hc : d.needsAsr
    · rfl
    · simp [h5 hc]
  simp [Hart.csrChecked, h1, e1, e2, e3]

/-! ## What a next state tells -/

/-- Under the default trap model no handler is entered (R180). -/
theorem Hart.not_entered (ht : h.cfg.trap = .terminal) : ¬h.Entered h' := by
  rintro ⟨t, e, hh, -⟩
  rw [ht] at hh
  cases hh

/-- A next state of an exception is a handler's. -/
theorem Hart.raise_next {e : Exn} (hr : h.raise e = .next h') : h.Entered h' := by
  unfold Hart.raise at hr
  split at hr
  · cases hr
  · cases hr
    exact ⟨_, _, ‹_›, rfl⟩

/-- A next state after a capability check: a handler's, or the check passed. -/
theorem Hart.check_next {c : Cap w} {k : AccessKind} {a : BitVec w} {n : Nat} {kd : CheckKind} {r : Res w}
    (hr : h.check c k a n kd r = .next h') : h.Entered h' ∨ authCheck h.cfg c k a n = none ∧ r = .next h' := by
  unfold Hart.check at hr
  split at hr
  · exact Or.inr ⟨‹_›, hr⟩
  · exact Or.inl (Hart.raise_next hr)

/-- A next state of a CHERI instruction: a handler's, or CHERI access is enabled. -/
theorem Hart.needCheri_next {r : Res w} (hr : h.needCheri r = .next h') :
    h.Entered h' ∨ h.cheriEnabled = true ∧ r = .next h' := by
  unfold Hart.needCheri at hr
  split at hr
  · exact Or.inr ⟨‹_›, hr⟩
  · exact Or.inl (Hart.raise_next hr)

/-- A next state after the alignment policy: a handler's, or it allowed the access. -/
theorem Hart.needAligned_next {ea : BitVec w} {n : Nat} {e : Exn} {r : Res w}
    (hr : h.needAligned ea n e r = .next h') : h.Entered h' ∨ h.alignmentAllows ea n ∧ r = .next h' := by
  unfold Hart.needAligned at hr
  split at hr
  · exact Or.inr ⟨Or.inl ‹_›, hr⟩
  · split at hr
    · cases hr
    · exact Or.inl (Hart.raise_next hr)
    · exact Or.inr ⟨Or.inr ‹_›, hr⟩

/-- A next state of LC or SC: a handler's, or the address is a multiple of the granule. -/
theorem Hart.needCapAligned_next {ea : BitVec w} {e : Exn} {r : Res w} (hr : h.needCapAligned ea e r = .next h') :
    h.Entered h' ∨ ea.toNat % clenBytes w = 0 ∧ r = .next h' := by
  unfold Hart.needCapAligned at hr
  split at hr
  · exact Or.inr ⟨‹_›, hr⟩
  · exact Or.inl (Hart.raise_next hr)

/-- A next state of an access: the memory is backed. -/
theorem Hart.needBacked_next {a : BitVec w} {n : Nat} {r : Res w} (hr : h.needBacked a n r = .next h') :
    h.backed a n ∧ r = .next h' := by
  unfold Hart.needBacked at hr
  split at hr
  · cases hr
  · exact ⟨Bool.eq_false_of_not_eq_true ‹_›, hr⟩

/-- A next state of a store: it is off the program text. -/
theorem Hart.needNoText_next {a : BitVec w} {n : Nat} {r : Res w} (hr : h.needNoText a n r = .next h') :
    h.offText a n ∧ r = .next h' := by
  unfold Hart.needNoText at hr
  split at hr
  · cases hr
  · exact ⟨Bool.eq_false_of_not_eq_true ‹_›, hr⟩

/-- A next state of a base load: a handler's, or the load is allowed (R80). -/
theorem Hart.needLoad_next {n : Nat} {rs1 : Reg} {ea : BitVec w} {r : Res w} (hr : h.needLoad n rs1 ea r = .next h') :
    h.Entered h' ∨ h.loadAllowedAt n rs1 ea ∧ r = .next h' := by
  rcases Hart.check_next hr with he | ⟨h1, hr⟩
  · exact Or.inl he
  · rcases Hart.needAligned_next hr with he | ⟨h2, hr⟩
    · exact Or.inl he
    · obtain ⟨h3, hr⟩ := Hart.needBacked_next hr
      exact Or.inr ⟨⟨h1, h2, h3⟩, hr⟩

/-- A next state of a base store: a handler's, or the store is allowed (R80). -/
theorem Hart.needStore_next {n : Nat} {rs1 : Reg} {ea : BitVec w} {r : Res w} (hr : h.needStore n rs1 ea r = .next h') :
    h.Entered h' ∨ h.storeAllowedAt n rs1 ea ∧ r = .next h' := by
  rcases Hart.check_next hr with he | ⟨h1, hr⟩
  · exact Or.inl he
  · rcases Hart.needAligned_next hr with he | ⟨h2, hr⟩
    · exact Or.inl he
    · obtain ⟨h3, hr⟩ := Hart.needBacked_next hr
      obtain ⟨h4, hr⟩ := Hart.needNoText_next hr
      exact Or.inr ⟨⟨h1, h2, h3, h4⟩, hr⟩

/-- A next state of a capability load: a handler's, or the load is allowed (R140). -/
theorem Hart.needLoadCap_next {rs1 : Reg} {ea : BitVec w} {r : Res w} (hr : h.needLoadCap rs1 ea r = .next h') :
    h.Entered h' ∨ h.capAllowedAt .loadCap rs1 ea ∧ r = .next h' := by
  rcases Hart.check_next hr with he | ⟨h1, hr⟩
  · exact Or.inl he
  · rcases Hart.needCapAligned_next hr with he | ⟨h2, hr⟩
    · exact Or.inl he
    · obtain ⟨h3, hr⟩ := Hart.needBacked_next hr
      exact Or.inr ⟨⟨h1, h2, h3⟩, hr⟩

/-- A next state of a capability store: a handler's, or the store is allowed (R141). -/
theorem Hart.needStoreCap_next {rs1 : Reg} {ea : BitVec w} {r : Res w} (hr : h.needStoreCap rs1 ea r = .next h') :
    h.Entered h' ∨ (h.capAllowedAt .storeCap rs1 ea ∧ h.offText ea (clenBytes w)) ∧ r = .next h' := by
  rcases Hart.check_next hr with he | ⟨h1, hr⟩
  · exact Or.inl he
  · rcases Hart.needCapAligned_next hr with he | ⟨h2, hr⟩
    · exact Or.inl he
    · obtain ⟨h3, hr⟩ := Hart.needBacked_next hr
      obtain ⟨h4, hr⟩ := Hart.needNoText_next hr
      exact Or.inr ⟨⟨⟨h1, h2, h3⟩, h4⟩, hr⟩

/-- A next state of a transfer: a handler's, or the target is allowed. -/
theorem Hart.checkTarget_next {t : BitVec w} {r : Res w} (hr : h.checkTarget t r = .next h') :
    h.Entered h' ∨ h.targetAllowed t ∧ r = .next h' := by
  rcases Hart.check_next hr with he | ⟨hc, hr⟩
  · exact Or.inl he
  · split at hr
    · exact Or.inr ⟨⟨hc, ‹_›⟩, hr⟩
    · exact Or.inl (Hart.raise_next hr)

/-- A next state of a CSR instruction: a handler's, or the access is allowed. -/
theorem Hart.csrChecked_next {a : CsrAddr} {wr : Bool} {f : CsrDesc → Res w}
    (hr : h.csrChecked a wr f = .next h') : h.Entered h' ∨ ∃ d, h.csrAllowed a wr d ∧ f d = .next h' := by
  unfold Hart.csrChecked at hr
  split at hr
  · exact Or.inl (Hart.raise_next hr)
  · rename_i d hd
    split at hr
    · exact Or.inl (Hart.raise_next hr)
    · rename_i h1
      split at hr
      · exact Or.inl (Hart.raise_next hr)
      · rename_i h2
        split at hr
        · exact Or.inl (Hart.raise_next hr)
        · rename_i h3
          refine Or.inr ⟨d, ⟨hd, ?_, ?_, ?_, ?_⟩, hr⟩ <;> simp_all [privSuffices, csrReadOnly]

end Sys2Proof.Machine
end

