-- ==== Sys2Proof/Laws/Effects.lean ====
section
/-!
SUPPORT. Everything each shared operation can do when it answers a next state: enter a trap handler, or have its effect,
whose conditions then hold. Proofs cite these instead of unfolding an operation.
-/

namespace Sys2Proof.Machine

variable {w : Nat} {h h' : Hart w}

/-- An allowed base load has its effect (R80). -/
theorem Hart.load_pass {n : Nat} {sg : Bool} {rd rs1 : Reg} {imm : BitVec 12} (ha : h.loadAllowed n rs1 imm) :
    Hart.load n sg rd rs1 imm h = .next (h.setX rd (h.loaded n sg (h.effAddr rs1 imm))).advance := Hart.needLoad_pass ha

/-- An allowed base store has its effect (R80). -/
theorem Hart.store_pass {n : Nat} {rs2 rs1 : Reg} {imm : BitVec 12} (ha : h.storeAllowed n rs1 imm) :
    Hart.store n rs2 rs1 imm h = .next (h.memWrite (h.effAddr rs1 imm) n (h.x rs2).toNat).advance :=
  Hart.needStore_pass ha

/-- A base load (R80). -/
theorem Hart.load_next {n : Nat} {sg : Bool} {rd rs1 : Reg} {imm : BitVec 12}
    (hr : Hart.load n sg rd rs1 imm h = .next h') :
    h.Entered h' ∨ h.loadAllowed n rs1 imm ∧ h' = (h.setX rd (h.loaded n sg (h.effAddr rs1 imm))).advance := by
  rcases Hart.needLoad_next hr with he | ⟨h1, hr⟩
  · exact Or.inl he
  · cases hr
    exact Or.inr ⟨h1, rfl⟩

/-- A base store (R80). -/
theorem Hart.store_next {n : Nat} {rs2 rs1 : Reg} {imm : BitVec 12} (hr : Hart.store n rs2 rs1 imm h = .next h') :
    h.Entered h' ∨
      h.storeAllowed n rs1 imm ∧ h' = (h.memWrite (h.effAddr rs1 imm) n (h.x rs2).toNat).advance := by
  rcases Hart.needStore_next hr with he | ⟨h1, hr⟩
  · exact Or.inl he
  · cases hr
    exact Or.inr ⟨h1, rfl⟩

/-- A conditional branch (R101). -/
theorem Hart.branch_next {taken : Bool} {off : BitVec 13} (hr : Hart.branch taken off h = .next h') :
    h.Entered h' ∨ taken = true ∧ h.targetAllowed (h.branchTarget off) ∧ h' = h.setPc (h.branchTarget off) ∨
      taken = false ∧ h' = h.advance := by
  unfold Hart.branch at hr
  split at hr
  · rcases Hart.checkTarget_next hr with he | ⟨h1, hr⟩
    · exact Or.inl he
    · cases hr
      exact Or.inr (Or.inl ⟨‹_›, h1, rfl⟩)
  · cases hr
    exact Or.inr (Or.inr ⟨Bool.eq_false_of_not_eq_true ‹_›, rfl⟩)

/-- JAL (R107). -/
theorem Hart.jal_next {rd : Reg} {off : BitVec 21} (hr : Hart.jal rd off h = .next h') :
    h.Entered h' ∨ h.targetAllowed (h.jalTarget off) ∧ h' = (h.setC rd h.jalLink).setPc (h.jalTarget off) := by
  rcases Hart.checkTarget_next hr with he | ⟨h1, hr⟩
  · exact Or.inl he
  · cases hr
    exact Or.inr ⟨h1, rfl⟩

/-- JALR, in either mode (R109, R110). -/
theorem Hart.jalr_next {rd rs1 : Reg} {imm : BitVec 12} (hr : Hart.jalr rd rs1 imm h = .next h') :
    h.Entered h' ∨
      h.mode = .int ∧ h.targetAllowed (h.jalrTarget rs1 imm) ∧
        h' = (h.setX rd h.nextPc).setPc (h.jalrTarget rs1 imm) ∨
      h.mode = .cap ∧ h.jalrPccFailure (h.jalrTarget rs1 imm) = none ∧
        h.jalrFailure (h.creg rs1) imm (h.jalrTarget rs1 imm) = none ∧
        (h.jalrTarget rs1 imm).toNat % h.cfg.minInsn.bytes = 0 ∧
        h' = (h.setC rd (h.jalrLink (h.creg rs1) imm)).setPcc
          (h.jalrInstalled (h.creg rs1) imm (h.jalrTarget rs1 imm)) := by
  unfold Hart.jalr at hr
  split at hr
  · rename_i hm
    simp only [Hart.jalrCapMode, Hart.jalrCap] at hr
    cases hp : h.jalrPccFailure (h.jalrTarget rs1 imm) with
    | some v =>
      rw [hp] at hr
      exact Or.inl (Hart.raise_next hr)
    | none =>
      rw [hp] at hr
      cases hf : h.jalrFailure (h.creg rs1) imm (h.jalrTarget rs1 imm) with
      | some v =>
        rw [hf] at hr
        exact Or.inl (Hart.raise_next hr)
      | none =>
        rw [hf] at hr
        by_cases ha : (h.jalrTarget rs1 imm).toNat % h.cfg.minInsn.bytes = 0
        · simp only [ha, if_true] at hr
          cases hr
          exact Or.inr (Or.inr ⟨hm, rfl, rfl, ha, rfl⟩)
        · simp only [ha, if_false] at hr
          exact Or.inl (Hart.raise_next hr)
  · rename_i hm
    rcases Hart.checkTarget_next hr with he | ⟨h1, hr⟩
    · exact Or.inl he
    · cases hr
      exact Or.inr (Or.inl ⟨hm, h1, rfl⟩)

/-- The address of an installed target is the target address (R109). -/
@[simp] theorem Hart.jalrInstalled_addr (c : Cap w) (imm : BitVec 12) (t : BitVec w) :
    (h.jalrInstalled c imm t).addr = t := by
  unfold Hart.jalrInstalled
  split <;> rfl

/-- The tag of an installed target is the operand's (R109). -/
@[simp] theorem Hart.jalrInstalled_tag (c : Cap w) (imm : BitVec 12) (t : BitVec w) :
    (h.jalrInstalled c imm t).tag = c.tag := by
  unfold Hart.jalrInstalled
  split <;> rfl

/-- An unsealed operand is installed whole (R109). -/
theorem Hart.jalrInstalled_unsealed {c : Cap w} (imm : BitVec 12) (t : BitVec w) (hc : c.isSealed h.cfg = false) :
    h.jalrInstalled c imm t = Cap.withAddr c t := by simp [Hart.jalrInstalled, hc]

/-- The link's address is the return address (log 9). -/
@[simp] theorem Hart.linkCap_addr (ret : BitVec w) : (h.linkCap ret).addr = ret := by
  unfold Hart.linkCap
  split <;> rfl

/-- The link's address is the return address (log 9). -/
@[simp] theorem Hart.jalrLink_addr (c : Cap w) (imm : BitVec 12) : (h.jalrLink c imm).addr = h.nextPc := by
  unfold Hart.jalrLink
  split
  · exact Hart.linkCap_addr _
  · rfl

/-- SCMODE (R120). -/
theorem Hart.scmode_next {cd cs1 rs2 : Reg} (hr : Hart.scmode cd cs1 rs2 h = .next h') :
    h.Entered h' ∨ h.cheriEnabled = true ∧
      h' = (h.setC cd (scmodeResult h.cfg (h.creg cs1) ((h.x rs2).getLsbD 0))).advance := by
  rcases Hart.needCheri_next hr with he | ⟨h1, hr⟩
  · exact Or.inl he
  · cases hr
    exact Or.inr ⟨h1, rfl⟩

/-- GCMODE (R121). -/
theorem Hart.gcmode_next {rd cs1 : Reg} (hr : Hart.gcmode rd cs1 h = .next h') :
    h.Entered h' ∨ h.cheriEnabled = true ∧ h' = (h.setX rd (gcmodeResult h.cfg (h.creg cs1))).advance := by
  rcases Hart.needCheri_next hr with he | ⟨h1, hr⟩
  · exact Or.inl he
  · cases hr
    exact Or.inr ⟨h1, rfl⟩

/-- GCTAG (R125). -/
theorem Hart.gctag_next {rd cs1 : Reg} (hr : Hart.gctag rd cs1 h = .next h') :
    h.Entered h' ∨ h.cheriEnabled = true ∧ h' = (h.setX rd (bitToWord (h.creg cs1).tag)).advance := by
  rcases Hart.needCheri_next hr with he | ⟨h1, hr⟩
  · exact Or.inl he
  · cases hr
    exact Or.inr ⟨h1, rfl⟩

/-- MODESW.CAP (R122). -/
theorem Hart.modeswCap_next (hr : h.modeswCap = .next h') :
    h.Entered h' ∨ h.cheriEnabled = true ∧ h.mode = .int ∧ h' = h.switchM h.cfg.capModeValue := by
  rcases Hart.needCheri_next hr with he | ⟨h1, hr⟩
  · exact Or.inl he
  · split at hr
    · cases hr
      exact Or.inr ⟨h1, ‹_›, rfl⟩
    · cases hr

/-- MODESW.INT (R123). -/
theorem Hart.modeswInt_next (hr : h.modeswInt = .next h') :
    h.Entered h' ∨ h.mode = .cap ∧ h' = h.switchM (!h.cfg.capModeValue) := by
  unfold Hart.modeswInt at hr
  split at hr
  · cases hr
    exact Or.inr ⟨‹_›, rfl⟩
  · rcases Hart.needCheri_next hr with he | ⟨-, hr⟩
    · exact Or.inl he
    · cases hr

/-- LC (R140). -/
theorem Hart.lc_next {cd rs1 : Reg} {imm : BitVec 12} (hr : Hart.lc cd rs1 imm h = .next h') :
    h.Entered h' ∨ h.capAccessAllowed .loadCap rs1 imm ∧
      h' = (h.setC cd (loadCapFilter h.cfg (h.dataAuth rs1) (h.memReadCap (h.effAddr rs1 imm)))).advance := by
  rcases Hart.needCheri_next hr with he | ⟨h1, hr⟩
  · exact Or.inl he
  · rcases Hart.needLoadCap_next hr with he | ⟨h2, hr⟩
    · exact Or.inl he
    · cases hr
      exact Or.inr ⟨⟨h1, h2⟩, rfl⟩

/-- SC (R141). -/
theorem Hart.sc_next {cs2 rs1 : Reg} {imm : BitVec 12} (hr : Hart.sc cs2 rs1 imm h = .next h') :
    h.Entered h' ∨ h.capAccessAllowed .storeCap rs1 imm ∧ h.offText (h.effAddr rs1 imm) (clenBytes w) ∧
      h' = (h.memWriteCap (h.effAddr rs1 imm) (storeCapFilter h.cfg (h.dataAuth rs1) (h.creg cs2))).advance := by
  rcases Hart.needCheri_next hr with he | ⟨h1, hr⟩
  · exact Or.inl he
  · rcases Hart.needStoreCap_next hr with he | ⟨⟨h2, h3⟩, hr⟩
    · exact Or.inl he
    · cases hr
      exact Or.inr ⟨⟨h1, h2⟩, h3, rfl⟩

/-- CSRRW (R157 to R159). -/
theorem Hart.csrrw_next {rd rs1 : Reg} {a : CsrAddr} (hr : Hart.csrrw rd rs1 a h = .next h') :
    h.Entered h' ∨ ∃ d, h.csrAllowed a true d ∧ h' = ((h.csrrwWrite rs1 a d).csrToReg h rd a d).advance := by
  rcases Hart.csrChecked_next hr with he | ⟨d, h1, hr⟩
  · exact Or.inl he
  · cases hr
    exact Or.inr ⟨d, h1, rfl⟩

/-- The other five CSR instructions (R160 to R164). -/
theorem Hart.csrModify_next {rd : Reg} {f : BitVec w → BitVec w} {wr : Bool} {a : CsrAddr}
    (hr : Hart.csrModify rd f wr a h = .next h') :
    h.Entered h' ∨ ∃ d, h.csrAllowed a wr d ∧
      h' = ((if wr then h.csrUpdate f a d else h).csrToReg h rd a d).advance := by
  rcases Hart.csrChecked_next hr with he | ⟨d, h1, hr⟩
  · exact Or.inl he
  · cases hr
    exact Or.inr ⟨d, h1, rfl⟩

end Sys2Proof.Machine
end

