-- ==== Sys2Proof/Laws/Delegate.lean ====
section
/-!
SUPPORT. What an instruction of `CapModeStep` (R5) can change and cannot.
-/

namespace Sys2Proof.Machine

variable {w : Nat} {h h' : Hart w}

/-! ## What its writes leave alone -/

@[simp] theorem Hart.makeStore_cfg (a : BaseAccess w) (d : Datum) : (h.makeStore a d).cfg = h.cfg := by
  unfold Hart.makeStore; split <;> simp

@[simp] theorem Hart.makeStore_c (a : BaseAccess w) (d : Datum) : (h.makeStore a d).c = h.c := by
  unfold Hart.makeStore; split <;> simp

@[simp] theorem Hart.makeStore_pcc (a : BaseAccess w) (d : Datum) : (h.makeStore a d).pcc = h.pcc := by
  unfold Hart.makeStore; split <;> simp

@[simp] theorem Hart.makeStore_ddc (a : BaseAccess w) (d : Datum) : (h.makeStore a d).ddc = h.ddc := by
  unfold Hart.makeStore; split <;> simp

@[simp] theorem Hart.makeStore_capCsrs (a : BaseAccess w) (d : Datum) : (h.makeStore a d).capCsrs = h.capCsrs := by
  unfold Hart.makeStore; split <;> simp

@[simp] theorem Hart.makeStore_ordCsrs (a : BaseAccess w) (d : Datum) : (h.makeStore a d).ordCsrs = h.ordCsrs := by
  unfold Hart.makeStore; split <;> simp

@[simp] theorem Hart.makeStore_priv (a : BaseAccess w) (d : Datum) : (h.makeStore a d).priv = h.priv := by
  unfold Hart.makeStore; split <;> simp

/-- Stores change memory and tags alone. -/
theorem Hart.makeStores_eq (ps : List (BaseAccess w × Datum)) :
    h.makeStores ps = { h with mem := (h.makeStores ps).mem, tags := (h.makeStores ps).tags } := by
  induction ps generalizing h with
  | nil => rfl
  | cons p ps ih =>
    rw [Hart.makeStores, ih]
    simp only [Hart.makeStore_cfg, Hart.makeStore_c, Hart.makeStore_pcc, Hart.makeStore_ddc, Hart.makeStore_capCsrs,
      Hart.makeStore_ordCsrs, Hart.makeStore_priv]

/-- Register writes change registers alone. -/
theorem Hart.makeRegs_eq (t : Bool) (ps : List (Reg × Cap w)) : h.makeRegs t ps = { h with c := (h.makeRegs t ps).c } := by
  induction ps generalizing h with
  | nil => rfl
  | cons p ps ih =>
    rw [Hart.makeRegs, ih]
    simp only [Hart.setC_cfg, Hart.setC_pcc, Hart.setC_ddc, Hart.setC_capCsrs, Hart.setC_ordCsrs, Hart.setC_priv,
      Hart.setC_mem, Hart.setC_tags]

/-- The writes of an instruction of `CapModeStep` change registers, memory and tags alone: no CSR (R154), `ddc` among
them (R51), no part of `pcc` (R18), neither privilege nor parameters. -/
theorem Hart.baseWritten_eq (t : Bool) (e : BaseEffect w) :
    h.baseWritten t e = { h with c := (h.baseWritten t e).c, mem := (h.makeStores e.stores).mem, tags := (h.makeStores e.stores).tags } := by
  rw [Hart.baseWritten, Hart.makeRegs_eq, Hart.makeStores_eq]

@[simp] theorem Hart.baseWritten_cfg (t : Bool) (e : BaseEffect w) : (h.baseWritten t e).cfg = h.cfg := by
  rw [Hart.baseWritten_eq]

@[simp] theorem Hart.baseWritten_pcc (t : Bool) (e : BaseEffect w) : (h.baseWritten t e).pcc = h.pcc := by
  rw [Hart.baseWritten_eq]

@[simp] theorem Hart.baseWritten_ddc (t : Bool) (e : BaseEffect w) : (h.baseWritten t e).ddc = h.ddc := by
  rw [Hart.baseWritten_eq]

@[simp] theorem Hart.baseWritten_capCsrs (t : Bool) (e : BaseEffect w) : (h.baseWritten t e).capCsrs = h.capCsrs := by
  rw [Hart.baseWritten_eq]

@[simp] theorem Hart.baseWritten_ordCsrs (t : Bool) (e : BaseEffect w) : (h.baseWritten t e).ordCsrs = h.ordCsrs := by
  rw [Hart.baseWritten_eq]

@[simp] theorem Hart.baseWritten_priv (t : Bool) (e : BaseEffect w) : (h.baseWritten t e).priv = h.priv := by
  rw [Hart.baseWritten_eq]

@[simp] theorem Hart.baseWritten_mem (t : Bool) (e : BaseEffect w) :
    (h.baseWritten t e).mem = (h.makeStores e.stores).mem := by rw [Hart.baseWritten_eq]

@[simp] theorem Hart.baseWritten_tags (t : Bool) (e : BaseEffect w) :
    (h.baseWritten t e).tags = (h.makeStores e.stores).tags := by rw [Hart.baseWritten_eq]

/-- Its stores keep memory canonical. -/
theorem Memory.wf_makeStores (ps : List (BaseAccess w × Datum)) (hw : Memory.wf h = true) :
    Memory.wf (h.makeStores ps) = true := by
  induction ps generalizing h with
  | nil => exact hw
  | cons p ps ih =>
    refine ih ?_
    unfold Hart.makeStore
    split
    · exact Memory.wf_memWrite h _ _ _ hw
    · exact Memory.wf_memWriteCap h _ _ hw

/-! ## When the checks pass -/

/-- An allowed load goes on. -/
theorem Hart.needBaseLoad_pass {a : BaseAccess w} {r : Res w} (ha : h.baseLoadAllowed a) : h.needBaseLoad a r = r := by
  unfold Hart.baseLoadAllowed at ha
  unfold Hart.needBaseLoad
  cases hs : a.size <;> simp only [hs] at ha ⊢
  · exact Hart.needLoad_pass ha
  · exact Hart.needLoadCap_pass ha

/-- After allowed loads the next one is checked. -/
theorem Hart.needBaseLoads_append {as bs : List (BaseAccess w)} {r : Res w} (ha : ∀ a ∈ as, h.baseLoadAllowed a) :
    h.needBaseLoads r (as ++ bs) = h.needBaseLoads r bs := by
  induction as with
  | nil => rfl
  | cons a as ih =>
    obtain ⟨h1, h2⟩ := List.forall_mem_cons.mp ha
    exact (Hart.needBaseLoad_pass h1).trans (ih h2)

/-- Allowed loads go on. -/
theorem Hart.needBaseLoads_pass {as : List (BaseAccess w)} {r : Res w} (ha : ∀ a ∈ as, h.baseLoadAllowed a) :
    h.needBaseLoads r as = r := by
  simpa [Hart.needBaseLoads] using Hart.needBaseLoads_append (bs := []) (r := r) ha

/-- An allowed store goes on. -/
theorem Hart.needBaseStore_pass {a : BaseAccess w} {r : Res w} (ha : h.baseStoreAllowed a) : h.needBaseStore a r = r := by
  unfold Hart.baseStoreAllowed at ha
  unfold Hart.needBaseStore
  cases hs : a.size <;> simp only [hs] at ha ⊢
  · exact Hart.needStore_pass ha
  · exact Hart.needStoreCap_pass ha.1 ha.2

/-- After allowed stores the next one is checked. -/
theorem Hart.needBaseStores_append {ps qs : List (BaseAccess w × Datum)} {r : Res w}
    (ha : ∀ p ∈ ps, h.baseStoreAllowed p.1) : h.needBaseStores r (ps ++ qs) = h.needBaseStores r qs := by
  induction ps with
  | nil => rfl
  | cons p ps ih =>
    obtain ⟨h1, h2⟩ := List.forall_mem_cons.mp ha
    exact (Hart.needBaseStore_pass h1).trans (ih h2)

/-- Allowed stores go on. -/
theorem Hart.needBaseStores_pass {ps : List (BaseAccess w × Datum)} {r : Res w} (ha : ∀ p ∈ ps, h.baseStoreAllowed p.1) :
    h.needBaseStores r ps = r := by
  simpa [Hart.needBaseStores] using Hart.needBaseStores_append (qs := []) (r := r) ha

/-- With its stores and its target allowed the effect happens. -/
theorem Hart.baseEffect_pass {t : Bool} {e : BaseEffect w} (hs : ∀ p ∈ e.stores, h.baseStoreAllowed p.1)
    (ht : ∀ a, e.target = some a → h.targetAllowed a) :
    h.baseEffect t e = .next ((h.baseWritten t e).setPc (e.target.getD h.nextPc)) := by
  rw [Hart.baseEffect, Hart.needBaseStores_pass hs]
  cases he : e.target with
  | none =>
    simp only [Option.getD_none, Hart.advance, Hart.nextPc, Hart.pc, Hart.baseWritten_pcc]
  | some a => exact Hart.checkTarget_pass (ht a he)

/-! ## What a next state tells -/

/-- A next state after a load's checks: a handler's, or the load is allowed. -/
theorem Hart.needBaseLoad_next {a : BaseAccess w} {r : Res w} (hr : h.needBaseLoad a r = .next h') :
    h.Entered h' ∨ h.baseLoadAllowed a ∧ r = .next h' := by
  unfold Hart.baseLoadAllowed
  unfold Hart.needBaseLoad at hr
  cases hs : a.size <;> simp only [hs] at hr ⊢
  · exact Hart.needLoad_next hr
  · exact Hart.needLoadCap_next hr

/-- A next state after all loads' checks: a handler's, or each load is allowed. -/
theorem Hart.needBaseLoads_next {as : List (BaseAccess w)} {r : Res w} (hr : h.needBaseLoads r as = .next h') :
    h.Entered h' ∨ (∀ a ∈ as, h.baseLoadAllowed a) ∧ r = .next h' := by
  induction as with
  | nil => exact Or.inr ⟨fun _ hm => absurd hm List.not_mem_nil, hr⟩
  | cons a as ih =>
    rcases Hart.needBaseLoad_next hr with he | ⟨h1, hr⟩
    · exact Or.inl he
    · rcases ih hr with he | ⟨h2, hr⟩
      · exact Or.inl he
      · exact Or.inr ⟨List.forall_mem_cons.mpr ⟨h1, h2⟩, hr⟩

/-- A next state after a store's checks: a handler's, or the store is allowed. -/
theorem Hart.needBaseStore_next {a : BaseAccess w} {r : Res w} (hr : h.needBaseStore a r = .next h') :
    h.Entered h' ∨ h.baseStoreAllowed a ∧ r = .next h' := by
  unfold Hart.baseStoreAllowed
  unfold Hart.needBaseStore at hr
  cases hs : a.size <;> simp only [hs] at hr ⊢
  · exact Hart.needStore_next hr
  · exact Hart.needStoreCap_next hr

/-- A next state after all stores' checks: a handler's, or each store is allowed. -/
theorem Hart.needBaseStores_next {ps : List (BaseAccess w × Datum)} {r : Res w}
    (hr : h.needBaseStores r ps = .next h') :
    h.Entered h' ∨ (∀ p ∈ ps, h.baseStoreAllowed p.1) ∧ r = .next h' := by
  induction ps with
  | nil => exact Or.inr ⟨fun _ hm => absurd hm List.not_mem_nil, hr⟩
  | cons p ps ih =>
    rcases Hart.needBaseStore_next hr with he | ⟨h1, hr⟩
    · exact Or.inl he
    · rcases ih hr with he | ⟨h2, hr⟩
      · exact Or.inl he
      · exact Or.inr ⟨List.forall_mem_cons.mpr ⟨h1, h2⟩, hr⟩

/-- A next state of the effect: a handler's, or the stores and the target are allowed and all is written. -/
theorem Hart.baseEffect_next {t : Bool} {e : BaseEffect w} (hr : h.baseEffect t e = .next h') :
    h.Entered h' ∨ (∀ p ∈ e.stores, h.baseStoreAllowed p.1) ∧ (∀ a, e.target = some a → h.targetAllowed a) ∧
      h' = (h.baseWritten t e).setPc (e.target.getD h.nextPc) := by
  rcases Hart.needBaseStores_next hr with he | ⟨h1, hr⟩
  · exact Or.inl he
  · cases ht : e.target with
    | none =>
      rw [ht] at hr
      cases hr
      refine Or.inr ⟨h1, nofun, ?_⟩
      simp only [Option.getD_none, Hart.advance, Hart.nextPc, Hart.pc, Hart.baseWritten_pcc]
    | some a =>
      rw [ht] at hr
      rcases Hart.checkTarget_next hr with he | ⟨h2, hr⟩
      · exact Or.inl he
      · cases hr
        exact Or.inr ⟨h1, fun _ hb => Option.some.inj hb ▸ h2, rfl⟩

/-- A next state of an instruction that may take *c* registers: a handler's, or CHERI access is enabled if it does. -/
theorem Hart.needCheriIf_next {t : Bool} {r : Res w} (hr : h.needCheriIf t r = .next h') :
    h.Entered h' ∨ (t = true → h.cheriEnabled = true) ∧ r = .next h' := by
  unfold Hart.needCheriIf at hr
  split at hr
  · rcases Hart.needCheri_next hr with he | ⟨h1, hr⟩
    · exact Or.inl he
    · exact Or.inr ⟨fun _ => h1, hr⟩
  · exact Or.inr ⟨fun ht => absurd ht ‹_›, hr⟩

/-- Bytes that are no row of the opcode table (R67): a handler is entered, or a base CHERI extension that has
instructions of its own makes allowed loads, allowed stores and its register writes, and `pc` moves on or to an allowed
target. -/
theorem Hart.undecoded_next {d : DecodeError} (hr : h.undecoded d = .next h') :
    h.Entered h' ∨ h.cfg.base.capModeStep = .free ∧ (Config.freeTakesCap h.fetchedWord = true → h.cheriEnabled = true) ∧
      ∃ as, Config.freeCapModeStep h.cfg h.fetchedWord h.baseView = .loads as ∧ (∀ a ∈ as, h.baseLoadAllowed a) ∧
        ∃ e, e = Config.freeCapModeEffect h.cfg h.fetchedWord h.baseView (as.map h.baseLoaded) ∧
          (∀ p ∈ e.stores, h.baseStoreAllowed p.1) ∧ (∀ a, e.target = some a → h.targetAllowed a) ∧
          h' = (h.baseWritten (Config.freeTakesCap h.fetchedWord) e).setPc (e.target.getD h.nextPc) := by
  cases d with
  | tooShort => cases hr
  | notThirtyTwoBit => cases hr
  | noSuchWord =>
    change h.delegated = .next h' at hr
    unfold Hart.delegated at hr
    split at hr
    · cases hr
    · rename_i hs
      simp only at hr
      split at hr
      · cases hr
      · exact Or.inl (Hart.raise_next hr)
      · rcases Hart.needCheriIf_next hr with he | ⟨-, hr⟩
        · exact Or.inl he
        · exact Or.inl (Hart.raise_next hr)
      · rename_i as ha
        rcases Hart.needCheriIf_next hr with he | ⟨h1, hr⟩
        · exact Or.inl he
        · rcases Hart.needBaseLoads_next hr with he | ⟨h2, hr⟩
          · exact Or.inl he
          · rcases Hart.baseEffect_next hr with he | ⟨h3, h4, h5⟩
            · exact Or.inl he
            · exact Or.inr ⟨hs, h1, as, ha, h2, _, rfl, h3, h4, h5⟩

/-! ## Where its stores go -/

/-- An allowed store is authorised by its authority, at its own address and width. -/
theorem Hart.baseStoreAllowed_authorised {a : BaseAccess w} (ha : h.baseStoreAllowed a) :
    h.authorised a.size.storeKind a.base a.ea (a.size.width w) := by
  unfold Hart.baseStoreAllowed at ha
  split at ha
  · rename_i hs
    rw [hs]
    exact ha.1
  · rename_i hs
    rw [hs]
    exact ha.1.1

/-- An allowed store is off the program text. -/
theorem Hart.baseStoreAllowed_offText {a : BaseAccess w} (ha : h.baseStoreAllowed a) : h.offText a.ea (a.size.width w) := by
  unfold Hart.baseStoreAllowed at ha
  split at ha
  · rename_i hs
    rw [hs]
    exact ha.2.2.2
  · rename_i hs
    rw [hs]
    exact ha.2

/-- A store leaves every byte outside it alone, and every tag of a granule no byte of it lies in. -/
theorem Hart.makeStore_outside (a : BaseAccess w) (d : Datum) (hn : 0 < clenBytes w) :
    keepsMemoryBut a.ea (a.size.width w) h (h.makeStore a d) := by
  unfold Hart.makeStore
  split
  · rename_i hs
    rw [hs]
    exact ⟨fun _ hb => h.byteAt_memWrite_of_outside _ _ hb, fun _ hb => h.tagAt_memWrite_of_outside _ _ hb⟩
  · rename_i hs
    rw [hs]
    exact ⟨fun _ hb => h.byteAt_memWriteCap_of_outside _ hb, fun _ hb => h.tagAt_memWriteCap_of_outside _ hn hb⟩

/-- A byte that changes lies in one of the stores. -/
theorem Hart.makeStores_byte {ps : List (BaseAccess w × Datum)} {b : BitVec w} (hn : 0 < clenBytes w)
    (hb : (h.makeStores ps).byteAt b ≠ h.byteAt b) :
    ∃ p ∈ ps, ∃ j < p.1.size.width w, b = p.1.ea + BitVec.ofNat w j := by
  induction ps generalizing h with
  | nil => exact absurd rfl hb
  | cons p ps ih =>
    by_cases hp : (h.makeStore p.1 p.2).byteAt b = h.byteAt b
    · obtain ⟨q, hq, hj⟩ := ih (h := h.makeStore p.1 p.2) (hp ▸ hb)
      exact ⟨q, List.mem_cons_of_mem _ hq, hj⟩
    · by_contra hno
      exact hp ((h.makeStore_outside p.1 p.2 hn).1 b fun j hj he => hno ⟨p, List.mem_cons_self, j, hj, he⟩)

/-- A tag that changes is of a granule that one of the stores meets. -/
theorem Hart.makeStores_tag {ps : List (BaseAccess w × Datum)} {b : BitVec w} (hn : 0 < clenBytes w)
    (hb : (h.makeStores ps).tagAt b ≠ h.tagAt b) :
    ∃ p ∈ ps, ∃ j < p.1.size.width w, granule b = granule (p.1.ea + BitVec.ofNat w j) := by
  induction ps generalizing h with
  | nil => exact absurd rfl hb
  | cons p ps ih =>
    by_cases hp : (h.makeStore p.1 p.2).tagAt b = h.tagAt b
    · obtain ⟨q, hq, hj⟩ := ih (h := h.makeStore p.1 p.2) (hp ▸ hb)
      exact ⟨q, List.mem_cons_of_mem _ hq, hj⟩
    · by_contra hno
      exact hp ((h.makeStore_outside p.1 p.2 hn).2 b fun j hj he => hno ⟨p, List.mem_cons_self, j, hj, he⟩)

/-- No allowed stores change a byte of the program text (R52). -/
theorem Hart.makeStores_text {ps : List (BaseAccess w × Datum)} {b : BitVec w} (hn : 0 < clenBytes w)
    (hp : ∀ p ∈ ps, h.baseStoreAllowed p.1) (hb : h.isText b 1) : (h.makeStores ps).byteAt b = h.byteAt b := by
  by_contra hc
  obtain ⟨p, hm, j, hj, rfl⟩ := Hart.makeStores_byte hn hc
  exact Hart.offText_byte (Hart.baseStoreAllowed_offText (hp p hm)) hj hb

end Sys2Proof.Machine
end

