-- ==== Sys2Proof/Laws/Fields.lean ====
section
/-!
SUPPORT. The fields of an instruction word read back what was placed in them (R61, R62).
-/

namespace Sys2Proof

/-- A bit of a placed field. -/
theorem getLsbD_place {n : Nat} (pos k : Nat) (v : BitVec n) (hk : k < 32) :
    (place pos v).getLsbD k = (decide (pos ≤ k) && v.getLsbD (k - pos)) := by
  by_cases h : k < pos
  · have : ¬pos ≤ k := by omega
    simp [place, hk, h, this]
  · have : pos ≤ k := by omega
    simp [place, hk, h, this]

/-- Reading where a field was placed gives the field. -/
theorem extract_place_self {n : Nat} (pos : Nat) (v : BitVec n) (h : pos + n ≤ 32) :
    (place pos v).extractLsb' pos n = v := by
  apply BitVec.eq_of_getLsbD_eq
  intro k hk
  rw [BitVec.getLsbD_extractLsb', getLsbD_place _ _ _ (by omega)]
  simp [hk]

/-- Reading elsewhere gives zero. -/
theorem extract_place_off {n : Nat} (pos s m : Nat) (v : BitVec n) (hs : s + m ≤ 32) (h : pos + n ≤ s ∨ s + m ≤ pos) :
    (place pos v).extractLsb' s m = 0#m := by
  apply BitVec.eq_of_getLsbD_eq
  intro k hk
  rw [BitVec.getLsbD_extractLsb', getLsbD_place _ _ _ (by omega)]
  rcases h with h | h
  · have : n ≤ s + k - pos := by omega
    simp [BitVec.getLsbD_of_ge _ _ this]
  · have : ¬pos ≤ s + k := by omega
    simp [this]

/-- Bits that a mask covers and a word has clear under it read as zero. -/
theorem extract_clear {p mask : BitVec 32} (s m : Nat) (h : p &&& mask = 0#32)
    (hm : ∀ j < m, mask.getLsbD (s + j) = true) : p.extractLsb' s m = 0#m := by
  apply BitVec.eq_of_getLsbD_eq
  intro k hk
  have := congrArg (fun v => v.getLsbD (s + k)) h
  simp only [BitVec.getLsbD_and, hm k hk, Bool.and_true, BitVec.getLsbD_zero] at this
  simp [BitVec.getLsbD_extractLsb', this]

/-- The S immediate is its two pieces. -/
theorem joinS (v : BitVec 12) : v.extractLsb' 5 7 ++ v.extractLsb' 0 5 = v := by
  apply BitVec.eq_of_getLsbD_eq
  intro k hk
  rw [BitVec.getLsbD_append]
  by_cases h : k < 5
  · simp [h]
  · have h1 : k - 5 < 7 := by omega
    have h2 : 5 + (k - 5) = k := by omega
    simp [h, h1, h2]

/-- The B offset is its pieces and the zero bit. -/
theorem joinB (v : BitVec 13) (h0 : v.getLsbD 0 = false) :
    v.extractLsb' 12 1 ++ v.extractLsb' 11 1 ++ v.extractLsb' 5 6 ++ v.extractLsb' 1 4 ++ 0#1 = v := by
  apply BitVec.eq_of_getLsbD_eq
  intro k hk
  simp only [BitVec.getLsbD_append, BitVec.getLsbD_extractLsb']
  interval_cases k <;> simp_all

/-- The J offset is its pieces and the zero bit. -/
theorem joinJ (v : BitVec 21) (h0 : v.getLsbD 0 = false) :
    v.extractLsb' 20 1 ++ v.extractLsb' 12 8 ++ v.extractLsb' 11 1 ++ v.extractLsb' 1 10 ++ 0#1 = v := by
  apply BitVec.eq_of_getLsbD_eq
  intro k hk
  simp only [BitVec.getLsbD_append, BitVec.getLsbD_extractLsb']
  interval_cases k <;> simp_all

variable {p : BitVec 32}

/-- The operand bits of the U and J formats. -/
def operandsUpper : BitVec 32 := 0xFFFFFF80#32

/-- The operands of an I word. -/
theorem fields_I (hp : p &&& operandsI = 0#32) (rd rs1 : Reg) (imm : BitVec 12) :
    let i := p ||| (place 7 rd ||| place 15 rs1 ||| place 20 imm)
    fieldRd i = rd ∧ fieldRs1 i = rs1 ∧ immI i = imm := by
  simp only [fieldRd, fieldRs1, immI, BitVec.extractLsb'_or]
  rw [extract_clear 7 5 hp (by decide), extract_clear 15 5 hp (by decide), extract_clear 20 12 hp (by decide)]
  simp (disch := omega) only [extract_place_self, extract_place_off, BitVec.zero_or, BitVec.or_zero, and_self]

/-- The operands of an S word. -/
theorem fields_S (hp : p &&& operandsS = 0#32) (rs2 rs1 : Reg) (imm : BitVec 12) :
    let i := p ||| (place 7 (imm.extractLsb' 0 5) ||| place 15 rs1 ||| place 20 rs2 ||| place 25 (imm.extractLsb' 5 7))
    fieldRs2 i = rs2 ∧ fieldRs1 i = rs1 ∧ immS i = imm := by
  simp only [fieldRs2, fieldRs1, immS, BitVec.extractLsb'_or]
  rw [extract_clear 7 5 hp (by decide), extract_clear 15 5 hp (by decide), extract_clear 20 5 hp (by decide),
    extract_clear 25 7 hp (by decide)]
  simp (disch := omega) only [extract_place_self, extract_place_off, BitVec.zero_or, BitVec.or_zero, joinS, and_self]

/-- The operands of a B word. -/
theorem fields_B (hp : p &&& operandsS = 0#32) (rs1 rs2 : Reg) (off : BitVec 13) (h0 : off.getLsbD 0 = false) :
    let i := p ||| (place 7 (off.extractLsb' 11 1) ||| place 8 (off.extractLsb' 1 4) ||| place 15 rs1 ||| place 20 rs2 |||
      place 25 (off.extractLsb' 5 6) ||| place 31 (off.extractLsb' 12 1))
    fieldRs1 i = rs1 ∧ fieldRs2 i = rs2 ∧ immB i = off := by
  simp only [fieldRs2, fieldRs1, immB, BitVec.extractLsb'_or]
  rw [extract_clear 15 5 hp (by decide), extract_clear 20 5 hp (by decide), extract_clear 31 1 hp (by decide),
    extract_clear 7 1 hp (by decide), extract_clear 25 6 hp (by decide), extract_clear 8 4 hp (by decide)]
  simp (disch := omega) only [extract_place_self, extract_place_off, BitVec.zero_or, BitVec.or_zero, joinB off h0,
    and_self]

/-- The operands of a J word. -/
theorem fields_J (hp : p &&& operandsUpper = 0#32) (rd : Reg) (off : BitVec 21) (h0 : off.getLsbD 0 = false) :
    let i := p ||| (place 7 rd ||| place 12 (off.extractLsb' 12 8) ||| place 20 (off.extractLsb' 11 1) |||
      place 21 (off.extractLsb' 1 10) ||| place 31 (off.extractLsb' 20 1))
    fieldRd i = rd ∧ immJ i = off := by
  simp only [fieldRd, immJ, BitVec.extractLsb'_or]
  rw [extract_clear 7 5 hp (by decide), extract_clear 31 1 hp (by decide), extract_clear 12 8 hp (by decide),
    extract_clear 20 1 hp (by decide), extract_clear 21 10 hp (by decide)]
  simp (disch := omega) only [extract_place_self, extract_place_off, BitVec.zero_or, BitVec.or_zero, joinJ off h0,
    and_self]

/-- The operands of a U word. -/
theorem fields_U (hp : p &&& operandsUpper = 0#32) (rd : Reg) (imm : BitVec 20) :
    let i := p ||| (place 7 rd ||| place 12 imm)
    fieldRd i = rd ∧ immU i = imm := by
  simp only [fieldRd, immU, BitVec.extractLsb'_or]
  rw [extract_clear 7 5 hp (by decide), extract_clear 12 20 hp (by decide)]
  simp (disch := omega) only [extract_place_self, extract_place_off, BitVec.zero_or, BitVec.or_zero, and_self]

/-- The operands `cd`, `cs1`, `rs2` of an R word. -/
theorem fields_R (hp : p &&& operandsRdRs1Rs2 = 0#32) (rd rs1 rs2 : Reg) :
    let i := p ||| (place 7 rd ||| place 15 rs1 ||| place 20 rs2)
    fieldRd i = rd ∧ fieldRs1 i = rs1 ∧ fieldRs2 i = rs2 := by
  simp only [fieldRd, fieldRs1, fieldRs2, BitVec.extractLsb'_or]
  rw [extract_clear 7 5 hp (by decide), extract_clear 15 5 hp (by decide), extract_clear 20 5 hp (by decide)]
  simp (disch := omega) only [extract_place_self, extract_place_off, BitVec.zero_or, BitVec.or_zero, and_self]

/-- The operands `rd`, `cs1` of an R word. -/
theorem fields_R2 (hp : p &&& operandsRdRs1 = 0#32) (rd rs1 : Reg) :
    let i := p ||| (place 7 rd ||| place 15 rs1)
    fieldRd i = rd ∧ fieldRs1 i = rs1 := by
  simp only [fieldRd, fieldRs1, BitVec.extractLsb'_or]
  rw [extract_clear 7 5 hp (by decide), extract_clear 15 5 hp (by decide)]
  simp (disch := omega) only [extract_place_self, extract_place_off, BitVec.zero_or, BitVec.or_zero, and_self]

end Sys2Proof
end

