-- ==== Sys2Proof/Laws/PerInstr.lean ====
section
/-!
SUPPORT. Per-instruction family OperandFields: the operand bits of an instruction, over any fixed bits that leave them
free, read back as that instruction's operands.
-/

namespace Sys2Proof.Laws.OperandFields

/-- Which bits of the word the operands of an instruction take (R61). -/
def bitsOf : Instr → BitVec 32
  | .lb _ _ _ => operandsI
  | .lh _ _ _ => operandsI
  | .lw _ _ _ => operandsI
  | .ld _ _ _ => operandsI
  | .lbu _ _ _ => operandsI
  | .lhu _ _ _ => operandsI
  | .lwu _ _ _ => operandsI
  | .sb _ _ _ => operandsS
  | .sh _ _ _ => operandsS
  | .sw _ _ _ => operandsS
  | .sd _ _ _ => operandsS
  | .beq _ _ _ => operandsS
  | .bne _ _ _ => operandsS
  | .blt _ _ _ => operandsS
  | .bge _ _ _ => operandsS
  | .bltu _ _ _ => operandsS
  | .bgeu _ _ _ => operandsS
  | .jal _ _ => operandsUpper
  | .jalr _ _ _ => operandsI
  | .auipc _ _ => operandsUpper
  | .csrrw _ _ _ => operandsI
  | .csrrs _ _ _ => operandsI
  | .csrrc _ _ _ => operandsI
  | .csrrwi _ _ _ => operandsI
  | .csrrsi _ _ _ => operandsI
  | .csrrci _ _ _ => operandsI
  | .scmode _ _ _ => operandsRdRs1Rs2
  | .gcmode _ _ => operandsRdRs1
  | .modeswCap => 0#32
  | .modeswInt => 0#32
  | .gctag _ _ => operandsRdRs1
  | .lc _ _ _ => operandsI
  | .sc _ _ _ => operandsS

/-- The same instruction with its operands read from a word (R61, R62). -/
def reread (i : BitVec 32) : Instr → Instr
  | .lb _ _ _ => .lb (fieldRd i) (fieldRs1 i) (immI i)
  | .lh _ _ _ => .lh (fieldRd i) (fieldRs1 i) (immI i)
  | .lw _ _ _ => .lw (fieldRd i) (fieldRs1 i) (immI i)
  | .ld _ _ _ => .ld (fieldRd i) (fieldRs1 i) (immI i)
  | .lbu _ _ _ => .lbu (fieldRd i) (fieldRs1 i) (immI i)
  | .lhu _ _ _ => .lhu (fieldRd i) (fieldRs1 i) (immI i)
  | .lwu _ _ _ => .lwu (fieldRd i) (fieldRs1 i) (immI i)
  | .sb _ _ _ => .sb (fieldRs2 i) (fieldRs1 i) (immS i)
  | .sh _ _ _ => .sh (fieldRs2 i) (fieldRs1 i) (immS i)
  | .sw _ _ _ => .sw (fieldRs2 i) (fieldRs1 i) (immS i)
  | .sd _ _ _ => .sd (fieldRs2 i) (fieldRs1 i) (immS i)
  | .beq _ _ _ => .beq (fieldRs1 i) (fieldRs2 i) (immB i)
  | .bne _ _ _ => .bne (fieldRs1 i) (fieldRs2 i) (immB i)
  | .blt _ _ _ => .blt (fieldRs1 i) (fieldRs2 i) (immB i)
  | .bge _ _ _ => .bge (fieldRs1 i) (fieldRs2 i) (immB i)
  | .bltu _ _ _ => .bltu (fieldRs1 i) (fieldRs2 i) (immB i)
  | .bgeu _ _ _ => .bgeu (fieldRs1 i) (fieldRs2 i) (immB i)
  | .jal _ _ => .jal (fieldRd i) (immJ i)
  | .jalr _ _ _ => .jalr (fieldRd i) (fieldRs1 i) (immI i)
  | .auipc _ _ => .auipc (fieldRd i) (immU i)
  | .csrrw _ _ _ => .csrrw (fieldRd i) (fieldRs1 i) (immI i)
  | .csrrs _ _ _ => .csrrs (fieldRd i) (fieldRs1 i) (immI i)
  | .csrrc _ _ _ => .csrrc (fieldRd i) (fieldRs1 i) (immI i)
  | .csrrwi _ _ _ => .csrrwi (fieldRd i) (fieldRs1 i) (immI i)
  | .csrrsi _ _ _ => .csrrsi (fieldRd i) (fieldRs1 i) (immI i)
  | .csrrci _ _ _ => .csrrci (fieldRd i) (fieldRs1 i) (immI i)
  | .scmode _ _ _ => .scmode (fieldRd i) (fieldRs1 i) (fieldRs2 i)
  | .gcmode _ _ => .gcmode (fieldRd i) (fieldRs1 i)
  | .modeswCap => .modeswCap
  | .modeswInt => .modeswInt
  | .gctag _ _ => .gctag (fieldRd i) (fieldRs1 i)
  | .lc _ _ _ => .lc (fieldRd i) (fieldRs1 i) (immI i)
  | .sc _ _ _ => .sc (fieldRs2 i) (fieldRs1 i) (immS i)

/-- The operands of a well-formed instruction survive encoding over any fixed bits that leave them free. -/
def Statement (i : Instr) : Prop :=
  ∀ (x : Xlen) (p : BitVec 32), i.wf x = true → p &&& bitsOf i = 0#32 → reread (p ||| operandBits i) i = i

/-- Operands in the I places read back, whatever is built from them. -/
theorem rereadI {p : BitVec 32} (hp : p &&& operandsI = 0#32) (c : Reg → Reg → BitVec 12 → Instr) (rd rs1 : Reg)
    (imm : BitVec 12) :
    let i := p ||| (place 7 rd ||| place 15 rs1 ||| place 20 imm)
    c (fieldRd i) (fieldRs1 i) (immI i) = c rd rs1 imm := by
  obtain ⟨h1, h2, h3⟩ := fields_I hp rd rs1 imm
  simp only [h1, h2, h3]

/-- Operands in the S places read back. -/
theorem rereadS {p : BitVec 32} (hp : p &&& operandsS = 0#32) (c : Reg → Reg → BitVec 12 → Instr) (rs2 rs1 : Reg)
    (imm : BitVec 12) :
    let i := p ||| (place 7 (imm.extractLsb' 0 5) ||| place 15 rs1 ||| place 20 rs2 ||| place 25 (imm.extractLsb' 5 7))
    c (fieldRs2 i) (fieldRs1 i) (immS i) = c rs2 rs1 imm := by
  obtain ⟨h1, h2, h3⟩ := fields_S hp rs2 rs1 imm
  simp only [h1, h2, h3]

/-- Operands in the B places read back, for an even offset. -/
theorem rereadB {p : BitVec 32} (hp : p &&& operandsS = 0#32) (c : Reg → Reg → BitVec 13 → Instr) (rs1 rs2 : Reg)
    (off : BitVec 13) (h0 : (!off.getLsbD 0) = true) :
    let i := p ||| (place 7 (off.extractLsb' 11 1) ||| place 8 (off.extractLsb' 1 4) ||| place 15 rs1 ||| place 20 rs2 |||
      place 25 (off.extractLsb' 5 6) ||| place 31 (off.extractLsb' 12 1))
    c (fieldRs1 i) (fieldRs2 i) (immB i) = c rs1 rs2 off := by
  obtain ⟨h1, h2, h3⟩ := fields_B hp rs1 rs2 off (by simpa using h0)
  simp only [h1, h2, h3]

theorem lb (rd rs1 : Reg) (imm : BitVec 12) : Statement (.lb rd rs1 imm) := fun _ _ _ hp => rereadI hp .lb rd rs1 imm

theorem lh (rd rs1 : Reg) (imm : BitVec 12) : Statement (.lh rd rs1 imm) := fun _ _ _ hp => rereadI hp .lh rd rs1 imm

theorem lw (rd rs1 : Reg) (imm : BitVec 12) : Statement (.lw rd rs1 imm) := fun _ _ _ hp => rereadI hp .lw rd rs1 imm

theorem ld (rd rs1 : Reg) (imm : BitVec 12) : Statement (.ld rd rs1 imm) := fun _ _ _ hp => rereadI hp .ld rd rs1 imm

theorem lbu (rd rs1 : Reg) (imm : BitVec 12) : Statement (.lbu rd rs1 imm) := fun _ _ _ hp => rereadI hp .lbu rd rs1 imm

theorem lhu (rd rs1 : Reg) (imm : BitVec 12) : Statement (.lhu rd rs1 imm) := fun _ _ _ hp => rereadI hp .lhu rd rs1 imm

theorem lwu (rd rs1 : Reg) (imm : BitVec 12) : Statement (.lwu rd rs1 imm) := fun _ _ _ hp => rereadI hp .lwu rd rs1 imm

theorem sb (rs2 rs1 : Reg) (imm : BitVec 12) : Statement (.sb rs2 rs1 imm) :=
  fun _ _ _ hp => rereadS hp .sb rs2 rs1 imm

theorem sh (rs2 rs1 : Reg) (imm : BitVec 12) : Statement (.sh rs2 rs1 imm) :=
  fun _ _ _ hp => rereadS hp .sh rs2 rs1 imm

theorem sw (rs2 rs1 : Reg) (imm : BitVec 12) : Statement (.sw rs2 rs1 imm) :=
  fun _ _ _ hp => rereadS hp .sw rs2 rs1 imm

theorem sd (rs2 rs1 : Reg) (imm : BitVec 12) : Statement (.sd rs2 rs1 imm) :=
  fun _ _ _ hp => rereadS hp .sd rs2 rs1 imm

theorem beq (rs1 rs2 : Reg) (off : BitVec 13) : Statement (.beq rs1 rs2 off) :=
  fun _ _ hw hp => rereadB hp .beq rs1 rs2 off hw

theorem bne (rs1 rs2 : Reg) (off : BitVec 13) : Statement (.bne rs1 rs2 off) :=
  fun _ _ hw hp => rereadB hp .bne rs1 rs2 off hw

theorem blt (rs1 rs2 : Reg) (off : BitVec 13) : Statement (.blt rs1 rs2 off) :=
  fun _ _ hw hp => rereadB hp .blt rs1 rs2 off hw

theorem bge (rs1 rs2 : Reg) (off : BitVec 13) : Statement (.bge rs1 rs2 off) :=
  fun _ _ hw hp => rereadB hp .bge rs1 rs2 off hw

theorem bltu (rs1 rs2 : Reg) (off : BitVec 13) : Statement (.bltu rs1 rs2 off) :=
  fun _ _ hw hp => rereadB hp .bltu rs1 rs2 off hw

theorem bgeu (rs1 rs2 : Reg) (off : BitVec 13) : Statement (.bgeu rs1 rs2 off) :=
  fun _ _ hw hp => rereadB hp .bgeu rs1 rs2 off hw

theorem jal (rd : Reg) (off : BitVec 21) : Statement (.jal rd off) := by
  intro x p hw hp
  obtain ⟨h1, h2⟩ := fields_J hp rd off (by simpa [Instr.wf] using hw)
  simp only [reread, operandBits, h1, h2]

theorem jalr (rd rs1 : Reg) (imm : BitVec 12) : Statement (.jalr rd rs1 imm) := fun _ _ _ hp => rereadI hp .jalr rd rs1 imm

theorem auipc (rd : Reg) (imm : BitVec 20) : Statement (.auipc rd imm) := by
  intro x p _ hp
  obtain ⟨h1, h2⟩ := fields_U hp rd imm
  simp only [reread, operandBits, h1, h2]

theorem csrrw (rd rs1 : Reg) (csr : CsrAddr) : Statement (.csrrw rd rs1 csr) := fun _ _ _ hp => rereadI hp .csrrw rd rs1 csr

theorem csrrs (rd rs1 : Reg) (csr : CsrAddr) : Statement (.csrrs rd rs1 csr) := fun _ _ _ hp => rereadI hp .csrrs rd rs1 csr

theorem csrrc (rd rs1 : Reg) (csr : CsrAddr) : Statement (.csrrc rd rs1 csr) := fun _ _ _ hp => rereadI hp .csrrc rd rs1 csr

theorem csrrwi (rd rs1 : Reg) (csr : CsrAddr) : Statement (.csrrwi rd rs1 csr) := fun _ _ _ hp => rereadI hp .csrrwi rd rs1 csr

theorem csrrsi (rd rs1 : Reg) (csr : CsrAddr) : Statement (.csrrsi rd rs1 csr) := fun _ _ _ hp => rereadI hp .csrrsi rd rs1 csr

theorem csrrci (rd rs1 : Reg) (csr : CsrAddr) : Statement (.csrrci rd rs1 csr) := fun _ _ _ hp => rereadI hp .csrrci rd rs1 csr

theorem scmode (cd cs1 rs2 : Reg) : Statement (.scmode cd cs1 rs2) := by
  intro x p _ hp
  obtain ⟨h1, h2, h3⟩ := fields_R hp cd cs1 rs2
  simp only [reread, operandBits, h1, h2, h3]

theorem gcmode (rd cs1 : Reg) : Statement (.gcmode rd cs1) := by
  intro x p _ hp
  obtain ⟨h1, h2⟩ := fields_R2 hp rd cs1
  simp only [reread, operandBits, h1, h2]

theorem modeswCap : Statement (.modeswCap) := fun _ _ _ _ => rfl

theorem modeswInt : Statement (.modeswInt) := fun _ _ _ _ => rfl

theorem gctag (rd cs1 : Reg) : Statement (.gctag rd cs1) := by
  intro x p _ hp
  obtain ⟨h1, h2⟩ := fields_R2 hp rd cs1
  simp only [reread, operandBits, h1, h2]

theorem lc (rd rs1 : Reg) (imm : BitVec 12) : Statement (.lc rd rs1 imm) := fun _ _ _ hp => rereadI hp .lc rd rs1 imm

theorem sc (rs2 rs1 : Reg) (imm : BitVec 12) : Statement (.sc rs2 rs1 imm) :=
  fun _ _ _ hp => rereadS hp .sc rs2 rs1 imm

end Sys2Proof.Laws.OperandFields
end

