-- ==== Sys2Proof/Laws/Step.lean ====
section
/-!
SUPPORT. Everything a step can do when it answers a next state.
-/

namespace Sys2Proof.Machine

/-- A step that answers a next state: a failed fetch entered a handler; or the fetched instruction executed; or the fetched
word is no row of the opcode table and `CapModeStep` gave it its meaning. -/
theorem step_next {x : Xlen} {h : Hart x.bits} {t : State} (hs : step ⟨x, h⟩ = .next t) :
    (∃ h', t = ⟨x, h'⟩ ∧ h.Entered h') ∨ (∃ i, State.fetched ⟨x, h⟩ = .ok i ∧ exec i ⟨x, h⟩ = .next t) ∨
      ∃ d h', State.fetched ⟨x, h⟩ = .error d ∧ t = ⟨x, h'⟩ ∧ h.undecoded d = .next h' := by
  unfold step at hs
  split at hs
  · cases hs
  · split at hs
    · rename_i r hr
      obtain ⟨h', rfl, rfl⟩ := State.run_eq_next.mp hs
      refine Or.inl ⟨h', rfl, ?_⟩
      unfold Hart.fetchFailure at hr
      split at hr
      · exact Hart.raise_next (Option.some.inj hr)
      · split at hr
        · cases hr
        · split at hr <;> cases hr
    · split at hs
      · exact Or.inr (Or.inl ⟨_, ‹_›, hs⟩)
      · obtain ⟨h', hr, rfl⟩ := State.run_eq_next.mp hs
        exact Or.inr (Or.inr ⟨_, h', ‹_›, rfl, hr⟩)

/-- What a step is once the fetch is allowed. -/
theorem step_fetched {s : State} (hf : s.hart.final = false)
    (hc : authCheck s.hart.cfg s.hart.pcc .fetch s.hart.pc 4 = none) (hb : s.hart.backed s.hart.pc 4)
    (ht : s.hart.isText s.hart.pc 4) :
    step s = match s.fetched with
      | .ok i => exec i s
      | .error e => s.run (s.hart.undecoded e) := by
  rw [Hart.backed] at hb
  rw [Hart.isText] at ht
  cases hd : s.fetched <;> simp only [step, hf, Hart.fetchFailure, hc, hb, ht, hd, Bool.false_eq_true, if_true, if_false]

end Sys2Proof.Machine
end

