-- ==== Sys2Proof/Tests/Slice0.lean ====
section
/-!
SUPPORT. Tests of the model against the words and vectors of spec/ (the rule or the vector of spec/95 stands with each
test), and, for every obligation with hypotheses, a witness that its hypotheses can be met together.
-/

namespace Sys2Proof.Tests

open Sys2Proof.Machine

/-! ## Well-formedness -/

/-- An odd branch offset is refused (R62). -/
theorem test_wf_branch_odd : Instr.wf .rv64 (.beq 1 2 3) = false ∧ Instr.wf .rv64 (.bgeu 1 2 (-1)) = false := by decide

/-- An odd jump offset is refused (R62). -/
theorem test_wf_jal_odd : Instr.wf .rv32 (.jal 1 5) = false := by decide

/-- LD, LWU and SD are refused at XLEN = 32 (R64). -/
theorem test_wf_rv64_only :
    Instr.wf .rv32 (.ld 1 2 0) = false ∧ Instr.wf .rv32 (.lwu 1 2 0) = false ∧ Instr.wf .rv32 (.sd 1 2 0) = false := by
  decide

/-- Even offsets, and LD at XLEN = 64, are accepted. -/
theorem test_wf_accepts :
    Instr.wf .rv32 (.beq 1 2 8) = true ∧ Instr.wf .rv32 (.jal 1 (-4)) = true ∧ Instr.wf .rv64 (.ld 1 2 0) = true := by
  decide

/-! ## Decoding: the words of spec/40, 41 and 44 -/

/-- The words of R81 to R87. -/
theorem test_decode_loads :
    [0xFFF50283, 0x00251283, 0x01052283, 0x00853283, 0x00054283, 0x00655283, 0x00456283].map (decodeTableWord 32) =
    [some (.lb 5 10 (-1)), some (.lh 5 10 2), some (.lw 5 10 16), some (.ld 5 10 8), some (.lbu 5 10 0),
     some (.lhu 5 10 6), some (.lwu 5 10 4)] := by decide

/-- The words of R88 to R91. -/
theorem test_decode_stores :
    [0x005501A3, 0x00551123, 0x00552A23, 0xFE553C23].map (decodeTableWord 32) =
    [some (.sb 5 10 3), some (.sh 5 10 2), some (.sw 5 10 20), some (.sd 5 10 (-8))] := by decide

/-- The words of R101 to R106. -/
theorem test_decode_branches :
    [0x00B50463, 0xFEB51EE3, 0x00B54863, 0x00B55863, 0x00B56863, 0x00B57863].map (decodeTableWord 32) =
    [some (.beq 10 11 8), some (.bne 10 11 (-4)), some (.blt 10 11 16), some (.bge 10 11 16), some (.bltu 10 11 16),
     some (.bgeu 10 11 16)] := by decide

/-- The words of R107, R108, R110 and V-A2, V-J9. -/
theorem test_decode_jumps :
    [0x100000EF, 0x004500E7, 0x000080E7, 0x00000097, 0xFFFFF297].map (decodeTableWord 32) =
    [some (.jal 1 0x100), some (.jalr 1 10 4), some (.jalr 1 1 0), some (.auipc 1 0), some (.auipc 5 0xFFFFF)] := by
  decide

/-- The words of R157 to R164. -/
theorem test_decode_csr :
    [0x416110F3, 0x416120F3, 0x416130F3, 0x416450F3, 0x416260F3, 0x4163F0F3].map (decodeTableWord 32) =
    [some (.csrrw 1 2 0x416), some (.csrrs 1 2 0x416), some (.csrrc 1 2 0x416), some (.csrrwi 1 8 0x416),
     some (.csrrsi 1 4 0x416), some (.csrrci 1 7 0x416)] := by decide

/-- Words of the open encodings at launch (spec/93 G12, log 20), with fields placed as R61 and R62 say: `scmode c12, c10,
x11`; `gcmode x13, c12`; the two mode switches; `gctag x1, c1`; `lc c11, 8(x10)`; `sc c11, 16(x10)`. -/
theorem test_decode_open :
    [0x0CB57633, 0x103606B3, 0x12001033, 0x14001033, 0x100080B3, 0x0085458F, 0x00B54823].map (decodeTableWord 32) =
    [some (.scmode 12 10 11), some (.gcmode 13 12), some .modeswCap, some .modeswInt, some (.gctag 1 1),
     some (.lc 11 10 8), some (.sc 11 10 16)] := by decide

/-- A word that matches no row, a word whose bits [1:0] are not 11, and LD's word at XLEN = 32 when ENC_LC is elsewhere
(R60, R63, R67). -/
theorem test_decode_rejects :
    decodeTableWord 32 0x00000013 = none ∧ decodeTableWord 32 0x00000001 = none ∧
    ((rows .rv32 (.launch .rv64) .int).find? (fun r => r.pat.hits 0x00853283#32)).isNone = true := by decide

/-- Encoding gives back the words of the spec. -/
theorem test_encode :
    encodeWord (.launch .rv64) (.sd 5 10 (-8)) = 0xFE553C23#32 ∧ encodeWord (.launch .rv64) (.bne 10 11 (-4)) = 0xFEB51EE3#32 ∧
    encodeWord (.launch .rv64) (.jal 1 0x100) = 0x100000EF#32 ∧ encodeWord (.launch .rv64) (.csrrci 1 7 0x416) = 0x4163F0F3#32 := by
  decide

/-! ## A small machine for the vectors (XLEN = 32, M-bit 0, Capability Mode 1) -/

/-- Metadata of the vectors besides those of `INFINITE_CAP`, which are 2: 0 null, 4 RW and 6 XR over [0x1000, 0x2000), 8 XR over
[0x8000, 0x9000) and representable only there, 10 RW sealed, 12 R over [0x1000, 0x2000). -/
def forms : List (MetaForm 32) :=
  [⟨0, ⟨⟨false, false, false, false⟩, false⟩, ⟨0, 0⟩, 0, 2 ^ 32, ⟨0, 0⟩⟩,
   ⟨4, ⟨⟨true, true, false, false⟩, false⟩, ⟨0x1000, 0x2000⟩, 0, 2 ^ 32, ⟨0, 0⟩⟩,
   ⟨6, ⟨⟨true, false, true, false⟩, false⟩, ⟨0x1000, 0x2000⟩, 0, 2 ^ 32, ⟨0, 0⟩⟩] ++
  [⟨8, ⟨⟨true, false, true, false⟩, false⟩, ⟨0x8000, 0x9000⟩, 0x8000, 0x9000, ⟨0, 0⟩⟩,
   ⟨10, ⟨⟨true, true, false, false⟩, true⟩, ⟨0, 2 ^ 32⟩, 0, 2 ^ 32, ⟨0, 0⟩⟩,
   ⟨12, ⟨⟨true, false, false, false⟩, false⟩, ⟨0x1000, 0x2000⟩, 0, 2 ^ 32, ⟨0, 0⟩⟩]

/-- A base CHERI extension of defaults, a Capability Mode JALR unchecked against the old `pcc` as V-J10 has it (log 47). -/
def allGiven : BaseFunctions :=
  { auth := .given, link := .given, jalr := .given, jalrPcc := false, setAddr := .given, loadFilter := .given,
    storeFilter := .given, capModeStep := .given }

/-- The parameters of the vectors: the spec's defaults. -/
def cfg : Config 32 := { Config.launch .rv32 with forms := forms, base := allGiven }

/-- A capability of the vectors. -/
abbrev cap (metadata addr : BitVec 32) : Cap 32 := ⟨true, metadata, addr⟩

/-- A hart at 0x1000 with given metadata of `pcc` and `ddc`, some registers and some bytes. -/
def hart (pcc ddc : BitVec 32) (regs : List (Reg × Cap 32)) (mem : List Host.Cell) : Hart Xlen.rv32.bits :=
  regs.foldl (fun h p => h.setC p.1 p.2)
    { Hart.launch .rv32 with cfg := cfg, pcc := cap pcc 0x1000, ddc := cap ddc 0, mem := mem }

/-- The state of a hart. -/
abbrev st (h : Hart Xlen.rv32.bits) : State := ⟨.rv32, h⟩

/-- The next state satisfies `p`. -/
def next (o : Host.Outcome State Fault Refusal) (p : State → Bool) : Bool :=
  match o with
  | .next s => p s
  | .fault _ => false
  | .refused _ => false

/-- The machine stops with this fault. -/
def faults (o : Host.Outcome State Fault Refusal) (f : Fault) : Bool :=
  match o with
  | .next _ => false
  | .fault g => decide (g = f)
  | .refused _ => false

/-- The model refuses for this reason. -/
def refuses (o : Host.Outcome State Fault Refusal) (r : Refusal) : Bool :=
  match o with
  | .next _ => false
  | .fault _ => false
  | .refused q => decide (q = r)

/-- Register `i` holds the integer `v`: tag 0, null metadata (R12). -/
def holdsInt (s : State) (i : Reg) (v : Nat) : Bool :=
  decide ((s.hart.creg i).tag = false ∧ (s.hart.creg i).metadata.toNat = 0 ∧ (s.hart.creg i).addr.toNat = v)

/-- Register `i` holds a tagged capability. -/
def holdsCap (s : State) (i : Reg) (metadata addr : Nat) : Bool :=
  decide ((s.hart.creg i).tag = true ∧ (s.hart.creg i).metadata.toNat = metadata ∧ (s.hart.creg i).addr.toNat = addr)

/-- `ddc` is a capability with this tag, metadata and address. -/
def ddcIs (s : State) (tag : Bool) (metadata addr : Nat) : Bool :=
  decide (s.hart.ddc.tag = tag ∧ s.hart.ddc.metadata.toNat = metadata ∧ s.hart.ddc.addr.toNat = addr)

/-- The bytes 80 01 34 92 78 56 34 12 at 0x1000 (spec/95 2.2). -/
def bytes : List Host.Cell :=
  [(0x1000, 0x80), (0x1001, 0x01), (0x1002, 0x34), (0x1003, 0x92), (0x1004, 0x78), (0x1005, 0x56), (0x1006, 0x34),
   (0x1007, 0x12)]

/-- Integer Mode with `x[10] = 0x1000` and `ddc` reading and writing [0x1000, 0x2000). -/
def loadHart : Hart Xlen.rv32.bits := hart 6 4 [(10, cap 8 0x1000), (5, cap 4 0xABCD1234)] bytes

/-- Capability Mode, `ddc` untagged, `c[10]` reading [0x1000, 0x2000). -/
def capHart : Hart Xlen.rv32.bits := { hart 7 0 [(10, cap 12 0x1000), (1, cap 8 0x8000)] bytes with ddc := Cap.null }

/-- CHERI access disabled. -/
def offHart : Hart Xlen.rv32.bits := { loadHart with cfg := { cfg with cheriAccess := ⟨false, false, false⟩ } }

/-! ## Loads and stores -/

/-- V-L1, V-L2. -/
theorem test_byte_loads :
    next (exec (.lb 5 10 0) (st loadHart)) (fun s => holdsInt s 5 0xFFFFFF80 && s.hart.pc.toNat == 0x1004) = true ∧
    next (exec (.lbu 5 10 0) (st loadHart)) (fun s => holdsInt s 5 0x80) = true := by decide

/-- V-L3, V-L4. -/
theorem test_half_loads :
    next (exec (.lh 5 10 2) (st loadHart)) (fun s => holdsInt s 5 0xFFFF9234) = true ∧
    next (exec (.lhu 6 10 2) (st loadHart)) (fun s => holdsInt s 6 0x9234) = true := by decide

/-- V-L5, V-L6: a word in bounds, and one below the base of `ddc`. -/
theorem test_lw : next (exec (.lw 5 10 0) (st loadHart)) (fun s => holdsInt s 5 0x92340180) = true ∧
    faults (exec (.lw 5 10 (-4)) (st loadHart)) (.cheri .bounds (.data 0xFFC) 0x1000) = true := by decide

/-- V-L11, V-L12, V-L13: a destination x0 does not skip the check; a misaligned access is refused; the CHERI exception
comes before misalignment. -/
theorem test_load_stops :
    faults (exec (.lw 0 10 0) (st (hart 6 10 [(10, cap 0 0x1000)] []))) (.cheri .seal (.data 0x1000) 0x1000) = true ∧
    refuses (exec (.lw 5 10 1) (st loadHart)) (.misaligned 0x1001) = true ∧
    faults (exec (.lw 5 10 (-1)) (st loadHart)) (.cheri .bounds (.data 0xFFF) 0x1000) = true := by decide

/-- V-L19, V-L20: in Capability Mode `c[10]` authorises and `ddc` is not consulted. -/
theorem test_lw_cap : next (exec (.lw 5 10 4) (st capHart)) (fun s => holdsInt s 5 0x12345678) = true ∧
    faults (exec (.lw 5 9 4) (st capHart)) (.cheri .tag (.data 4) 0x1000) = true := by decide

/-- V-L17, V-L18 at XLEN = 64: LWU and LD of the bytes at 0x1000, from the launch state. -/
theorem test_rv64_loads :
    let s : State := ⟨.rv64, { Hart.launch .rv64 with mem := bytes }.setX 10 0x1000⟩
    next (exec (.lwu 5 10 4) s) (fun s => holdsInt s 5 0x12345678) = true ∧
    next (exec (.ld 5 10 0) s) (fun s => holdsInt s 5 0x1234567892340180) = true := by decide

/-- V-T1, V-T2: bytes stored, and the tag of the granule cleared. -/
theorem test_sb_sh :
    next (exec (.sb 5 10 3) (st (loadHart.setTag 0x1000 true)))
      (fun s => s.hart.byteAt 0x1003 == 0x34#8 && s.hart.byteAt 0x1002 == 0x34#8 && !s.hart.tagAt 0x1007) = true ∧
    next (exec (.sh 5 10 4) (st loadHart))
      (fun s => s.hart.byteAt 0x1004 == 0x34#8 && s.hart.byteAt 0x1005 == 0x12#8 && s.hart.byteAt 0x1006 == 0x34#8) = true := by
  decide

/-- V-T3, V-T4: a word at 0x1014, and no write permission. -/
theorem test_sw :
    next (exec (.sw 5 10 20) (st loadHart))
      (fun s => s.hart.byteAt 0x1014 == 0x34#8 && s.hart.byteAt 0x1015 == 0x12#8 && s.hart.byteAt 0x1016 == 0xCD#8 &&
        s.hart.byteAt 0x1017 == 0xAB#8) = true ∧
    faults (exec (.sw 5 10 0) (st (hart 6 12 [(10, cap 0 0x1000)] []))) (.cheri .permission (.data 0x1000) 0x1000) = true := by
  decide

/-- V-T6: SD at `ea = 0x1008`. -/
theorem test_sd :
    let s : State := ⟨.rv64, ((Hart.launch .rv64).setX 10 0x1010).setX 5 0x1122334455667788⟩
    next (exec (.sd 5 10 (-8)) s) (fun s => s.hart.byteAt 0x1008 == 0x88#8 && s.hart.byteAt 0x100F == 0x11#8) = true := by
  decide

/-! ## Branches and jumps -/

/-- `x[10] = a`, `x[11] = b` at 0x1000. -/
def cmp (a b : BitVec 32) : State := st (hart 6 4 [(10, Cap.ofInt a), (11, Cap.ofInt b)] [])

/-- The `pc` after an instruction. -/
def pcIs (o : Host.Outcome State Fault Refusal) (t : Nat) : Bool := next o (fun s => s.hart.pc.toNat == t)

/-- V-B1, V-B2, V-B6. -/
theorem test_beq_bne : pcIs (exec (.beq 10 11 8) (cmp 3 3)) 0x1008 = true ∧ pcIs (exec (.beq 10 11 8) (cmp 3 4)) 0x1004 = true ∧
    faults (exec (.bne 10 11 (-4)) (cmp 1 0)) (.cheri .bounds .jump 0x1000) = true := by decide

/-- V-B7 to V-B10. -/
theorem test_orders :
    pcIs (exec (.blt 10 11 16) (cmp 0xFFFFFFFF 0)) 0x1010 = true ∧ pcIs (exec (.bge 10 11 16) (cmp 0xFFFFFFFF 0)) 0x1004 = true ∧
    pcIs (exec (.bltu 10 11 16) (cmp 0xFFFFFFFF 0)) 0x1004 = true ∧ pcIs (exec (.bgeu 10 11 16) (cmp 0xFFFFFFFF 0)) 0x1010 = true := by
  decide

/-- V-J1, V-J2: an integer link in Integer Mode, `pcc` with the return address in Capability Mode (program P4). -/
theorem test_jal : next (exec (.jal 1 0x100) (cmp 0 0)) (fun s => holdsInt s 1 0x1004 && s.hart.pc.toNat == 0x1100) = true ∧
    next (exec (.jal 1 0x100) (st capHart)) (fun s => holdsCap s 1 7 0x1004 && s.hart.pc.toNat == 0x1100) = true := by decide

/-- V-J5, V-J6: bit 0 is cleared; bit 1 left set is misaligned. -/
theorem test_jalr_int : next (exec (.jalr 1 10 4) (cmp 0x1801 0)) (fun s => holdsInt s 1 0x1004 && s.hart.pc.toNat == 0x1804) = true ∧
    faults (exec (.jalr 0 10 1) (cmp 0x1801 0)) (.instructionAddressMisaligned 0x1802 0x1000) = true := by decide

/-- V-J10: the whole target is installed, and its M-bit selects Integer Mode. -/
theorem test_jalr_cap : next (exec (.jalr 1 1 0) (st capHart))
    (fun s => s.hart.pcc.metadata.toNat == 8 && s.hart.pc.toNat == 0x8000 && s.hart.mode == .int && holdsCap s 1 7 0x1004) = true := by
  decide

/-- R100, R182 with the check against the old `pcc` (log 47): the same jump is stopped, and one inside `pcc` is not; R109's
example at launch's `JalrCap`, whose link alone is open (log 10). -/
theorem test_jalr_pcc :
    let base := { allGiven with jalrPcc := true }
    let h : Hart Xlen.rv32.bits := { capHart with cfg := { cfg with base := base } }
    faults (exec (.jalr 1 1 0) (st h)) (.cheri .bounds .jump 0x1000) = true ∧
    next (exec (.jalr 0 11 0) (st ({ h with cfg := { cfg with base := { base with jalr := .free } } }.setC 11 (cap 6 0x1100))))
      (fun s => s.hart.pcc.tag && s.hart.pcc.metadata.toNat == 6 && s.hart.pc.toNat == 0x1100 && s.hart.mode == .int) = true := by decide

/-- V-A2, V-A3. -/
theorem test_auipc : next (exec (.auipc 5 0xFFFFF) (cmp 0 0)) (fun s => holdsInt s 5 0) = true ∧
    next (exec (.auipc 1 0) (st capHart)) (fun s => holdsCap s 1 7 0x1000) = true := by decide

/-! ## Mode instructions -/

/-- V-M2, V-M4: bit 0 of `x[11]` alone; no X-permission, no change. -/
theorem test_scmode :
    next (exec (.scmode 12 10 11) (st (hart 6 4 [(10, cap 6 0x1100), (11, Cap.ofInt 0xFFFFFFFF)] [])))
      (fun s => holdsCap s 12 7 0x1100) = true ∧
    next (exec (.scmode 12 10 11) (st (hart 6 4 [(10, cap 4 0x1100), (11, Cap.ofInt 1)] []))) (fun s => holdsCap s 12 4 0x1100) = true := by
  decide

/-- V-M6, V-M7. -/
theorem test_gcmode :
    next (exec (.gcmode 13 12) (st (hart 6 4 [(12, cap 7 0)] []))) (fun s => holdsInt s 13 1) = true ∧
    next (exec (.gcmode 13 12) (st (hart 6 4 [(12, cap 5 0)] []))) (fun s => holdsInt s 13 0) = true := by decide

/-- V-M9, V-M11. -/
theorem test_modesw_cap :
    next (exec .modeswCap (st loadHart)) (fun s => s.hart.mode == .cap && s.hart.pcc.metadata.toNat == 7 && s.hart.pc.toNat == 0x1004) = true ∧
    refuses (exec .modeswCap (st capHart)) (.wrongMode "MODESW.CAP") = true := by decide

/-- V-M10, V-M12. -/
theorem test_modesw_int :
    next (exec .modeswInt (st capHart)) (fun s => s.hart.mode == .int && s.hart.pcc.metadata.toNat == 6) = true ∧
    refuses (exec .modeswInt (st loadHart)) (.wrongMode "MODESW.INT") = true := by decide

/-- V-M13: illegal with CHERI access disabled, with the instruction word as info. -/
theorem test_disabled : faults (step (State.withFetchWord (st offHart) 32 0x100080B3)) (.illegalInstruction 0x100080B3 0x1000) = true := by
  decide

/-- R183: where an open encoding leaves a bit free, the info is the fetched word with that bit, not a word re-encoded. -/
theorem test_illegal_word :
    let enc := { Encodings.launch .rv32 with gctag := ⟨0x10000033#32, 0xFE00707F#32⟩ }
    let h : Hart Xlen.rv32.bits := { offHart with cfg := { offHart.cfg with enc := enc } }
    faults (step (State.withFetchWord (st h) 32 0x101080B3)) (.illegalInstruction 0x101080B3 0x1000) = true := by decide

/-- V-M14, V-M15. -/
theorem test_gctag : next (exec (.gctag 1 1) (st capHart)) (fun s => holdsInt s 1 1) = true ∧
    next (exec (.gctag 1 2) (st capHart)) (fun s => holdsInt s 1 0) = true := by decide

/-! ## LC and SC -/

/-- V-C1, V-C3: a capability loaded with its tag; a misaligned address. -/
theorem test_lc :
    next (exec (.lc 11 10 8) (st (loadHart.memWriteCap 0x1008 (cap 4 0x5000)))) (fun s => holdsCap s 11 4 0x5000) = true ∧
    faults (exec (.lc 11 10 12) (st loadHart)) (.loadAddressMisaligned 0x100C 0x1000) = true := by decide

/-- V-C6: bytes and tag stored, the address in the low half. -/
theorem test_sc :
    next (exec (.sc 5 10 16) (st loadHart))
      (fun s => s.hart.byteAt 0x1010 == 0x34#8 && s.hart.byteAt 0x1013 == 0xAB#8 && s.hart.byteAt 0x1014 == 4#8 && s.hart.tagAt 0x1017) = true := by
  decide

/-! ## CSR instructions -/

/-- V-Z1, V-Z4: `ddc` and a register exchanged whole, without ASR-permission. -/
theorem test_csrrw_ddc :
    next (exec (.csrrw 1 5 0x416) (st loadHart)) (fun s => holdsCap s 1 4 0 && ddcIs s true 4 0xABCD1234) = true ∧
    next (exec (.csrrw 5 5 0x416) (st loadHart)) (fun s => holdsCap s 5 4 0 && ddcIs s true 4 0xABCD1234) = true := by
  decide

/-- `jvtc` at 0x8000 over [0x8000, 0x9000), `x[6] = v`. -/
def jvtHart (pcc v : BitVec 32) : State := st ((hart pcc 4 [(6, cap 8 v)] []).setCapCsr 0x017 (cap 8 0x8000))

/-- V-Z16, V-Z18: the address view, and an address that is not representable. -/
theorem test_csrrw_ext_int :
    next (exec (.csrrw 5 6 0x017) (jvtHart 6 0x8400)) (fun s => holdsInt s 5 0x8000 && (s.hart.capCsr 0x017).addr.toNat == 0x8400 &&
      (s.hart.capCsr 0x017).tag) = true ∧
    next (exec (.csrrw 5 6 0x017) (jvtHart 6 0x80000000)) (fun s => (s.hart.capCsr 0x017).addr.toNat == 0x80000000 &&
      !(s.hart.capCsr 0x017).tag) = true := by decide

/-- V-Z17, V-Z20: the whole capability in Capability Mode. -/
theorem test_csr_ext_cap :
    next (exec (.csrrw 5 6 0x017) (jvtHart 7 0x8400)) (fun s => holdsCap s 5 8 0x8000) = true ∧
    next (exec (.csrrs 5 0 0x017) (jvtHart 7 0)) (fun s => holdsCap s 5 8 0x8000) = true := by decide

/-- R159: an ordinary CSR of no rule of its own stores `x[2]` as it is, and its old value goes to the destination. -/
theorem test_csrrw_ord :
    next (exec (.csrrw 5 2 0x343) (st ((hart 2 2 [(2, cap 4 0x1234)] []).setOrdCsr 0x343 7)))
      (fun s => holdsInt s 5 7 && s.hart.ordCsr 0x343 == 0x1234) = true := by decide

/-- V-Z7, V-Z9 on `ddc`. -/
theorem test_csrrs_csrrc :
    next (exec (.csrrs 1 2 0x416) (st { hart 6 4 [(2, Cap.ofInt 0x0F0)] [] with ddc := cap 4 0x1000 })) (fun s => ddcIs s true 4 0x10F0) = true ∧
    next (exec (.csrrc 1 2 0x416) (st { hart 6 4 [(2, Cap.ofInt 0x0F0)] [] with ddc := cap 4 0x10F0 }))
      (fun s => holdsCap s 1 4 0x10F0 && ddcIs s true 4 0x1000) = true := by decide

/-- V-Z6, V-Z8 with `ddc` sealed: a suppressed write leaves the tag, a write of nothing clears it. -/
theorem test_csrrs_sealed :
    next (exec (.csrrs 1 0 0x416) (st (hart 6 10 [] []))) (fun s => ddcIs s true 10 0) = true ∧
    next (exec (.csrrs 1 2 0x416) (st (hart 6 10 [] []))) (fun s => ddcIs s false 10 0) = true := by decide

/-- V-Z10, V-Z11, V-Z12. -/
theorem test_csr_immediates :
    next (exec (.csrrwi 1 8 0x416) (st loadHart)) (fun s => ddcIs s true 4 8) = true ∧
    next (exec (.csrrsi 1 4 0x416) (st { loadHart with ddc := cap 4 0x1000 })) (fun s => ddcIs s true 4 0x1004) = true ∧
    next (exec (.csrrci 1 7 0x416) (st { loadHart with ddc := cap 4 0x1007 })) (fun s => ddcIs s true 4 0x1000) = true := by
  decide

/-- V-Z15, V-Z21, V-Z23: CHERI access disabled, no ASR-permission, a read-only CSR. -/
theorem test_csr_stops :
    faults (step (State.withFetchWord (st offHart) 32 0x416110F3)) (.illegalInstruction 0x416110F3 0x1000) = true ∧
    faults (exec (.csrrw 5 6 0x300) (st loadHart)) (.cheri .permission .csr 0x1000) = true ∧
    faults (step (State.withFetchWord (st loadHart) 32 0xC00312F3)) (.illegalInstruction 0xC00312F3 0x1000) = true := by decide

/-! ## The step -/

/-- A word placed where the launch state fetches is the instruction its first step runs. -/
theorem test_step_first : next (step (State.reset.withFetchWord 32 0x00001297)) (fun s => holdsInt s 5 0x2000 && s.hart.pc.toNat == 0x1004) = true := by
  decide

/-- The launch state has no program, and a word that is no row is refused (R67). -/
theorem test_step_reset : refuses (step State.reset) (.outsideText 0x1000) = true ∧
    refuses (step (State.reset.withFetchWord 32 0x00000013)) (.undecodable 0x13) = true := by decide

/-- V-T7, R205: a store over the program text is refused, and so is executing what a store has put elsewhere. -/
theorem test_text :
    refuses (step ((st (hart 2 2 [(10, Cap.ofInt 0x1000)] [])).withFetchWord 32 0x00552023)) (.programText 0x1000) = true ∧
    next (exec (.sw 5 10 0) (st (loadHart.setX 5 0x00001297)))
      (fun s => (s.hart.setPc 0x1000).fetchedWord == 0x00001297#32 &&
        refuses (step { s with hart := s.hart.setPc 0x1000 }) (.outsideText 0x1000)) = true := by decide

/-- R41, R50: an access past the top of memory reaches the bytes at 0, so it meets a range there; R80: no `AuthCheck` lets
it happen, the infinite capability's authority or not. -/
theorem test_top : meetsAny [⟨0, 2⟩] (0xFFFFFFFE : BitVec 32) 4 = true ∧ meetsAny [⟨2, 8⟩] (0xFFFFFFFE : BitVec 32) 4 = false ∧
    (authCheck { cfg with base := { allGiven with auth := .free } } (cap 2 0) .store 0xFFFFFFFE 4).isSome = true := by decide

/-- R80: with `ddc` untagged every Integer Mode load and store faults, with `rd = x0` too, whichever the `AuthCheck`; V-L20: so
does a Capability Mode load whose base register is untagged. -/
theorem test_untagged :
    let base : BaseFunctions := { allGiven with auth := .free }
    let int : Hart Xlen.rv32.bits := { loadHart with cfg := { cfg with base := base }, ddc := Cap.mk false 2 0 }
    let capab : Hart Xlen.rv32.bits := { capHart with cfg := { cfg with base := base } }
    faults (exec (.lb 0 10 0) (st int)) (.cheri .tag (.data 0x1000) 0x1000) = true ∧
    faults (exec (.sw 5 10 2) (st int)) (.cheri .tag (.data 0x1002) 0x1000) = true ∧
    faults (exec (.lw 5 10 0) (st (capab.setX 10 0x1000))) (.cheri .tag (.data 0x1000) 0x1000) = true := by decide

/-- R5, R47: `INFINITE_CAP` is so by its metadata, whatever its address and M-bit; a capability that grants as much is not it,
so that an `AuthCheck` of another base extension may deny it a store. -/
theorem test_infinite :
    let other : Config 32 := { cfg with forms := ⟨14, ⟨⟨true, true, true, true⟩, false⟩, ⟨0, 2 ^ 32⟩, 0, 2 ^ 32, ⟨0, 2 ^ 32⟩⟩ :: forms }
    (cap 2 0x1234).isInfinite other = true ∧ (cap 3 0).isInfinite other = true ∧ (Cap.mk false 2 0).isInfinite other = false ∧
    (cap 14 0).isInfinite other = false ∧ grantsAll other (cap 14 0) ∧ grantsAll other (cap 3 0x1234) := by
  unfold grantsAll
  decide

/-! ## Words of CapModeStep -/

/-- The stores and the target of an effect that `CapModeStep` may answer, with no register written. -/
def effect (stores : List (BaseAccess Xlen.rv32.bits × Datum)) (target : Option (BitVec Xlen.rv32.bits)) :
    BaseEffect Xlen.rv32.bits := ⟨stores, [], target⟩

/-- R40, R92: in Integer Mode a store of four bytes is checked against `ddc` as one access, at its own address; R42: in
Capability Mode against its base register. -/
theorem test_base_stores :
    next (State.run (st loadHart) (loadHart.baseEffect true (effect [(⟨10, 0x1004, .bytes 4⟩, ⟨false, 0x0A0B0C0D⟩)] none)))
      (fun s => s.hart.byteAt 0x1004 == 0x0D#8 && s.hart.byteAt 0x1007 == 0x0A#8 && s.hart.pc.toNat == 0x1004) = true ∧
    faults (State.run (st loadHart) (loadHart.baseEffect true (effect [(⟨10, 0xFFC, .bytes 8⟩, ⟨false, 0⟩)] none)))
      (.cheri .bounds (.data 0xFFC) 0x1000) = true ∧
    faults (State.run (st capHart) (capHart.baseEffect true (effect [(⟨10, 0x1004, .bytes 4⟩, ⟨false, 0⟩)] none)))
      (.cheri .permission (.data 0x1004) 0x1000) = true := by decide

/-- R40, R92: in Integer Mode a load below `ddc` raises, and an allowed one brings its bytes. -/
theorem test_base_loads :
    faults (State.run (st loadHart) (loadHart.needBaseLoads (.next loadHart) [⟨10, 0x1000, .bytes 4⟩, ⟨10, 0xFFC, .bytes 4⟩]))
      (.cheri .bounds (.data 0xFFC) 0x1000) = true ∧
    loadHart.baseLoaded ⟨10, 0x1004, .bytes 4⟩ = ⟨false, 0x12345678⟩ := by decide

/-- R100, R111: a transfer is checked against `pcc`, and changes its address alone; R142: the mode is not to be seen. -/
theorem test_base_transfer :
    next (State.run (st loadHart) (loadHart.baseEffect true (effect [] (some 0x1800)))) (fun s => s.hart.pcc.tag && s.hart.pcc.metadata.toNat == 6 && s.hart.pc.toNat == 0x1800) = true ∧
    faults (State.run (st loadHart) (loadHart.baseEffect true (effect [] (some 0x3000)))) (.cheri .bounds .jump 0x1000) = true ∧
    faults (State.run (st loadHart) (loadHart.baseEffect true (effect [] (some 0x1802)))) (.instructionAddressMisaligned 0x1802 0x1000) = true ∧
    ({ loadHart with pcc := cap 7 0x1000 } : Hart Xlen.rv32.bits).baseView = loadHart.baseView := by decide

/-- A hart whose memory is program text everywhere, in Integer Mode with everything authorised. -/
def textHart : Hart Xlen.rv32.bits :=
  { loadHart with cfg := { cfg with text := [⟨0, 2 ^ 32⟩] }, pcc := cap 2 0x1000, ddc := cap 2 0 }

/-- A hart with nothing backed and no END_PC, in Integer Mode with everything authorised. -/
def unbackedHart : Hart Xlen.rv32.bits :=
  { loadHart with cfg := { cfg with unbacked := [⟨0, 2 ^ 32⟩] }, pcc := cap 2 0x1000, ddc := cap 2 0 }

/-- R47, R48, D13, R52: an authorised access of `CapModeStep` stops as the table's do: misaligned bytes are refused, a
misaligned capability raises, memory that is not backed and a store over the program text are refused. -/
theorem test_base_stops :
    refuses (State.run (st loadHart) (loadHart.needBaseLoads (.next loadHart) [⟨10, 0x1002, .bytes 4⟩])) (.misaligned 0x1002) = true ∧
    faults (State.run (st loadHart) (loadHart.needBaseLoads (.next loadHart) [⟨10, 0x1004, .cap⟩])) (.loadAddressMisaligned 0x1004 0x1000) = true ∧
    refuses (State.run (st unbackedHart) (unbackedHart.needBaseLoads (.next unbackedHart) [⟨10, 0x1004, .bytes 4⟩])) (.unbacked 0x1004) = true ∧
    refuses (State.run (st textHart) (textHart.baseEffect true (effect [(⟨10, 0x1004, .bytes 4⟩, ⟨false, 0⟩)] none))) (.programText 0x1004) = true := by
  decide

/-! ## Entry to a handler -/

/-- The family's machine-mode trap CSRs (log 15). -/
def trapCsrs : TrapCsrs := ⟨0x305, 0x341, 0x342, 0x343, 0x34B, 0x300⟩

/-- A hart that enters a handler. -/
def trapHart : Hart Xlen.rv32.bits := { loadHart with cfg := { cfg with trap := .handler trapCsrs } }

/-- A hart with CHERI access disabled whose handler's capability is at 0x1801, and MIE set. -/
def trapOffHart : Hart Xlen.rv32.bits :=
  (({ trapHart with cfg := { trapHart.cfg with cheriAccess := ⟨false, false, false⟩ } }).setCapCsr 0x305 (cap 7 0x1801)).setOrdCsr 0x300 8

/-- R187, R192: an illegal instruction saves `pcc`, installs the vector capability, and leaves cause 2, the instruction word,
and in the status register MPP 3, MPIE 1, MIE 0 (logs 24 to 26). -/
theorem test_trap_illegal :
    next (exec (.gctag 1 1) (st trapOffHart)) (fun s => (s.hart.capCsr 0x341).tag && (s.hart.capCsr 0x341).metadata.toNat == 6 &&
      (s.hart.capCsr 0x341).addr.toNat == 0x1000 && s.hart.pcc.tag && s.hart.pcc.metadata.toNat == 7 && s.hart.pc.toNat == 0x1800 &&
      s.hart.ordCsr 0x342 == 2 && s.hart.ordCsr 0x343 == 0x92340180 && s.hart.ordCsr 0x300 == 0x1880) = true := by decide

/-- R192: the target of a misaligned jump, cause 0; the address of a misaligned SC, cause 6. -/
theorem test_trap_misaligned :
    next (exec (.jal 1 0x802) (st trapHart)) (fun s => s.hart.ordCsr 0x342 == 0 && s.hart.ordCsr 0x343 == 0x1802) = true ∧
    next (exec (.sc 5 10 4) (st trapHart)) (fun s => s.hart.ordCsr 0x342 == 6 && s.hart.ordCsr 0x343 == 0x1004) = true := by decide

/-! ## Witnesses: the hypotheses of each obligation, met together -/

/-- The hypotheses of MemoryReads, MemoryWrites, CapabilityRoundTrip and CsrStorage, up to the top of memory. -/
theorem witness_memory :
    (8 ∈ [1, 2, 4, 8]) ∧ Memory.wf loadHart = true ∧ (0xFFFFFFF8 : BitVec 32).toNat % clenBytes 32 = 0 ∧
    csrTablesWf loadHart = true ∧ csrTablesWf (jvtHart 6 0).hart = true := by decide

/-- The word `auipc x5, 1` at the `pc` of the vectors. -/
def placed : State := (st (hart 6 4 [] [])).withFetchWord 32 0x00001297

/-- The hypotheses of StepRunsDecoded: backed memory, an allowed fetch, a decodable word. -/
theorem witness_StepRunsDecoded :
    placed.hart.final = false ∧ authCheck placed.hart.cfg placed.hart.pcc .fetch placed.hart.pc 4 = none ∧
    placed.hart.backed placed.hart.pc 4 ∧ placed.hart.isText placed.hart.pc 4 ∧
    decode placed.xlen placed.hart.cfg.enc placed.hart.mode (placed.hart.bytesFrom placed.hart.pc 4) = .ok (.auipc 5 1, []) :=
  ⟨by decide, by decide, by unfold Hart.backed; decide, by unfold Hart.isText; decide, rfl⟩

/-- A hart whose memory is not backed anywhere, is program text everywhere, and END_PC its own `pc`. -/
def bareHart : Hart Xlen.rv32.bits :=
  { loadHart with cfg := { cfg with unbacked := [⟨0, 2 ^ 32⟩], text := [⟨0, 2 ^ 32⟩], endPc := some 0x1000 } }

/-- The launch state with a word of no row at `pc` and a base CHERI extension that has instructions of its own. -/
def delegating : State :=
  let h := Hart.launch .rv64
  State.withFetchWord ⟨.rv64, { h with cfg := { h.cfg with base := { h.cfg.base with capModeStep := .free } } }⟩ 32 0x00000013

/-- The last clause of StepStops. -/
theorem witness_StepStops_delegated :
    delegating.hart.final = false ∧
    authCheck delegating.hart.cfg delegating.hart.pcc .fetch delegating.hart.pc 4 = none ∧
    delegating.hart.backed delegating.hart.pc 4 ∧ delegating.hart.isText delegating.hart.pc 4 ∧
    decode .rv64 delegating.hart.cfg.enc delegating.hart.mode (delegating.hart.bytesFrom delegating.hart.pc 4) =
      .error .noSuchWord ∧
    delegating.hart.cfg.base.capModeStep = .free ∧ delegating.hart.cheriEnabled = true :=
  ⟨by decide, by decide, by unfold Hart.backed; decide, by unfold Hart.isText; decide, rfl, rfl, by decide⟩

/-- The launch state with a word at `pc` that is no 32-bit encoding. -/
def unknownWord : State := State.reset.withFetchWord 32 0x00000001

/-- The first five clauses of StepStops: END_PC; a failed fetch check; unbacked memory; no program text; a word that
is no instruction. -/
theorem witness_StepStops :
    (bareHart.cfg.endPc = some bareHart.pc) ∧
    (capHart.setPc 0x3000).final = false ∧
    authCheck capHart.cfg (capHart.setPc 0x3000).pcc .fetch (capHart.setPc 0x3000).pc 4 = some .bounds ∧
    unbackedHart.final = false ∧ authCheck unbackedHart.cfg unbackedHart.pcc .fetch unbackedHart.pc 4 = none ∧
    ¬unbackedHart.backed unbackedHart.pc 4 ∧
    State.reset.hart.final = false ∧
    authCheck State.reset.hart.cfg State.reset.hart.pcc .fetch State.reset.hart.pc 4 = none ∧
    State.reset.hart.backed State.reset.hart.pc 4 ∧ ¬State.reset.hart.isText State.reset.hart.pc 4 ∧
    unknownWord.hart.final = false ∧
    authCheck unknownWord.hart.cfg unknownWord.hart.pcc .fetch unknownWord.hart.pc 4 = none ∧
    unknownWord.hart.backed unknownWord.hart.pc 4 ∧ unknownWord.hart.isText unknownWord.hart.pc 4 ∧
    decode .rv64 unknownWord.hart.cfg.enc unknownWord.hart.mode (unknownWord.hart.bytesFrom unknownWord.hart.pc 4) =
      .error .notThirtyTwoBit := by
  unfold Hart.backed Hart.isText
  exact ⟨by decide, by decide, by decide, by decide, by decide, by decide, by decide, by decide, by decide, by decide, by decide,
    by decide, by decide, by decide, rfl⟩

/-- The hypotheses of DecodedWellFormed and EncodeOfDecode. -/
theorem witness_decoded : decodeWord .rv64 (.launch .rv64) .int 0xFEB51EE3#32 = .ok (.bne 10 11 (-4)) ∧
    fixedEncoding (.bne 10 11 (-4)) = true := ⟨rfl, rfl⟩

/-- Open encodings in which the two mode switches are one word (R63). -/
def oneSwitch : Encodings := { Encodings.launch .rv32 with modeswInt := (Encodings.launch .rv32).modeswCap }

/-- The hypotheses of DecodeOfEncode: launch encodings at both XLEN, and coinciding mode switches. -/
theorem witness_DecodeOfEncode :
    (Encodings.launch .rv64).ok .rv64 = true ∧ (Encodings.launch .rv32).ok .rv32 = true ∧
    Instr.wf .rv64 (.jal 1 (-4)) = true ∧ (Encodings.launch .rv64).modeswCap ≠ (Encodings.launch .rv64).modeswInt ∧
    oneSwitch.ok .rv32 = true ∧ oneSwitch.modeswCap = oneSwitch.modeswInt := by decide

/-- The hypotheses of DecodingModeBlind. -/
theorem witness_DecodingModeBlind :
    (Encodings.launch .rv32).ok .rv32 = true ∧ (Encodings.launch .rv32).modeswCap ≠ (Encodings.launch .rv32).modeswInt := by
  decide

/-- The launch hart at XLEN = 64 with `x[10]` at the last 8 bytes of memory. -/
def topHart : Hart Xlen.rv64.bits := (Hart.launch .rv64).setX 10 0xFFFFFFFFFFFFFFF8

/-- The hypotheses of LoadsComplete, each width, in both modes and at the top of memory. -/
theorem witness_LoadsComplete :
    loadHart.loadAllowed 1 10 3 ∧ loadHart.loadAllowed 2 10 6 ∧ loadHart.loadAllowed 4 10 0xFC ∧ capHart.loadAllowed 4 10 4 ∧
    topHart.loadAllowed 8 10 0 := by
  unfold Hart.loadAllowed Hart.loadAllowedAt Hart.authorised Hart.alignmentAllows Hart.backed
  decide

/-- The hypotheses of StoresComplete. -/
theorem witness_StoresComplete :
    ((Instr.sb 5 10 0, 1) ∈ baseStores .rv32 5 10 0 ∧ loadHart.storeAllowed 1 10 0) ∧
    ((Instr.sh 5 10 2, 2) ∈ baseStores .rv32 5 10 2 ∧ loadHart.storeAllowed 2 10 2) ∧
    ((Instr.sw 5 10 4, 4) ∈ baseStores .rv32 5 10 4 ∧ loadHart.storeAllowed 4 10 4) ∧
    ((Instr.sd 5 10 0, 8) ∈ baseStores .rv64 5 10 0 ∧ topHart.storeAllowed 8 10 0) := by
  unfold Hart.storeAllowed Hart.storeAllowedAt Hart.authorised Hart.alignmentAllows Hart.backed Hart.offText
  decide

/-- The hypotheses of UnauthorisedAccess: a load below `ddc`, a store through an untagged register, LC without a tag. -/
theorem witness_UnauthorisedAccess :
    (Instr.lw 5 10 (-4), 4) ∈ baseLoads .rv32 5 10 (-4) ∧
    authCheck loadHart.cfg loadHart.ddc .load (loadHart.x 10 + (-4 : BitVec 12).signExtend Xlen.rv32.bits) 4 = some .bounds ∧
    loadHart.mode = .int ∧ (Instr.sw 5 9 0, 4) ∈ baseStores .rv32 5 9 0 ∧
    authCheck capHart.cfg (capHart.creg 9) .store (capHart.x 9 + (0 : BitVec 12).signExtend Xlen.rv32.bits) 4 = some .tag ∧
    capHart.mode = .cap ∧ capHart.cheriEnabled = true ∧
    authCheck capHart.cfg (capHart.creg 9) .loadCap (capHart.x 9 + (0 : BitVec 12).signExtend Xlen.rv32.bits) 8 = some .tag := by decide

/-- The hypotheses of MisalignedAccess: the policies `refuse` and `trap`, and LC and SC off their granule. -/
theorem witness_MisalignedAccess :
    loadHart.authorised .load 10 (loadHart.x 10 + (1 : BitVec 12).signExtend Xlen.rv32.bits) 4 ∧
    loadHart.authorised .store 10 (loadHart.x 10 + (1 : BitVec 12).signExtend Xlen.rv32.bits) 4 ∧
    (loadHart.x 10 + (1 : BitVec 12).signExtend Xlen.rv32.bits).toNat % 4 ≠ 0 ∧ loadHart.cfg.misaligned = .refuse ∧
    ({ loadHart with cfg := { cfg with misaligned := .trap } } : Hart Xlen.rv32.bits).cfg.misaligned = .trap ∧
    loadHart.cheriEnabled = true ∧ (loadHart.x 10 + (4 : BitVec 12).signExtend Xlen.rv32.bits).toNat % clenBytes 32 ≠ 0 ∧
    loadHart.authorised .loadCap 10 (loadHart.x 10 + (4 : BitVec 12).signExtend Xlen.rv32.bits) 8 ∧
    loadHart.authorised .storeCap 10 (loadHart.x 10 + (4 : BitVec 12).signExtend Xlen.rv32.bits) 8 := by
  unfold Hart.authorised
  decide

/-- The hypotheses of RefusedAccess: memory that is not backed, and program text. -/
theorem witness_RefusedAccess :
    unbackedHart.authorised .load 10 (unbackedHart.x 10) 4 ∧ unbackedHart.alignmentAllows (unbackedHart.x 10) 4 ∧
    ¬unbackedHart.backed (unbackedHart.x 10) 4 ∧ unbackedHart.authorised .store 10 (unbackedHart.x 10) 4 ∧
    textHart.authorised .store 10 (textHart.x 10) 4 ∧ textHart.backed (textHart.x 10) 4 ∧ ¬textHart.offText (textHart.x 10) 4 ∧
    unbackedHart.cheriEnabled = true ∧ (unbackedHart.x 10).toNat % clenBytes 32 = 0 ∧
    unbackedHart.authorised .loadCap 10 (unbackedHart.x 10) 8 ∧ unbackedHart.authorised .storeCap 10 (unbackedHart.x 10) 8 ∧
    ¬unbackedHart.backed (unbackedHart.x 10) 8 := by
  unfold Hart.authorised Hart.alignmentAllows Hart.backed Hart.offText
  decide

/-- The hypotheses of LoadCapCompletes and StoreCapCompletes, off and over the program text. -/
theorem witness_capAccess :
    loadHart.capAccessAllowed .loadCap 10 8 ∧ capHart.capAccessAllowed .loadCap 10 8 ∧
    loadHart.capAccessAllowed .storeCap 10 16 ∧ loadHart.offText (loadHart.x 10 + (16 : BitVec 12).signExtend Xlen.rv32.bits) 8 ∧
    textHart.capAccessAllowed .storeCap 10 16 ∧ ¬textHart.offText (textHart.x 10 + (16 : BitVec 12).signExtend Xlen.rv32.bits) 8 ∧
    loadHart.cfg.base.loadFilter = .given ∧ loadHart.cfg.base.storeFilter = .given := by
  unfold Hart.capAccessAllowed Hart.capAllowedAt Hart.authorised Hart.backed Hart.offText
  decide

/-- The hypotheses of BranchesComplete and TransferFaults: a condition that holds and one that fails; targets allowed, out
of bounds, misaligned. -/
theorem witness_branches :
    (Instr.bltu 10 11 8, (loadHart.x 10).toNat < (loadHart.x 11).toNat) ∈ branches loadHart 10 11 8 ∧
    ¬(loadHart.x 10).toNat < (loadHart.x 11).toNat ∧ (loadHart.x 11).toNat < (loadHart.x 10).toNat ∧
    loadHart.targetAllowed (loadHart.pc + (8 : BitVec 13).signExtend Xlen.rv32.bits) ∧ loadHart.targetAllowed 0x1FFC ∧
    authCheck loadHart.cfg loadHart.pcc .jump (loadHart.pc + (-4 : BitVec 13).signExtend Xlen.rv32.bits) loadHart.cfg.minInsn.bytes = some .bounds ∧
    authCheck loadHart.cfg loadHart.pcc .jump (loadHart.pc + (2 : BitVec 13).signExtend Xlen.rv32.bits) loadHart.cfg.minInsn.bytes = none ∧
    (loadHart.pc + (2 : BitVec 13).signExtend Xlen.rv32.bits).toNat % loadHart.cfg.minInsn.bytes ≠ 0 ∧ loadHart.mode = .int := by
  refine ⟨by simp [branches], ?_⟩
  unfold Hart.targetAllowed
  decide

/-- The hypotheses of JalCompletes and JalrIntegerCompletes. -/
theorem witness_jumps :
    loadHart.targetAllowed (loadHart.pc + (0x100 : BitVec 21).signExtend Xlen.rv32.bits) ∧ loadHart.mode = .int ∧
    capHart.targetAllowed (capHart.pc + (0x100 : BitVec 21).signExtend Xlen.rv32.bits) ∧ capHart.mode = .cap ∧
    loadHart.targetAllowed ((loadHart.x 10 + (5 : BitVec 12).signExtend Xlen.rv32.bits) &&& ~~~1) ∧ capHart.cfg.base.link = .given := by
  unfold Hart.targetAllowed
  decide

/-- `capHart` with R100's check against the old `pcc`. -/
def pccHart : Hart Xlen.rv32.bits := { capHart with cfg := { cfg with base := { allGiven with jalrPcc := true } } }

/-- The hypotheses of JalrCapabilityCompletes and of the Capability Mode clauses of TransferFaults: a target installed, one
misaligned, one outside the old `pcc`, one rejected. -/
theorem witness_JalrCapability :
    capHart.mode = .cap ∧ (capHart.x 1 + (0 : BitVec 12).signExtend Xlen.rv32.bits) &&& ~~~1 = 0x8000 ∧
    capHart.cfg.base.jalrPcc = false ∧ capHart.jalrPccFailure 0x8000 = none ∧ capHart.jalrFailure (capHart.creg 1) 0 0x8000 = none ∧
    0x8000 % capHart.cfg.minInsn.bytes = 0 ∧ (capHart.creg 1).isSealed capHart.cfg = false ∧ capHart.cfg.base.jalr = .given ∧
    authCheck capHart.cfg (cap 8 0x8000) .jump 0x8000 capHart.cfg.minInsn.bytes = none ∧
    capHart.jalrFailure (capHart.creg 1) 2 0x8002 = none ∧ 0x8002 % capHart.cfg.minInsn.bytes ≠ 0 ∧
    pccHart.mode = .cap ∧ pccHart.cfg.base.jalrPcc = true ∧
    authCheck pccHart.cfg pccHart.pcc .jump 0x8000 pccHart.cfg.minInsn.bytes = some .bounds ∧
    capHart.jalrPccFailure 0 = none ∧ capHart.jalrFailure (capHart.creg 9) 0 0 = some .tag := by decide

/-- The hypotheses of AuipcCompletes. -/
theorem witness_AuipcCompletes :
    loadHart.mode = .int ∧ capHart.mode = .cap ∧ capHart.cfg.base.setAddr = .given := by decide

/-- Everything permitted, Integer Mode or (with `pcc` metadata 3) Capability Mode. -/
def openHart (pcc : BitVec 32) : Hart Xlen.rv32.bits := hart pcc 2 [(2, cap 4 0x1000)] []

/-- The hypotheses of the CSR statements: `ddc` in both modes, an extended CSR in both, an ordinary one, and a read-only
one read. -/
theorem witness_csrAllowed :
    loadHart.csrAllowed 0x416 true ⟨0x416, .new, false, .given⟩ ∧ capHart.csrAllowed 0x416 true ⟨0x416, .new, false, .given⟩ ∧
    loadHart.csrAllowed 0x017 true ⟨0x017, .ext, false, .given⟩ ∧ capHart.csrAllowed 0x017 true ⟨0x017, .ext, false, .given⟩ ∧
    (openHart 2).csrAllowed 0x343 true ⟨0x343, .ord, true, .given⟩ ∧
    loadHart.csrAllowed 0xC00 ((0 : Reg) != 0) ⟨0xC00, .ord, false, .given⟩ := by
  unfold Hart.csrAllowed
  decide

/-- The classes and modes the CSR statements speak of. -/
theorem witness_csrClasses :
    capAccess loadHart.mode .new = true ∧ capAccess capHart.mode .ext = true ∧ loadHart.mode = .int := by decide

/-- The hypotheses of CsrChecks: not implemented; too low a privilege; read-only; access disabled; no ASR-permission. -/
theorem witness_CsrChecks :
    (Instr.csrrw 1 2 0x7FF, true) ∈ csrInstrs 1 2 0x7FF ∧ csrAt loadHart.cfg 0x7FF = none ∧
    csrAt loadHart.cfg 0x300 = some ⟨0x300, .ord, true, .free⟩ ∧ ¬(0x300 : CsrAddr).extractLsb' 8 2 ≤ Priv.level .user ∧
    csrAt loadHart.cfg 0xC00 = some ⟨0xC00, .ord, false, .given⟩ ∧ (0xC00 : CsrAddr).extractLsb' 10 2 = 3#2 ∧
    csrAt offHart.cfg 0x416 = some ddcDesc ∧ capAccess offHart.mode .new = true ∧ offHart.cheriEnabled = false ∧
    (0x416 : CsrAddr).extractLsb' 8 2 ≤ Priv.level offHart.priv ∧ (0x416 : CsrAddr).extractLsb' 10 2 ≠ 3#2 ∧
    loadHart.pcc.permAsr loadHart.cfg = false ∧ (0x300 : CsrAddr).extractLsb' 8 2 ≤ Priv.level loadHart.priv ∧
    (0x300 : CsrAddr).extractLsb' 10 2 ≠ 3#2 := by decide

/-- The hypothesis of ExtCsrWriteDefault. -/
theorem witness_ExtCsrWriteDefault : ddcDesc.write = .given := rfl

/-- The hypotheses of DdcAccess, ScmodeCompletes, GcmodeCompletes, GctagCompletes and of each clause of ModeswCapCompletes,
ModeswIntCompletes and DisabledIsIllegal. -/
theorem witness_modeInstructions :
    loadHart.cheriEnabled = true ∧ loadHart.mode = .int ∧ capHart.cheriEnabled = true ∧ capHart.mode = .cap ∧
    offHart.cheriEnabled = false ∧ offHart.mode = .int ∧ (Instr.csrrsi 1 4 0x416, true) ∈ csrInstrs 1 4 0x416 ∧
    csrAt offHart.cfg 0x416 = some ddcDesc ∧ capAccess offHart.mode ddcDesc.cls = true := by decide

/-- The hypotheses of ObservingSequence in Capability Mode. -/
theorem witness_ObservingSequence :
    capHart.cheriEnabled = true ∧ capHart.mode = .cap ∧ capHart.cfg.base.setAddr = .given ∧ capHart.pcc.tag = true ∧
    capHart.pcc.isSealed capHart.cfg = false := by decide

/-- The hypotheses of HandlerEntry and of TerminalException. -/
theorem witness_exceptions :
    trapHart.cfg.trap = .handler trapCsrs ∧ csrTablesWf trapHart = true ∧
    [trapCsrs.cause, trapCsrs.tval, trapCsrs.tval2, trapCsrs.status].Nodup ∧ trapCsrs.epc ≠ ddcAddr ∧
    loadHart.cfg.trap = .terminal := by decide

/-- The hypotheses of LegacyConfiguration: both infinite, Integer Mode; a capability that grants all; an access up to the top
and one past it. -/
theorem witness_LegacyConfiguration :
    (openHart 2).cfg.base.auth = .given ∧ infinite (openHart 2).cfg (openHart 2).pcc ∧ infinite (openHart 2).cfg (openHart 2).ddc ∧ (openHart 2).mode = .int ∧
    grantsAll (openHart 2).cfg (cap 2 8) ∧
    (0xFFFFFFFC : BitVec 32).toNat + 4 ≤ 2 ^ 32 ∧ 2 ^ 32 < (0xFFFFFFFC : BitVec 32).toNat + 8 := by
  unfold infinite grantsAll
  decide

/-- The hypotheses of InvariantKept, SettingFixed and IntegerModeWritesConfined: a step that answers a next state, with
program text. -/
theorem witness_step : placed.Inv = true ∧ placed.hart.mode = .int ∧ placed.hart.isText 0x1003 1 ∧ ∃ t, step placed = .next t :=
  ⟨by decide, by decide, by unfold Hart.isText; decide, _, rfl⟩

/-- The hypotheses of PccMetadataWriters and DdcWriters, in their clauses: a mode switch, a Capability Mode JALR, a write of
`ddc`, a handler entry, and a step. -/
theorem witness_writers :
    (∃ t, exec .modeswCap (st loadHart) = .next t) ∧ (∃ t, exec .modeswInt (st capHart) = .next t) ∧
    (∃ t, exec (.jalr 1 1 0) (st capHart) = .next t) ∧ (∃ t, exec (.csrrw 1 2 0x416) (st loadHart) = .next t) ∧
    (∃ t, exec (.lw 5 10 (-4)) (st trapHart) = .next t) ∧ (∃ h', trapHart.Entered h') ∧ ∃ t, step placed = .next t :=
  ⟨⟨_, rfl⟩, ⟨_, rfl⟩, ⟨_, rfl⟩, ⟨_, rfl⟩, ⟨_, rfl⟩, ⟨_, trapCsrs, .illegal 0, rfl, rfl⟩, _, rfl⟩

/-- `loadHart` with `lw x5, 0(x10)` at its `pc`. -/
def readHart : Hart Xlen.rv32.bits := ((st loadHart).withFetchWord 32 0x00052283).hart

/-- The hypotheses of IntegerModeReadsConfined: two harts that differ in a byte outside `ddc`, a load, and a
step. -/
theorem witness_IntegerModeReadsConfined :
    readHart.mode = .int ∧ readHart.pokeByte 0x3000 1 ≠ readHart ∧
    readHart.pokeByte 0x3000 1 =
      { readHart with mem := (readHart.pokeByte 0x3000 1).mem, tags := (readHart.pokeByte 0x3000 1).tags } ∧
    (readHart.pokeByte 0x3000 1).bytesFrom readHart.pc 4 = readHart.bytesFrom readHart.pc 4 ∧
    (∀ (k : AccessKind) (ea : BitVec 32) (n j : Nat), k = .load ∨ k = .loadCap →
      authCheck readHart.cfg readHart.ddc k ea n = none → j < n →
      (readHart.pokeByte 0x3000 1).byteAt (ea + BitVec.ofNat 32 j) = readHart.byteAt (ea + BitVec.ofNat 32 j) ∧
        (readHart.pokeByte 0x3000 1).tagAt (ea + BitVec.ofNat 32 j) = readHart.tagAt (ea + BitVec.ofNat 32 j)) ∧
    (∃ h', exec (.lw 5 10 0) (st readHart) = .next ⟨.rv32, h'⟩) ∧ ∃ h', step (st readHart) = .next ⟨.rv32, h'⟩ := by
  refine ⟨by decide, by decide, rfl, by decide, fun k ea n j _ ha hj => ⟨readHart.byteAt_pokeByte_ne 1 ?_, rfl⟩, ⟨_, rfl⟩, _, rfl⟩
  intro he
  have hb : ¬(ea.toNat < 0x1000 ∨ 0x2000 < ea.toNat + n) := by
    intro hc
    have : authCheck readHart.cfg readHart.ddc k ea n ≠ none := by
      change authCheckDefault readHart.cfg (cap 4 0) k ea n ≠ none
      have hbase : Cap.base readHart.cfg (cap 4 0) = 0x1000 := by decide
      have htop : Cap.top readHart.cfg (cap 4 0) = 0x2000 := by decide
      simp only [authCheckDefault, hbase, htop]
      split
      · simp
      · split
        · simp
        · split
          · simp
          · exact fun hn => absurd ((if_pos hc).symm.trans hn) (Option.some_ne_none _)
    exact this ha
  have h3 : (ea + BitVec.ofNat 32 j).toNat = 0x3000 := congrArg BitVec.toNat he
  rw [BitVec.toNat_add, BitVec.toNat_ofNat] at h3
  omega

/-- The hypotheses of the frames: one instruction of each kind answers a next state. -/
theorem witness_frames :
    (∃ t, exec (.lw 5 10 0) (st loadHart) = .next t) ∧ (∃ t, exec (.lc 5 10 0) (st loadHart) = .next t) ∧
    (∃ t, exec (.sw 5 10 0) (st loadHart) = .next t) ∧ (∃ t, exec (.sc 5 10 0) (st loadHart) = .next t) ∧
    (∃ t, exec (.beq 10 10 8) (st loadHart) = .next t) ∧ (∃ t, exec (.jal 1 8) (st loadHart) = .next t) ∧
    (∃ t, exec (.jalr 1 10 8) (st loadHart) = .next t) ∧ ∃ t, exec (.csrrs 1 0 0x416) (st loadHart) = .next t :=
  ⟨⟨_, rfl⟩, ⟨_, rfl⟩, ⟨_, rfl⟩, ⟨_, rfl⟩, ⟨_, rfl⟩, ⟨_, rfl⟩, ⟨_, rfl⟩, _, rfl⟩

end Sys2Proof.Tests
end

section
/-!
PROOFS. The M-bit of a capability (R5, R14), and what `INFINITE_CAP` authorises (R204).
-/

namespace Sys2Proof.Machine

variable {w : Nat} {cfg : Config w} {c : Cap w}

/-- The M field is the one bit at the M position (R5). -/
theorem mBit_getLsbD (k : Nat) : (mBit cfg).getLsbD k = decide (k = cfg.mPos.val) := by
  rw [mBit, BitVec.getLsbD_twoPow, decide_eq_true cfg.mPos.isLt, Bool.true_and]
  exact decide_eq_decide.mpr eq_comm

/-- Bit `k` of the metadata after `with_M`: the given value at the M position, elsewhere as before (R5). -/
theorem withM_getLsbD (m : Bool) (k : Nat) :
    (c.withM cfg m).metadata.getLsbD k = if k = cfg.mPos.val then m else c.metadata.getLsbD k := by
  cases m with
  | true =>
    simp only [Cap.withM, if_true, BitVec.getLsbD_or, mBit_getLsbD]
    split <;> simp [*]
  | false =>
    simp only [Cap.withM, Bool.false_eq_true, if_false, BitVec.getLsbD_and, BitVec.getLsbD_not, mBit_getLsbD]
    split
    · simp [*]
    · simpa [*] using BitVec.lt_of_getLsbD

/-- `with_M` does not change the metadata read with the M-bit 0 (R5). -/
@[simp] theorem form_withM (m : Bool) : (c.withM cfg m).form cfg = c.form cfg := by
  apply BitVec.eq_of_getLsbD_eq
  intro k _
  change ((c.withM cfg m).withM cfg false).metadata.getLsbD k = (c.withM cfg false).metadata.getLsbD k
  simp only [withM_getLsbD]
  split <;> rfl

/-- `with_M` changes no permission and no seal (R5). -/
@[simp] theorem rights_withM (m : Bool) : (c.withM cfg m).rights cfg = c.rights cfg := by
  simp only [Cap.rights, Cap.listed, form_withM]

/-- `with_M` changes no bounds (R5). -/
@[simp] theorem bounds_withM (m : Bool) : (c.withM cfg m).bounds cfg = c.bounds cfg := by
  simp only [Cap.bounds, Cap.listed, form_withM, show (c.withM cfg m).addr = c.addr from rfl]

/-- The metadata of `INFINITE_CAP` mean the same in an untagged capability. -/
theorem listed_of_infinite_metadata (hc : (c.withM cfg false).metadata = ((Cap.infinite cfg).withM cfg false).metadata) :
    c.listed cfg = some cfg.infiniteForm :=
  listed_of_infinite (c := { c with tag := true }) ⟨rfl, hc⟩

/-- Other metadata mean what the parameters list for them (log 6). -/
theorem listed_of_forms {f : MetaForm w}
    (hc : (c.withM cfg false).metadata ≠ ((Cap.infinite cfg).withM cfg false).metadata)
    (hf : cfg.forms.find? (fun f => f.bits == (c.withM cfg false).metadata) = some f) : c.listed cfg = some f := by
  have hne : (cfg.infiniteForm.bits == c.form cfg) = false := beq_eq_false_iff_ne.mpr (Ne.symm hc)
  rw [Cap.listed, List.find?_cons, hne]
  exact hf

/-- What a listed entry says of the capability it describes. -/
theorem rights_bounds_of_listed {f : MetaForm w} (hl : c.listed cfg = some f) :
    c.rights cfg = f.rights ∧
      c.bounds cfg = if f.repBase ≤ c.addr.toNat ∧ c.addr.toNat < f.repTop then f.bounds else f.outside := by
  simp only [Cap.rights, Cap.bounds, hl, and_self]

/-- Under the default `AuthCheck` a capability that grants everything authorises what ends at or below 2^XLEN, and what does
not fails the bounds test (R44, R80). -/
theorem authCheck_of_grantsAll {k : AccessKind} {a : BitVec w} {n : Nat} (ha : cfg.base.auth = .given)
    (hc : grantsAll cfg c) : authCheck cfg c k a n = if 2 ^ w < a.toNat + n then some .bounds else none := by
  obtain ⟨htag, hseal, hperms, hbase, htop⟩ := hc
  have hk : AccessKind.permitted (c.rights cfg).perms k = true := by rw [hperms]; cases k <;> rfl
  simp [authCheck, ha, authCheckDefault, htag, hseal, hk, hbase, htop]

/-- In Integer Mode `ddc` authorises every data access (R40). -/
theorem authorised_int {h : Hart w} (hm : h.mode = .int) (k : AccessKind) (rs1 : Reg) (ea : BitVec w) (n : Nat) :
    h.authorised k rs1 ea n ↔ authCheck h.cfg h.ddc k ea n = none := by
  rw [Hart.authorised, hm]

end Sys2Proof.Machine

namespace Sys2Proof

open Machine

/-- Settles O3: `with_M` writes one bit, and everything else is read with that bit 0. -/
theorem setModeBit : Obligations.SetModeBit := by
  intro x cfg c m
  refine ⟨?_, rfl, rfl, ?_, rights_withM m, bounds_withM m, ?_, rfl, ?_, ?_, rfl, rfl, rfl, rfl, rfl⟩
  · exact (withM_getLsbD m _).trans (if_pos rfl)
  · intro k hk
    exact (withM_getLsbD m k).trans (if_neg hk)
  · intro a
    have ha : (c.withM cfg m).withAddr a = (c.withAddr a).withM cfg m := rfl
    rw [Cap.representable, ha, bounds_withM, bounds_withM, Cap.representable]
  · intro hi
    obtain ⟨hr, hb⟩ := rights_bounds_of_listed (listed_of_infinite_metadata hi)
    exact ⟨hr, hb.trans (ite_self _)⟩
  · intro f hi hf
    exact rights_bounds_of_listed (listed_of_forms hi hf)

/-- Settles O47: `INFINITE_CAP` grants everything, and `AuthCheck` then turns on the end of the access alone. -/
theorem legacyConfiguration : Obligations.LegacyConfiguration := by
  intro x h
  refine ⟨fun a => ⟨rfl, rfl⟩, fun c hc => grantsAll_of_infinite hc, ?_, ?_⟩
  · intro c k a n ha hc
    rw [authCheck_of_grantsAll ha hc]
    exact ⟨fun hn => if_neg (Nat.not_lt.mpr hn), fun hn => if_pos hn⟩
  · intro hpcc hddc hm a n
    simp only [authorised_int hm, authCheck_of_infinite hpcc, authCheck_of_infinite hddc]
    refine ⟨fun hn _ => ?_, fun hn _ _ => if_neg (Nat.not_lt.mpr hn), fun hn _ _ => ?_⟩
    · exact ⟨if_neg (Nat.not_lt.mpr hn), if_neg (Nat.not_lt.mpr hn)⟩
    · simp [hn]

/-- Settles O10: an allowed fetch leaves the decoded instruction to execute, and nothing else. -/
theorem stepRunsDecoded : Obligations.StepRunsDecoded := by
  intro s i hfinal hauth hbacked htext hdec
  have hf : s.fetched = .ok i := by rw [State.fetched, hdec]
  rw [step_fetched hfinal hauth hbacked htext, hf]

end Sys2Proof
end

section
/-!
PROOFS. A store read back: bytes, the tag, and the image of a capability (R45 to R47).
-/

namespace Sys2Proof.Machine

variable {w : Nat} (h : Hart w)

/-- A stored byte reads back (R46). -/
theorem byteAt_storeByte_self (a : BitVec w) (b : Byte) (hw : Memory.wf h = true) : (h.storeByte a b).byteAt a = b := by
  simp only [Memory.wf, Bool.and_eq_true] at hw
  obtain ⟨⟨⟨hmem, -⟩, -⟩, -⟩ := hw
  exact Table.get_set_self hmem

/-- A tag set reads back (R47). -/
theorem tagAt_setTag_self (a : BitVec w) (t : Bool) (hw : Memory.wf h = true) : (h.setTag a t).tagAt a = t := by
  simp only [Memory.wf, Bool.and_eq_true] at hw
  obtain ⟨⟨-, htags⟩, -⟩ := hw
  exact Table.get_set_self htags

/-- Bytes are read from memory whatever the tags. -/
@[simp] theorem memRead_setTag (a b : BitVec w) (t : Bool) (n : Nat) : (h.setTag a t).memRead b n = h.memRead b n := by
  induction n generalizing b with
  | zero => rfl
  | succ n ih => simp only [Hart.memRead, Hart.setTag_byteAt, ih]

/-- A run of bytes that does not go round the address space does not come back to its first byte. -/
theorem ne_add_one_add {a : BitVec w} {k : Nat} (hk : k + 1 < 2 ^ w) : a ≠ a + 1 + BitVec.ofNat w k := by
  rw [add_one_add]
  intro he
  have hz : BitVec.ofNat w (k + 1) = 0#w := BitVec.self_eq_add_right.mp he
  have hn : (k + 1) % 2 ^ w = 0 := by simpa using congrArg BitVec.toNat hz
  rw [Nat.mod_eq_of_lt hk] at hn
  exact Nat.succ_ne_zero k hn

/-- `MemRead` after `MemWrite` at the same address: the low bytes of the value (R45, R46). -/
theorem memRead_memWrite (a : BitVec w) (n v : Nat) (hn : n ≤ 2 ^ w) (hw : Memory.wf h = true) :
    (h.memWrite a n v).memRead a n = v % 2 ^ (8 * n) := by
  induction n generalizing h a v with
  | zero => simp [Hart.memRead, Nat.mod_one]
  | succ n ih =>
    have hrest : ∀ k < n, a ≠ a + 1 + BitVec.ofNat w k := fun k hk => ne_add_one_add (by omega)
    have hw' := Memory.wf_storeByte h a (BitVec.ofNat 8 v) hw
    calc (h.memWrite a (n + 1) v).memRead a (n + 1)
        = v % 2 ^ 8 + 256 * (v / 256 % 2 ^ (8 * n)) := by
          rw [Hart.memWrite, Hart.memRead, Hart.byteAt_memWrite_of_outside _ _ _ hrest, byteAt_storeByte_self h a _ hw,
            ih _ _ _ (by omega) hw', BitVec.toNat_ofNat]
      _ = v % 2 ^ (8 * (n + 1)) := by
          rw [Nat.mul_succ, Nat.add_comm (8 * n), pow_add, Nat.mod_mul, show (2 : Nat) ^ 8 = 256 from rfl]

/-- A read of `m + n` bytes is a read of the low `m` and, above them, of the high `n` (R45). -/
theorem memRead_add (a : BitVec w) (m n : Nat) :
    h.memRead a (m + n) = h.memRead a m + 2 ^ (8 * m) * h.memRead (a + BitVec.ofNat w m) n := by
  induction m generalizing a with
  | zero => simp [Hart.memRead]
  | succ m ih =>
    rw [Nat.succ_add, Hart.memRead, Hart.memRead, ih, add_one_add, Nat.mul_succ, Nat.add_comm (8 * m), pow_add]
    ring

/-- The low XLEN bits of the image are the address (R47). -/
theorem image_mod (c : Cap w) : Cap.image c % 2 ^ w = c.addr.toNat := by
  rw [Cap.image, Nat.add_mul_mod_self_left, Nat.mod_eq_of_lt c.addr.isLt]

/-- The image above the low XLEN bits is the metadata (R47). -/
theorem image_div (c : Cap w) : Cap.image c / 2 ^ w = c.metadata.toNat := by
  rw [Cap.image, Nat.add_mul_div_left _ _ (Nat.two_pow_pos w), Nat.div_eq_of_lt c.addr.isLt, Nat.zero_add]

/-- The image of a capability read back is the capability (R47). -/
theorem ofImage_image (c : Cap w) : Cap.ofImage c.tag (Cap.image c) = c := by
  have haddr : BitVec.ofNat w (Cap.image c) = c.addr := BitVec.eq_of_toNat_eq (by rw [BitVec.toNat_ofNat, image_mod])
  rw [Cap.ofImage, haddr, image_div, BitVec.ofNat_toNat, BitVec.setWidth_eq]

/-- The image of a capability fits in its CLEN bits (R47). -/
theorem image_lt (c : Cap w) : Cap.image c < 2 ^ (w + w) := by
  have hmeta : 2 ^ w * (c.metadata.toNat + 1) ≤ 2 ^ w * 2 ^ w := Nat.mul_le_mul_left _ c.metadata.isLt
  have haddr := c.addr.isLt
  rw [Nat.mul_add_one] at hmeta
  rw [Cap.image, pow_add]
  omega

/-- XLEN is a whole number of bytes. -/
theorem eight_mul_bits_div (x : Xlen) : 8 * (x.bits / 8) = x.bits := by cases x <;> rfl

/-- A capability takes two XLEN-bit words in memory (R4). -/
theorem clenBytes_bits (x : Xlen) : clenBytes x.bits = x.bits / 8 + x.bits / 8 := by cases x <;> rfl

/-- A granule is smaller than the address space. -/
theorem clenBytes_le (x : Xlen) : clenBytes x.bits ≤ 2 ^ x.bits := by cases x <;> decide

/-- A granule is not empty. -/
theorem clenBytes_pos (x : Xlen) : 0 < clenBytes x.bits := by cases x <;> decide

section

variable {x : Xlen} (g : Hart x.bits) (a : BitVec x.bits) (c : Cap x.bits)

/-- The bytes of a stored capability are its image (R47). -/
theorem memRead_memWriteCap (hw : Memory.wf g = true) : (g.memWriteCap a c).memRead a (clenBytes x.bits) = Cap.image c := by
  have hbits : 8 * clenBytes x.bits = x.bits + x.bits := by
    rw [clenBytes_bits, Nat.mul_add, eight_mul_bits_div]
  rw [Hart.memWriteCap, memRead_setTag, memRead_memWrite g a _ _ (clenBytes_le x) hw, hbits,
    Nat.mod_eq_of_lt (image_lt c)]

/-- A stored capability is loaded back, tag included (R47). -/
theorem memReadCap_memWriteCap (hw : Memory.wf g = true) : (g.memWriteCap a c).memReadCap a = c := by
  have htag : (g.memWriteCap a c).tagAt a = c.tag := tagAt_setTag_self _ _ _ (Memory.wf_memWrite g _ _ _ hw)
  rw [Hart.memReadCap, htag, memRead_memWriteCap g a c hw, ofImage_image]

/-- The low word of a stored capability is its address, the high word its metadata (R47). -/
theorem memRead_words_memWriteCap (hw : Memory.wf g = true) :
    (g.memWriteCap a c).memRead a (x.bits / 8) = c.addr.toNat ∧
      (g.memWriteCap a c).memRead (a + BitVec.ofNat x.bits (x.bits / 8)) (x.bits / 8) = c.metadata.toNat := by
  have hsum := memRead_memWriteCap g a c hw
  have hlow := (g.memWriteCap a c).memRead_lt a (x.bits / 8)
  rw [clenBytes_bits, memRead_add] at hsum
  rw [eight_mul_bits_div] at hsum hlow
  constructor
  · rw [← image_mod, ← hsum, Nat.add_mul_mod_self_left, Nat.mod_eq_of_lt hlow]
  · rw [← image_div, ← hsum, Nat.add_mul_div_left _ _ (Nat.two_pow_pos _), Nat.div_eq_of_lt hlow, Nat.zero_add]

/-- A capability store changes its own bytes and tag alone (R47). -/
theorem memWriteCap_outside : keepsMemoryBut a (clenBytes x.bits) g (g.memWriteCap a c) :=
  ⟨fun _ hb => g.byteAt_memWriteCap_of_outside c hb, fun _ hb => g.tagAt_memWriteCap_of_outside c (clenBytes_pos x) hb⟩

end

end Sys2Proof.Machine

namespace Sys2Proof

open Machine

/-- Settles O8: the bytes written are the capability's image, and the image gives the capability back. -/
theorem capabilityRoundTrip : Obligations.CapabilityRoundTrip := by
  intro x h a c hw _
  obtain ⟨haddr, hmeta⟩ := memRead_words_memWriteCap h a c hw
  exact ⟨rfl, fun _ => Nat.div_mul_self_eq_mod_sub_self, memReadCap_memWriteCap h a c hw, haddr, hmeta,
    memWriteCap_outside h a c⟩

end Sys2Proof
end

section
/-!
PROOFS. What an instruction of the opcode table does to the hart when it answers a next state without entering a trap
handler, said once for all of them; from it, what no step changes (R4, R52, R190).
-/

namespace Sys2Proof.Machine

/-! ## The effect of an instruction -/

/-- The changes that an instruction `i` can make on a hart `h` whose checks it has passed, by their shape. Where the rules
ask who may do it (R18, R51), a shape names the instructions that have it. -/
inductive Hart.Effect {w : Nat} (h : Hart w) (i : Instr) : Hart w → Prop
  /-- `pc + 4` alone: a branch not taken. -/
  | skip : Effect h i h.advance
  /-- A register is written: loads, LC, AUIPC, the mode instructions on registers, a CSR read. -/
  | register (rd : Reg) (v : Cap w) : Effect h i (h.setC rd v).advance
  /-- Bytes are stored (R80). -/
  | store (n : Nat) (rs1 : Reg) (ea : BitVec w) (v : Nat) (allowed : h.storeAllowedAt n rs1 ea) :
    Effect h i (h.memWrite ea n v).advance
  /-- A capability is stored (R141). -/
  | storeCap (rs1 : Reg) (ea : BitVec w) (c : Cap w) (allowed : h.capAllowedAt .storeCap rs1 ea)
    (offText : h.offText ea (clenBytes w)) : Effect h i (h.memWriteCap ea c).advance
  /-- A taken branch (R101). -/
  | branch (t : BitVec w) (allowed : h.targetAllowed t) : Effect h i (h.setPc t)
  /-- A jump that replaces the address of `pcc` alone: JAL, and JALR in Integer Mode (R107, R110). -/
  | jump (rd : Reg) (link : Cap w) (t : BitVec w) (allowed : h.targetAllowed t) : Effect h i ((h.setC rd link).setPc t)
  /-- JALR in Capability Mode (R109). -/
  | jumpCap (rd rs1 : Reg) (imm : BitVec 12) (link : Cap w) (isJalr : i = .jalr rd rs1 imm) (mode : h.mode = .cap)
    (aligned : (h.jalrTarget rs1 imm).toNat % h.cfg.minInsn.bytes = 0) :
    Effect h i ((h.setC rd link).setPcc (h.jalrInstalled (h.creg rs1) imm (h.jalrTarget rs1 imm)))
  /-- A mode switch (R122, R123). -/
  | switch (m : Bool)
    (isSwitch : i = .modeswCap ∧ h.mode = .int ∧ m = h.cfg.capModeValue ∨
      i = .modeswInt ∧ h.mode = .cap ∧ m = !h.cfg.capModeValue) : Effect h i (h.switchM m)
  /-- An ordinary CSR is written (R159). -/
  | ordCsr (rd rs1 : Reg) (a : CsrAddr) (u : BitVec w) (v : Cap w) (writes : (i, true) ∈ csrInstrs rd rs1 a) :
    Effect h i ((h.setOrdCsr a u).setC rd v).advance
  /-- A capability CSR is written (R155). -/
  | capCsr (rd rs1 : Reg) (a : CsrAddr) (u v : Cap w) (writes : (i, true) ∈ csrInstrs rd rs1 a) :
    Effect h i ((h.setCapCsr a u).setC rd v).advance

section

variable {w : Nat} {h h' : Hart w} {i : Instr}

/-- A base load has the effect of a register write. -/
theorem load_effect {n : Nat} {sg : Bool} {rd rs1 : Reg} {imm : BitVec 12} (hr : Hart.load n sg rd rs1 imm h = .next h') :
    h.Entered h' ∨ h.Effect i h' := by
  rcases Hart.load_next hr with he | ⟨-, rfl⟩
  · exact .inl he
  · exact .inr (.register rd _)

/-- A base store has the effect of a store. -/
theorem store_effect {n : Nat} {rs2 rs1 : Reg} {imm : BitVec 12} (hr : Hart.store n rs2 rs1 imm h = .next h') :
    h.Entered h' ∨ h.Effect i h' := by
  rcases Hart.store_next hr with he | ⟨ha, rfl⟩
  · exact .inl he
  · exact .inr (.store n rs1 _ _ ha)

/-- A conditional branch moves `pc` on or to an allowed target. -/
theorem branch_effect {taken : Bool} {off : BitVec 13} (hr : Hart.branch taken off h = .next h') :
    h.Entered h' ∨ h.Effect i h' := by
  rcases Hart.branch_next hr with he | ⟨-, ha, rfl⟩ | ⟨-, rfl⟩
  · exact .inl he
  · exact .inr (.branch _ ha)
  · exact .inr .skip

/-- JALR has the effect of a jump in Integer Mode, and installs its operand in Capability Mode. -/
theorem jalr_effect {rd rs1 : Reg} {imm : BitVec 12} (hr : Hart.jalr rd rs1 imm h = .next h') :
    h.Entered h' ∨ h.Effect (.jalr rd rs1 imm) h' := by
  rcases Hart.jalr_next hr with he | ⟨-, ha, rfl⟩ | ⟨hm, -, -, ha, rfl⟩
  · exact .inl he
  · exact .inr (.jump rd _ _ ha)
  · exact .inr (.jumpCap rd rs1 imm _ rfl hm ha)

/-- The old value of a CSR goes to the destination register and nowhere else (R153, R166). -/
theorem csrToReg_eq_setC (old : Hart w) (rd : Reg) (a : CsrAddr) (d : CsrDesc) :
    ∃ v, h.csrToReg old rd a d = h.setC rd v := by
  unfold Hart.csrToReg
  split
  · exact ⟨_, rfl⟩
  · split <;> exact ⟨_, rfl⟩
  · split <;> exact ⟨_, rfl⟩

/-- A CSR write of one CSR, and the old value to a register, is an effect of a CSR instruction that writes it. -/
theorem csrWritten_effect {rd rs1 : Reg} {a : CsrAddr} {d : CsrDesc} {g : Hart w} (hi : (i, true) ∈ csrInstrs rd rs1 a)
    (hg : (∃ u, g = h.setOrdCsr a u) ∨ ∃ u, g = h.setCapCsr a u) : h.Effect i (g.csrToReg h rd a d).advance := by
  obtain ⟨v, hv⟩ := csrToReg_eq_setC (h := g) h rd a d
  rw [hv]
  rcases hg with ⟨u, rfl⟩ | ⟨u, rfl⟩
  · exact .ordCsr rd rs1 a u v hi
  · exact .capCsr rd rs1 a u v hi

/-- CSRRW writes its CSR. -/
theorem csrrw_effect {rd rs1 : Reg} {a : CsrAddr} (hr : Hart.csrrw rd rs1 a h = .next h') :
    h.Entered h' ∨ h.Effect (.csrrw rd rs1 a) h' := by
  rcases Hart.csrrw_next hr with he | ⟨d, -, rfl⟩
  · exact .inl he
  · refine .inr (csrWritten_effect (rs1 := rs1) (by simp [csrInstrs]) ?_)
    unfold Hart.csrrwWrite
    split
    · exact .inl ⟨_, rfl⟩
    · exact .inr ⟨_, rfl⟩
    · exact .inr ⟨_, rfl⟩

/-- The other five CSR instructions write their CSR, or, where the write is suppressed, a register alone (R165). -/
theorem csrModify_effect {rd rs1 : Reg} {f : BitVec w → BitVec w} {wr : Bool} {a : CsrAddr}
    (hi : (i, wr) ∈ csrInstrs rd rs1 a) (hr : Hart.csrModify rd f wr a h = .next h') :
    h.Entered h' ∨ h.Effect i h' := by
  rcases Hart.csrModify_next hr with he | ⟨d, -, rfl⟩
  · exact .inl he
  · cases wr with
    | false =>
      obtain ⟨v, hv⟩ := csrToReg_eq_setC (h := h) h rd a d
      exact .inr (hv ▸ .register rd v)
    | true =>
      refine .inr (csrWritten_effect hi ?_)
      rw [if_pos rfl]
      unfold Hart.csrUpdate
      split
      · exact .inl ⟨_, rfl⟩
      · exact .inr ⟨_, rfl⟩
      · exact .inr ⟨_, rfl⟩

end

variable {x : Xlen} {h h' : Hart x.bits}

/-- What runs to a next state keeps XLEN, and has the effect its hart-level meaning has. -/
theorem run_effect {r : Res x.bits} {i : Instr} {t : State} (hr : State.run ⟨x, h⟩ r = .next t)
    (he : ∀ h', r = .next h' → h.Entered h' ∨ h.Effect i h') : ∃ h', t = ⟨x, h'⟩ ∧ (h.Entered h' ∨ h.Effect i h') := by
  obtain ⟨h', hnext, rfl⟩ := State.run_eq_next.mp hr
  exact ⟨h', rfl, he h' hnext⟩

/-- An instruction that answers a next state kept XLEN, and entered a trap handler or had its effect. -/
theorem exec_effect {i : Instr} {t : State} (hs : exec i ⟨x, h⟩ = .next t) :
    ∃ h', t = ⟨x, h'⟩ ∧ (h.Entered h' ∨ h.Effect i h') := by
  cases i with
  | lb | lh | lw | lbu | lhu => exact run_effect hs fun _ => load_effect
  | ld | lwu => exact run_effect (State.run64_eq_next hs) fun _ => load_effect
  | sb | sh | sw => exact run_effect hs fun _ => store_effect
  | sd => exact run_effect (State.run64_eq_next hs) fun _ => store_effect
  | beq | bne | blt | bge | bltu | bgeu => exact run_effect hs fun _ => branch_effect
  | jal rd off =>
    refine run_effect hs fun _ hr => (Hart.jal_next hr).imp_right ?_
    rintro ⟨ha, rfl⟩
    exact .jump rd _ _ ha
  | jalr => exact run_effect hs fun _ => jalr_effect
  | auipc rd imm =>
    refine run_effect (r := .next (h.setC rd (h.auipcValue imm)).advance) hs fun _ hr => .inr ?_
    cases hr
    exact .register rd _
  | csrrw => exact run_effect hs fun _ => csrrw_effect
  | csrrs rd rs a | csrrc rd rs a | csrrwi rd rs a | csrrsi rd rs a | csrrci rd rs a =>
    exact run_effect hs fun _ => csrModify_effect (rs1 := rs) (by simp [csrInstrs])
  | scmode cd =>
    refine run_effect hs fun _ hr => (Hart.scmode_next hr).imp_right ?_
    rintro ⟨-, rfl⟩
    exact .register cd _
  | gcmode rd =>
    refine run_effect hs fun _ hr => (Hart.gcmode_next hr).imp_right ?_
    rintro ⟨-, rfl⟩
    exact .register rd _
  | gctag rd =>
    refine run_effect hs fun _ hr => (Hart.gctag_next hr).imp_right ?_
    rintro ⟨-, rfl⟩
    exact .register rd _
  | modeswCap =>
    refine run_effect hs fun _ hr => (Hart.modeswCap_next hr).imp_right ?_
    rintro ⟨-, hm, rfl⟩
    exact .switch _ (.inl ⟨rfl, hm, rfl⟩)
  | modeswInt =>
    refine run_effect hs fun _ hr => (Hart.modeswInt_next hr).imp_right ?_
    rintro ⟨hm, rfl⟩
    exact .switch _ (.inr ⟨rfl, hm, rfl⟩)
  | lc cd =>
    refine run_effect hs fun _ hr => (Hart.lc_next hr).imp_right ?_
    rintro ⟨-, rfl⟩
    exact .register cd _
  | sc cs2 rs1 imm =>
    refine run_effect hs fun _ hr => (Hart.sc_next hr).imp_right ?_
    rintro ⟨⟨-, ha⟩, ht, rfl⟩
    exact .storeCap rs1 _ _ ha ht

/-! ## What no step changes -/

/-- The effect of an instruction keeps privilege and parameters (R190, log 2). -/
theorem Hart.Effect.keepsSetting {i : Instr} (he : h.Effect i h') : keepsSetting h h' := by
  cases he <;> simp [Machine.keepsSetting, Hart.switchM]

/-- A store off the program text leaves it alone (R52). -/
theorem byteAt_memWrite_of_offText {ea a : BitVec x.bits} {n : Nat} (v : Nat) (ho : h.offText ea n) (ha : h.isText a 1) :
    (h.memWrite ea n v).byteAt a = h.byteAt a :=
  h.byteAt_memWrite_of_outside n v fun _ hk he => Hart.offText_byte ho hk (he ▸ ha)

/-- A capability store off the program text leaves it alone (R52). -/
theorem byteAt_memWriteCap_of_offText {ea a : BitVec x.bits} (c : Cap x.bits) (ho : h.offText ea (clenBytes x.bits))
    (ha : h.isText a 1) : (h.memWriteCap ea c).byteAt a = h.byteAt a :=
  h.byteAt_memWriteCap_of_outside c fun _ hk he => Hart.offText_byte ho hk (he ▸ ha)

/-- The effect of an instruction leaves the program text alone (R52). -/
theorem Hart.Effect.byteAt_text {i : Instr} {a : BitVec x.bits} (he : h.Effect i h') (ha : h.isText a 1) :
    h'.byteAt a = h.byteAt a := by
  cases he with
  | store n rs1 ea v hs =>
    obtain ⟨-, -, -, ho⟩ := hs
    rw [Hart.advance_byteAt, byteAt_memWrite_of_offText v ho ha]
  | storeCap rs1 ea c hs ho => rw [Hart.advance_byteAt, byteAt_memWriteCap_of_offText c ho ha]
  | skip | register | branch | jump | jumpCap | switch | ordCsr | capCsr => simp [Hart.switchM]

/-- Entry to a trap handler leaves memory alone (R187). -/
theorem entered_byteAt (he : h.Entered h') (a : BitVec x.bits) : h'.byteAt a = h.byteAt a := by
  obtain ⟨t, e, -, rfl⟩ := he
  simp only [Hart.byteAt, Hart.enterTrap_mem]

/-- Entry to a trap handler changes no parameter (log 2). -/
theorem entered_cfg (he : h.Entered h') : h'.cfg = h.cfg := by
  obtain ⟨t, e, -, rfl⟩ := he
  exact h.enterTrap_cfg t e

/-- A step that answers a next state kept XLEN, and entered a trap handler, or kept privilege, parameters and program text. -/
theorem step_keeps {t : State} (hs : step ⟨x, h⟩ = .next t) :
    ∃ h', t = ⟨x, h'⟩ ∧
      (h.Entered h' ∨ keepsSetting h h' ∧ ∀ a, h.isText a 1 → h'.byteAt a = h.byteAt a) := by
  rcases step_next hs with ⟨h', rfl, he⟩ | ⟨i, -, hx⟩ | ⟨d, h', -, rfl, hu⟩
  · exact ⟨h', rfl, .inl he⟩
  · obtain ⟨h', rfl, he⟩ := exec_effect hx
    exact ⟨h', rfl, he.imp_right fun he => ⟨he.keepsSetting, fun _ => he.byteAt_text⟩⟩
  · refine ⟨h', rfl, (Hart.undecoded_next hu).imp_right ?_⟩
    rintro ⟨-, -, -, -, -, e, -, hstores, -, rfl⟩
    refine ⟨⟨Hart.baseWritten_priv .., Hart.baseWritten_cfg ..⟩, fun a ha => ?_⟩
    rw [← Hart.makeStores_text (clenBytes_pos x) hstores ha]
    simp only [Hart.byteAt, Hart.setPc_mem, Hart.baseWritten_mem]

end Sys2Proof.Machine

namespace Sys2Proof

open Machine

/-- Settles O53: neither a handler entry, nor the effect of an instruction, nor a word of `CapModeStep` changes the setting
or the program text, the handler's privilege apart. -/
theorem settingFixed : Obligations.SettingFixed := by
  rintro ⟨x, h⟩ s' hs
  obtain ⟨h', rfl, he | ⟨⟨hpriv, hcfg⟩, htext⟩⟩ := step_keeps hs
  · exact ⟨h', rfl, entered_cfg he, fun a _ => entered_byteAt he a, .inl he⟩
  · exact ⟨h', rfl, hcfg, htext, .inr hpriv⟩

end Sys2Proof
end

section
/-!
PROOFS. The state's own operations: what registers and CSRs hold after a write (R11, R12, R24, R26), that CSR writes keep the
CSR tables canonical, and what is fixed of the mode and of `ddc` (R16, R20).
-/

namespace Sys2Proof.Machine

variable {w : Nat} (h : Hart w)

/-! ## What a write changes -/

/-- A register write changes the register file alone (R12). -/
theorem setC_eq (i : Reg) (v : Cap w) : h.setC i v = { h with c := (h.setC i v).c } := by
  unfold Hart.setC
  split <;> rfl

/-- A write of a capability CSR changes `ddc` and the capability CSRs alone. -/
theorem setCapCsr_eq (a : CsrAddr) (v : Cap w) :
    h.setCapCsr a v = { h with ddc := (h.setCapCsr a v).ddc, capCsrs := (h.setCapCsr a v).capCsrs } := by
  unfold Hart.setCapCsr
  split <;> rfl

/-! ## The CSR tables -/

/-- The three parts of the CSR tables' canonical form. -/
theorem csrTablesWf_iff :
    csrTablesWf h = true ↔
      Table.wf Cap.null h.capCsrs = true ∧ Table.wf 0 h.ordCsrs = true ∧
        Table.get Cap.null h.capCsrs ddcAddr.toNat = Cap.null := by
  simp only [csrTablesWf, Bool.and_eq_true, decide_eq_true_eq, and_assoc]

/-- The CSR tables' canonical form depends on the two tables alone. -/
theorem csrTablesWf_congr {g g' : Hart w} (hcap : g'.capCsrs = g.capCsrs) (hord : g'.ordCsrs = g.ordCsrs) :
    csrTablesWf g' = csrTablesWf g := by
  simp only [csrTablesWf, hcap, hord]

variable {h}

/-- A write of an ordinary CSR keeps the CSR tables canonical. -/
theorem csrTablesWf_setOrdCsr (a : CsrAddr) (v : BitVec w) (hw : csrTablesWf h = true) :
    csrTablesWf (h.setOrdCsr a v) = true := by
  obtain ⟨hcap, hord, hddc⟩ := (csrTablesWf_iff h).mp hw
  exact (csrTablesWf_iff _).mpr ⟨hcap, Table.wf_set hord, hddc⟩

/-- A write of a capability CSR keeps the CSR tables canonical: at 0x416 it goes to `ddc`, not to the table. -/
theorem csrTablesWf_setCapCsr (a : CsrAddr) (v : Cap w) (hw : csrTablesWf h = true) :
    csrTablesWf (h.setCapCsr a v) = true := by
  unfold Hart.setCapCsr
  split
  · exact hw
  · rename_i ha
    obtain ⟨hcap, hord, hddc⟩ := (csrTablesWf_iff h).mp hw
    have hne : ddcAddr.toNat ≠ a.toNat := fun he => ha (BitVec.eq_of_toNat_eq he.symm)
    exact (csrTablesWf_iff _).mpr ⟨Table.wf_set hcap, hord, (Table.get_set_ne hne).trans hddc⟩

/-- An ordinary CSR reads back what is written to it (R26). -/
theorem ordCsr_setOrdCsr_self (a : CsrAddr) (v : BitVec w) (hw : csrTablesWf h = true) :
    (h.setOrdCsr a v).ordCsr a = v := by
  obtain ⟨-, hord, -⟩ := (csrTablesWf_iff h).mp hw
  exact Table.get_set_self hord

/-- A capability CSR reads back what is written to it (R20, R24). -/
theorem capCsr_setCapCsr_self (a : CsrAddr) (v : Cap w) (hw : csrTablesWf h = true) :
    (h.setCapCsr a v).capCsr a = v := by
  obtain ⟨hcap, -, -⟩ := (csrTablesWf_iff h).mp hw
  unfold Hart.setCapCsr Hart.capCsr
  split
  · rfl
  · exact Table.get_set_self hcap

end Sys2Proof.Machine

namespace Sys2Proof

open Machine

/-- Settles O9: `ddc` has its own field, every other CSR its entry in a canonical table. -/
theorem csrStorage : Obligations.CsrStorage := by
  intro x h a b c v hw
  refine ⟨?_, ?_, rfl, setCapCsr_eq h a c, rfl⟩
  · split
    · rename_i hb
      rw [hb, capCsr_setCapCsr_self a c hw]
    · rename_i hb
      exact h.capCsr_setCapCsr_ne c hb
  · split
    · rename_i hb
      rw [hb, ordCsr_setOrdCsr_self a v hw]
    · rename_i hb
      exact h.ordCsr_setOrdCsr_ne v hb

/-- Settles O1: what registers read after a write, and that the register file alone changes. -/
theorem registerWrites : Obligations.RegisterWrites := by
  intro x h i j v n
  refine ⟨?_, ?_, h.creg_zero, setC_eq h i v, setC_eq h i _⟩
  · exact (h.creg_setC i j v).trans (if_congr and_comm rfl rfl)
  · exact (h.creg_setX i j n).trans (if_congr and_comm rfl rfl)

/-- Settles O2: Capability Mode asks for both the M-bit and the access setting. -/
theorem executionMode : Obligations.ExecutionMode := by
  intro x h enabled
  have he : h.cheriEnabled = enabled := rfl
  refine ⟨he, ?_⟩
  simp only [Hart.mode, he, Bool.and_eq_true, beq_iff_eq]

/-- Settles O35: the description of `ddc`, whose address asks for no privilege and is not read-only. -/
theorem ddcAccess : Obligations.DdcAccess := by
  intro x h writes henabled
  have hpriv : (0x416#12).extractLsb' 8 2 ≤ Priv.level h.priv := by cases h.priv <;> decide
  have hwritable : (0x416#12).extractLsb' 10 2 ≠ 3#2 := by decide
  exact ⟨ddcDesc, ⟨rfl, hpriv, fun _ => hwritable, fun _ => henabled, nofun⟩, rfl, rfl⟩

end Sys2Proof
end

section
/-!
PROOFS. The invariant holds of the launch state, and every step keeps it (R13): memory, tags and CSR tables canonical, `pc`
aligned.
-/

namespace Sys2Proof.Machine

/-! ## Aligned addresses -/

/-- An instruction word is a whole number of MIN_INSN_BYTES (R4). -/
theorem minInsn_bytes_dvd_four (m : MinInsn) : m.bytes ∣ 4 := by cases m <;> decide

/-- MIN_INSN_BYTES divides the size of the address space, so that alignment survives wrapping. -/
theorem minInsn_bytes_dvd_two_pow (m : MinInsn) (x : Xlen) : m.bytes ∣ 2 ^ x.bits := by cases m <;> cases x <;> decide

/-- `a + 4` is aligned when `a` is (R13). -/
theorem add_four_aligned {x : Xlen} {a : BitVec x.bits} (m : MinInsn) (ha : a.toNat % m.bytes = 0) :
    (a + 4).toNat % m.bytes = 0 := by
  have hfour : (4 : BitVec x.bits).toNat = 4 := by cases x <;> rfl
  rw [BitVec.toNat_add, hfour, Nat.mod_mod_of_dvd _ (minInsn_bytes_dvd_two_pow m x)]
  exact Nat.mod_eq_zero_of_dvd (dvd_add (Nat.dvd_of_mod_eq_zero ha) (minInsn_bytes_dvd_four m))

/-- An address whose low two bits are taken as 0 is aligned (R187). -/
theorem clear_low_two_aligned {x : Xlen} (a : BitVec x.bits) (m : MinInsn) :
    (a &&& ~~~(3#x.bits)).toNat % m.bytes = 0 := by
  have hmask : (~~~(3#x.bits)).setWidth 2 = 0#2 := by cases x <;> decide
  have hlow : (a &&& ~~~(3#x.bits)).toNat % 4 = 0 :=
    calc (a &&& ~~~(3#x.bits)).toNat % 4
        = ((a &&& ~~~(3#x.bits)).setWidth 2).toNat := (BitVec.toNat_setWidth 2 _).symm
      _ = 0 := by rw [BitVec.setWidth_and, hmask, BitVec.and_zero, BitVec.toNat_zero]
  exact Nat.mod_eq_zero_of_dvd ((minInsn_bytes_dvd_four m).trans (Nat.dvd_of_mod_eq_zero hlow))

/-! ## The parts of the invariant -/

/-- The invariant as a proposition about the hart, part by part. -/
def Hart.Inv {w : Nat} (h : Hart w) : Prop := Memory.wf h = true ∧ csrTablesWf h = true ∧ pcAligned h = true

/-- The state's invariant is the hart's. -/
theorem state_inv_iff {s : State} : s.Inv = true ↔ s.hart.Inv := by
  simp only [State.Inv, Hart.Inv, Bool.and_eq_true, and_assoc]

/-- What it is for `pc` to be aligned (R13). -/
theorem pcAligned_iff {w : Nat} {h : Hart w} : pcAligned h = true ↔ h.pc.toNat % h.cfg.minInsn.bytes = 0 :=
  decide_eq_true_iff

variable {x : Xlen} {h h' : Hart x.bits} {i : Instr}

/-- `pc + 4` is aligned wherever it comes to stand (R13). -/
theorem nextPc_aligned (ha : pcAligned h = true) : (h.pc + 4).toNat % h.cfg.minInsn.bytes = 0 :=
  add_four_aligned _ (pcAligned_iff.mp ha)

/-! ## Entry to a trap handler -/

/-- Entry to a trap handler keeps the CSR tables canonical, the exception pc being a CSR write like any other (R187). -/
theorem csrTablesWf_enterTrap (t : TrapCsrs) (e : Exn) (hw : csrTablesWf h = true) : csrTablesWf (h.enterTrap t e) = true :=
  csrTablesWf_setOrdCsr _ _ (csrTablesWf_setOrdCsr _ _ (csrTablesWf_setOrdCsr _ _ (csrTablesWf_setOrdCsr _ _
    (csrTablesWf_setCapCsr _ _ hw))))

/-- Entry to a trap handler keeps the invariant. -/
theorem entered_inv (he : h.Entered h') (hi : h.Inv) : h'.Inv := by
  obtain ⟨t, e, -, rfl⟩ := he
  obtain ⟨hmem, hcsr, -⟩ := hi
  refine ⟨?_, csrTablesWf_enterTrap t e hcsr, pcAligned_iff.mpr ?_⟩
  · rw [Memory.wf_congr (h.enterTrap_mem t e) (h.enterTrap_tags t e), hmem]
  · exact clear_low_two_aligned _ _

/-! ## The effect of an instruction -/

/-- The effect of an instruction keeps memory canonical (R46, R47). -/
theorem Hart.Effect.memory_wf (he : h.Effect i h') (hw : Memory.wf h = true) : Memory.wf h' = true := by
  cases he with
  | store n rs1 ea v => exact Memory.wf_memWrite h ea n v hw
  | storeCap rs1 ea c => exact Memory.wf_memWriteCap h ea c hw
  | skip | register | branch | jump | jumpCap | switch | ordCsr | capCsr =>
    rw [← hw]
    apply Memory.wf_congr <;> simp [Hart.switchM]

/-- The effect of an instruction keeps the CSR tables canonical. -/
theorem Hart.Effect.csrTables_wf (he : h.Effect i h') (hw : csrTablesWf h = true) : csrTablesWf h' = true := by
  cases he with
  | ordCsr rd rs1 a u v =>
    rw [← csrTablesWf_setOrdCsr a u hw]
    apply csrTablesWf_congr <;> simp
  | capCsr rd rs1 a u v =>
    rw [← csrTablesWf_setCapCsr a u hw]
    apply csrTablesWf_congr <;> simp
  | skip | register | store | storeCap | branch | jump | jumpCap | switch =>
    rw [← hw]
    apply csrTablesWf_congr <;> simp [Hart.switchM]

/-- The effect of an instruction keeps `pc` aligned: it moves on by 4, or to a target that was checked (R13, R111). -/
theorem Hart.Effect.pc_aligned (he : h.Effect i h') (ha : pcAligned h = true) : pcAligned h' = true := by
  have hcfg : h'.cfg = h.cfg := he.keepsSetting.2
  rw [pcAligned_iff, hcfg]
  cases he with
  | branch t ht => exact ht.2
  | jump rd link t ht => exact ht.2
  | jumpCap rd rs1 imm link hj hm ht => simpa only [Hart.pc, Hart.setPcc_pcc, Hart.jalrInstalled_addr] using ht
  | skip | switch => exact nextPc_aligned ha
  | register | store | storeCap | ordCsr | capCsr =>
    simpa only [Hart.advance_pc, Hart.setC_pc, Hart.memWrite_pc, Hart.memWriteCap_pc, Hart.setOrdCsr_pc,
      Hart.setCapCsr_pc] using nextPc_aligned ha

/-- The effect of an instruction keeps the invariant. -/
theorem Hart.Effect.inv (he : h.Effect i h') (hi : h.Inv) : h'.Inv := by
  obtain ⟨hmem, hcsr, hpc⟩ := hi
  exact ⟨he.memory_wf hmem, he.csrTables_wf hcsr, he.pc_aligned hpc⟩

/-! ## Words of `CapModeStep`, and the step -/

/-- What `CapModeStep` writes, and `pc` at an aligned address, keeps the invariant (R100, R111; log 49). -/
theorem baseWritten_setPc_inv {b : Bool} {e : BaseEffect x.bits} {t : BitVec x.bits} (hi : h.Inv)
    (ht : t.toNat % h.cfg.minInsn.bytes = 0) : ((h.baseWritten b e).setPc t).Inv := by
  obtain ⟨hmem, hcsr, -⟩ := hi
  refine ⟨?_, ?_, pcAligned_iff.mpr ?_⟩
  · rw [← Memory.wf_makeStores e.stores hmem]
    exact Memory.wf_congr (Hart.baseWritten_mem ..) (Hart.baseWritten_tags ..)
  · rw [← hcsr]
    exact csrTablesWf_congr (Hart.baseWritten_capCsrs ..) (Hart.baseWritten_ordCsrs ..)
  · rwa [Hart.setPc_cfg, Hart.baseWritten_cfg]

/-- A word that is no row of the opcode table keeps the invariant. -/
theorem undecoded_inv {d : DecodeError} (hu : h.undecoded d = .next h') (hi : h.Inv) : h'.Inv := by
  rcases Hart.undecoded_next hu with he | ⟨-, -, -, -, -, e, -, -, htarget, rfl⟩
  · exact entered_inv he hi
  · apply baseWritten_setPc_inv hi
    obtain ⟨-, -, hpc⟩ := hi
    cases ht : e.target with
    | none => exact nextPc_aligned hpc
    | some t => exact (htarget t ht).2

/-- A step keeps the invariant. -/
theorem step_inv {t : State} (hs : step ⟨x, h⟩ = .next t) (hi : h.Inv) : t.hart.Inv := by
  rcases step_next hs with ⟨h', rfl, he⟩ | ⟨i, -, hx⟩ | ⟨d, h', -, rfl, hu⟩
  · exact entered_inv he hi
  · obtain ⟨h', rfl, he | he⟩ := exec_effect hx
    · exact entered_inv he hi
    · exact he.inv hi
  · exact undecoded_inv hu hi

/-! ## The launch state -/

/-- The launch state's `pcc` and `ddc` are infinite (log 32). -/
theorem reset_infinite :
    infinite State.reset.hart.cfg State.reset.hart.pcc ∧ infinite State.reset.hart.cfg State.reset.hart.ddc :=
  ⟨⟨rfl, rfl⟩, rfl, rfl⟩

/-- Every register of the launch state is null (log 33). -/
theorem reset_creg (i : Reg) : State.reset.hart.creg i = Cap.null := by
  simp [Hart.creg, State.reset, Hart.launch]

end Sys2Proof.Machine

namespace Sys2Proof

open Machine

/-- Settles O50: a handler entry, the effect of an instruction and a word of `CapModeStep` each keep the invariant. -/
theorem invariantKept : Obligations.InvariantKept := by
  rintro ⟨x, h⟩ s' hi hs
  exact state_inv_iff.mpr (step_inv hs (state_inv_iff.mp hi))

/-- Settles O49: nothing is listed in memory at launch, the listed CSRs are in order, and the entry address is aligned. -/
theorem resetMeetsInvariant : Obligations.ResetMeetsInvariant :=
  state_inv_iff.mpr ⟨Memory.wf_reset, by decide, by decide⟩

/-- Settles O48: the infinite capabilities, the null registers and the empty memory that the launch state is made of. -/
theorem resetState : Obligations.ResetState := by
  obtain ⟨hpcc, hddc⟩ := reset_infinite
  exact ⟨rfl, rfl, by decide, rfl, hpcc, hddc, grantsAll_of_infinite hpcc, grantsAll_of_infinite hddc, reset_creg,
    fun _ => rfl, fun _ => rfl⟩

end Sys2Proof
end

section
/-!
PROOFS. Who may change the tag and the metadata of `pcc`, its M-bit among them (R18).
-/

namespace Sys2Proof.Machine

variable {w : Nat} {h h' : Hart w} {i : Instr}

/-- An instruction changes tag or metadata of `pcc` as R18 lets it: a mode switch its M-bit, a Capability Mode JALR all of
it, with the M-bit of its operand. -/
def Hart.WritesPcc (h : Hart w) (i : Instr) (h' : Hart w) : Prop :=
  (i = .modeswCap ∧ h.mode = .int ∧ h'.pcc.tag = h.pcc.tag ∧
    h'.pcc.metadata = (h.pcc.withM h.cfg h.cfg.capModeValue).metadata) ∨
  (i = .modeswInt ∧ h.mode = .cap ∧ h'.pcc.tag = h.pcc.tag ∧
    h'.pcc.metadata = (h.pcc.withM h.cfg (!h.cfg.capModeValue)).metadata) ∨
  ((∃ rd rs1 imm, i = .jalr rd rs1 imm ∧ h'.pcc.m h.cfg = (h.creg rs1).m h.cfg) ∧ h.mode = .cap)

/-- The M-bit of an installed target is the operand's, sealed or not (R109). -/
theorem jalrInstalled_m (c : Cap w) (imm : BitVec 12) (t : BitVec w) : (h.jalrInstalled c imm t).m h.cfg = c.m h.cfg := by
  unfold Hart.jalrInstalled
  split
  · exact (withM_getLsbD _ _).trans (if_pos rfl)
  · rfl

/-- The effect of an instruction keeps tag and metadata of `pcc`, but for the writers that R18 names. -/
theorem Hart.Effect.keepsPcc_or_writesPcc (he : h.Effect i h') : keepsPcc h h' ∨ h.WritesPcc i h' := by
  cases he with
  | skip | branch => exact .inl ⟨rfl, rfl⟩
  | register | store | storeCap | jump | ordCsr | capCsr => exact .inl (by simp [keepsPcc])
  | jumpCap rd rs1 imm link hj hm => exact .inr (.inr (.inr ⟨⟨rd, rs1, imm, hj, jalrInstalled_m _ _ _⟩, hm⟩))
  | switch m hs =>
    rcases hs with ⟨hi, hm, rfl⟩ | ⟨hi, hm, rfl⟩
    · exact .inr (.inl ⟨hi, hm, rfl, rfl⟩)
    · exact .inr (.inr (.inl ⟨hi, hm, rfl, rfl⟩))

/-- A word of `CapModeStep` keeps tag and metadata of `pcc` (log 49). -/
theorem undecoded_keepsPcc {d : DecodeError} (hu : h.undecoded d = .next h') : h.Entered h' ∨ keepsPcc h h' := by
  refine (Hart.undecoded_next hu).imp_right ?_
  rintro ⟨-, -, -, -, -, e, -, -, -, rfl⟩
  simp [keepsPcc]

end Sys2Proof.Machine

namespace Sys2Proof

open Machine

/-- Settles O51: of the effects an instruction can have, only a mode switch and a Capability Mode JALR touch more of `pcc`
than its address, and a word of `CapModeStep` does not. -/
theorem pccMetadataWriters : Obligations.PccMetadataWriters := by
  intro x h writes
  have hexec : ∀ (i : Instr) (t : State), exec i ⟨x, h⟩ = .next t →
      ∃ h' : Hart x.bits, t = ⟨x, h'⟩ ∧ (h.Entered h' ∨ keepsPcc h h' ∨ writes i h') := fun i t hx => by
    obtain ⟨h', rfl, he⟩ := exec_effect hx
    exact ⟨h', rfl, he.imp_right Hart.Effect.keepsPcc_or_writesPcc⟩
  refine ⟨hexec, fun t hs => ?_⟩
  rcases step_next hs with ⟨h', rfl, he⟩ | ⟨i, hf, hx⟩ | ⟨d, h', -, rfl, hu⟩
  · exact ⟨h', rfl, .inl he⟩
  · obtain ⟨h', rfl, he⟩ := hexec i t hx
    exact ⟨h', rfl, he.imp_right (Or.imp_right fun hw => ⟨i, hf, hw⟩)⟩
  · exact ⟨h', rfl, (undecoded_keepsPcc hu).imp_right .inl⟩

end Sys2Proof
end

section
/-!
PROOFS. What the capability check says: the default one, test by test, and what holds of every one (R44, R80).
-/

namespace Sys2Proof.Machine

variable {w : Nat} {cfg : Config w} {c : Cap w} {k : AccessKind} {a : BitVec w} {n : Nat}

/-- `given` is the default check (R44; log 8). -/
theorem authCheck_of_given (ha : cfg.base.auth = .given) : authCheck cfg c k a n = authCheckDefault cfg c k a n := by
  rw [authCheck, ha]

/-- What any `AuthCheck` authorises, it authorises by a tagged capability (R80). -/
theorem tag_of_authCheck (hc : authCheck cfg c k a n = none) : c.tag = true := by
  by_contra ht
  rw [authCheck_of_untagged (Bool.eq_false_of_not_eq_true ht)] at hc
  cases hc

/-- What any `AuthCheck` authorises ends at or below 2^XLEN (R80). -/
theorem end_le_of_authCheck (hc : authCheck cfg c k a n = none) : a.toNat + n ≤ 2 ^ w :=
  Nat.le_of_not_lt fun hn => authCheck_past_top hn hc

/-- The bytes of an access that does not run past 2^XLEN stand one after another, without wrapping. -/
theorem toNat_add_ofNat {j : Nat} (hn : a.toNat + n ≤ 2 ^ w) (hj : j < n) : (a + BitVec.ofNat w j).toNat = a.toNat + j := by
  rw [BitVec.toNat_add, BitVec.toNat_ofNat, Nat.add_mod_mod, Nat.mod_eq_of_lt (by omega)]

end Sys2Proof.Machine

namespace Sys2Proof

open Machine

/-- Settles O5: under `given` the check is the default one, and its verdict is that of the first test that fails. -/
theorem checkVerdict : Obligations.CheckVerdict := by
  intro x cfg c k a n hgiven permitted inBounds
  have hp : AccessKind.permitted (c.rights cfg).perms k = permitted := by cases k <;> rfl
  rw [authCheck_of_given hgiven, authCheckDefault, hp]
  cases c.tag with
  | false => simp
  | true =>
    cases c.isSealed cfg with
    | true => simp
    | false =>
      cases permitted with
      | false => simp
      | true =>
        have hb : (a.toNat < c.base cfg ∨ c.top cfg < a.toNat + n) ↔ ¬inBounds := by omega
        by_cases hin : inBounds <;> simp [hb, hin]

end Sys2Proof
end

section
/-!
PROOFS. Where the stores of a step go: a byte or tag that changes is met by an authorised store (R40, R46, R51).
-/

namespace Sys2Proof.Machine

variable {x : Xlen} {h h' : Hart x.bits}

/-- An authorised store on the hart `h` accounts for how `h'` differs from it at the address `a`: a byte of the store lies
in the granule of `a`, and is the one at `a` if that byte changed. -/
def Hart.StoreAccountsFor (h h' : Hart x.bits) (a : BitVec x.bits) : Prop :=
  ∃ (k : AccessKind) (rs1 : Reg) (ea : BitVec x.bits) (n j : Nat), (k = .store ∨ k = .storeCap) ∧ h.authorised k rs1 ea n ∧
    j < n ∧ granule (ea + BitVec.ofNat x.bits j) = granule a ∧
    (h'.byteAt a ≠ h.byteAt a → a = ea + BitVec.ofNat x.bits j)

/-- A change that keeps all memory but a store's is accounted for by the store. -/
theorem keepsMemoryBut_accounts {k : AccessKind} {rs1 : Reg} {ea a : BitVec x.bits} {n : Nat}
    (hk : k = .store ∨ k = .storeCap) (ha : h.authorised k rs1 ea n) (hkeeps : keepsMemoryBut ea n h h')
    (hchange : h'.byteAt a ≠ h.byteAt a ∨ h'.tagAt a ≠ h.tagAt a) : h.StoreAccountsFor h' a := by
  obtain ⟨hbytes, htags⟩ := hkeeps
  by_cases hbyte : h'.byteAt a = h.byteAt a
  · have hmeets : ∃ j < n, granule a = granule (ea + BitVec.ofNat x.bits j) := by
      by_contra! hno
      exact hchange.elim (· hbyte) (· (htags a hno))
    obtain ⟨j, hj, hg⟩ := hmeets
    exact ⟨k, rs1, ea, n, j, hk, ha, hj, hg.symm, fun hne => absurd hbyte hne⟩
  · have hmeets : ∃ j < n, a = ea + BitVec.ofNat x.bits j := by
      by_contra! hno
      exact hbyte (hbytes a hno)
    obtain ⟨j, hj, rfl⟩ := hmeets
    exact ⟨k, rs1, ea, n, j, hk, ha, hj, rfl, fun _ => rfl⟩

/-- The kind of a store is one of the two of R40. -/
theorem storeKind_eq (s : AccessSize) : s.storeKind = .store ∨ s.storeKind = .storeCap := by
  cases s with
  | bytes n => exact .inl rfl
  | cap => exact .inr rfl

/-- What allowed stores of a `CapModeStep` instruction change, one of them accounts for (log 49). -/
theorem makeStores_accounts {ps : List (BaseAccess x.bits × Datum)} {a : BitVec x.bits}
    (hps : ∀ p ∈ ps, h.baseStoreAllowed p.1)
    (hchange : (h.makeStores ps).byteAt a ≠ h.byteAt a ∨ (h.makeStores ps).tagAt a ≠ h.tagAt a) :
    h.StoreAccountsFor (h.makeStores ps) a := by
  by_cases hbyte : (h.makeStores ps).byteAt a = h.byteAt a
  · obtain ⟨p, hp, j, hj, hg⟩ := Hart.makeStores_tag (clenBytes_pos x) (hchange.resolve_left (· hbyte))
    exact ⟨_, p.1.base, p.1.ea, _, j, storeKind_eq _, Hart.baseStoreAllowed_authorised (hps p hp), hj, hg.symm,
      fun hne => absurd hbyte hne⟩
  · obtain ⟨p, hp, j, hj, rfl⟩ := Hart.makeStores_byte (clenBytes_pos x) hbyte
    exact ⟨_, p.1.base, p.1.ea, _, j, storeKind_eq _, Hart.baseStoreAllowed_authorised (hps p hp), hj, rfl, fun _ => rfl⟩

/-- Entry to a trap handler changes no byte and no tag (R187). -/
theorem entered_keepsMemory (he : h.Entered h') : keepsMemory h h' := by
  obtain ⟨t, e, -, rfl⟩ := he
  exact fun a => ⟨by rw [Hart.byteAt, Hart.enterTrap_mem, Hart.byteAt],
    by rw [Hart.tagAt, Hart.enterTrap_tags, Hart.tagAt]⟩

/-- The effect of an instruction keeps memory, or an authorised store accounts for what it changed. -/
theorem Hart.Effect.accounts {i : Instr} {a : BitVec x.bits} (he : h.Effect i h')
    (hchange : h'.byteAt a ≠ h.byteAt a ∨ h'.tagAt a ≠ h.tagAt a) : h.StoreAccountsFor h' a := by
  cases he with
  | store n rs1 ea v ha =>
    obtain ⟨hauth, -⟩ := ha
    refine keepsMemoryBut_accounts (.inl rfl) hauth ⟨fun b hb => ?_, fun b hb => ?_⟩ hchange
    · exact h.byteAt_memWrite_of_outside n v hb
    · exact h.tagAt_memWrite_of_outside n v hb
  | storeCap rs1 ea c ha =>
    obtain ⟨hauth, -⟩ := ha
    exact keepsMemoryBut_accounts (.inr rfl) hauth (memWriteCap_outside h ea c) hchange
  | skip | register | branch | jump | jumpCap | switch | ordCsr | capCsr => simp [Hart.switchM] at hchange

/-- Whatever byte or tag a step changes, an authorised store accounts for it, in either mode (R40, R42, R92). -/
theorem step_accounts {t : State} (hs : step ⟨x, h⟩ = .next t) :
    ∃ h', t = ⟨x, h'⟩ ∧
      ∀ a, h'.byteAt a ≠ h.byteAt a ∨ h'.tagAt a ≠ h.tagAt a → h.StoreAccountsFor h' a := by
  have hentered : ∀ {h'}, h.Entered h' →
      ∀ a, h'.byteAt a ≠ h.byteAt a ∨ h'.tagAt a ≠ h.tagAt a → h.StoreAccountsFor h' a := fun he a hchange => by
    obtain ⟨hbyte, htag⟩ := entered_keepsMemory he a
    exact (hchange.elim (· hbyte) (· htag)).elim
  rcases step_next hs with ⟨h', rfl, he⟩ | ⟨i, -, hx⟩ | ⟨d, h', -, rfl, hu⟩
  · exact ⟨h', rfl, hentered he⟩
  · obtain ⟨h', rfl, he | he⟩ := exec_effect hx
    · exact ⟨h', rfl, hentered he⟩
    · exact ⟨h', rfl, fun _ => he.accounts⟩
  · refine ⟨h', rfl, ?_⟩
    rcases Hart.undecoded_next hu with he | ⟨-, -, -, -, -, e, -, hstores, -, rfl⟩
    · exact hentered he
    · intro a hchange
      simp only [Hart.StoreAccountsFor, Hart.byteAt, Hart.tagAt, Hart.setPc_mem, Hart.setPc_tags, Hart.baseWritten_mem,
        Hart.baseWritten_tags] at hchange ⊢
      exact makeStores_accounts hstores hchange

end Sys2Proof.Machine

namespace Sys2Proof

open Machine

/-- Settles O54: an authorised store accounts for the change; in Integer Mode its authority is `ddc`, and what that
authorises has a tag, an end at or below 2^XLEN and, under the default check, lies in bounds. -/
theorem integerModeWritesConfined : Obligations.IntegerModeWritesConfined := by
  intro x h t hm hs
  obtain ⟨h', rfl, haccounts⟩ := step_accounts hs
  refine ⟨h', rfl, fun a hchange => ?_⟩
  obtain ⟨k, rs1, ea, n, j, hk, hauth, hj, hgranule, hbyte⟩ := haccounts a hchange
  have hddc := (authorised_int hm k rs1 ea n).mp hauth
  have hend := end_le_of_authCheck hddc
  refine ⟨k, ea, n, j, hk, hddc, tag_of_authCheck hddc, hend, hj, hgranule, hbyte, fun hgiven => ?_⟩
  obtain ⟨hpasses, -⟩ := checkVerdict x h.cfg h.ddc k ea n hgiven
  obtain ⟨-, hseal, hperm, hbase, htop⟩ := hpasses.mp hddc
  have hw : (h.ddc.rights h.cfg).perms.w = true := by
    rcases hk with rfl | rfl <;> exact hperm
  rw [toNat_add_ofNat hend hj]
  exact ⟨hseal, hw, by omega, by omega⟩

end Sys2Proof
end

section
/-!
PROOFS. `MemRead` and `MemWrite` byte by byte (R45, R46).
-/

namespace Sys2Proof.Machine

variable {w : Nat} (h : Hart w)

/-- Byte `k` of a read is the byte at `a + k` (R45). -/
theorem memRead_byte {a : BitVec w} {n k : Nat} (hk : k < n) :
    h.memRead a n / 2 ^ (8 * k) % 256 = (h.byteAt (a + BitVec.ofNat w k)).toNat := by
  obtain ⟨m, rfl⟩ := Nat.exists_eq_add_of_lt hk
  have hbyte := (h.byteAt (a + BitVec.ofNat w k)).isLt
  rw [Nat.add_assoc, memRead_add, Nat.add_mul_div_left _ _ (Nat.two_pow_pos _), Nat.div_eq_of_lt (h.memRead_lt a k),
    Nat.zero_add, Hart.memRead]
  omega

/-- Byte `k` of the value stands at `a + k` after a write (R46). -/
theorem byteAt_memWrite {a : BitVec w} {n k v : Nat} (hn : n ≤ 2 ^ w) (hw : Memory.wf h = true) (hk : k < n) :
    ((h.memWrite a n v).byteAt (a + BitVec.ofNat w k)).toNat = v / 2 ^ (8 * k) % 256 := by
  rw [← memRead_byte _ hk, memRead_memWrite h a n v hn hw]
  obtain ⟨m, rfl⟩ := Nat.exists_eq_add_of_lt hk
  rw [Nat.add_assoc, Nat.mul_add, pow_add, Nat.mod_mul_right_div_self]
  exact Nat.mod_mod_of_dvd _ (pow_dvd_pow 2 (by omega : 8 ≤ 8 * (m + 1)))

/-- The tag of a granule that a stored byte lies in is cleared, and no store of bytes sets one (R46). -/
theorem tagAt_memWrite_cleared {a b : BitVec w} {n v : Nat} (hw : Memory.wf h = true)
    (hb : h.tagAt b = false ∨ ∃ k < n, granule b = granule (a + BitVec.ofNat w k)) :
    (h.memWrite a n v).tagAt b = false := by
  induction n generalizing h a v with
  | zero => exact hb.resolve_right (by simp)
  | succ n ih =>
    have hcleared : granule b = granule a → (h.storeByte a (BitVec.ofNat 8 v)).tagAt b = false := fun hg => by
      rw [Hart.tagAt, hg]
      exact tagAt_setTag_self _ a false (Memory.wf_pokeByte h a _ hw)
    refine ih _ (Memory.wf_storeByte h a _ hw) ?_
    by_cases hg : granule b = granule a
    · exact .inl (hcleared hg)
    · rw [Hart.tagAt_storeByte_ne _ _ hg]
      refine hb.imp_right ?_
      rintro ⟨k, hk, hgk⟩
      cases k with
      | zero => exact absurd (by simpa using hgk) hg
      | succ k => exact ⟨k, Nat.lt_of_succ_lt_succ hk, by rwa [add_one_add]⟩

/-- A write of bytes changes memory and tags alone (R46). -/
theorem memWrite_eq (a : BitVec w) (n v : Nat) :
    h.memWrite a n v = { h with mem := (h.memWrite a n v).mem, tags := (h.memWrite a n v).tags } := by
  induction n generalizing h a v with
  | zero => rfl
  | succ n ih => rw [Hart.memWrite, ih]; rfl

/-- A write of bytes changes no byte outside it, and no tag of a granule no byte of it lies in (R46). -/
theorem memWrite_outside (a : BitVec w) (n v : Nat) : keepsMemoryBut a n h (h.memWrite a n v) :=
  ⟨fun _ hb => h.byteAt_memWrite_of_outside n v hb, fun _ hb => h.tagAt_memWrite_of_outside n v hb⟩

end Sys2Proof.Machine

namespace Sys2Proof

open Machine

/-- Settles O6: below byte `k` of the value stand the `k` bytes before it. -/
theorem memoryReads : Obligations.MemoryReads :=
  fun _ h a n _ => ⟨h.memRead_lt a n, fun _ hk => memRead_byte h hk⟩

/-- Settles O7: a write read back gives its bytes, and no later byte of it sets a tag again. -/
theorem memoryWrites : Obligations.MemoryWrites := by
  intro x h a n v hn hw
  have hsmall : n ≤ 2 ^ x.bits := by
    have hn8 : n ≤ 8 := by simp at hn; omega
    exact hn8.trans (by cases x <;> decide)
  refine ⟨fun k hk => ⟨byteAt_memWrite h hsmall hw hk, ?_⟩, memWrite_outside h a n v, memWrite_eq h a n v⟩
  exact tagAt_memWrite_cleared h hw (.inr ⟨k, hk, rfl⟩)

end Sys2Proof
end

section
/-!
PROOFS. Who may change `ddc` (R51).
-/

namespace Sys2Proof.Machine

variable {w : Nat} {h h' : Hart w}

/-- The effect of an instruction changes `ddc` only if the instruction writes the CSR at 0x416 (R51, R154). -/
theorem Hart.Effect.ddc_eq_or_writes {i : Instr} (he : h.Effect i h') :
    h'.ddc = h.ddc ∨ ∃ rd rs1, (i, true) ∈ csrInstrs rd rs1 0x416 := by
  cases he with
  | capCsr rd rs1 a u v hwrites =>
    by_cases ha : a = ddcAddr
    · subst ha
      exact .inr ⟨rd, rs1, hwrites⟩
    · exact .inl (by rw [Hart.advance_ddc, Hart.setC_ddc, Hart.setCapCsr_ddc_ne _ _ ha])
  | skip | register | store | storeCap | branch | jump | jumpCap | switch | ordCsr => exact .inl (by simp [Hart.switchM])

/-- Entry to a trap handler keeps `ddc`, whatever CSRs it names (R187; log 24). -/
theorem entered_ddc (he : h.Entered h') : h'.ddc = h.ddc := by
  obtain ⟨t, e, -, rfl⟩ := he
  exact h.enterTrap_ddc t e

end Sys2Proof.Machine

namespace Sys2Proof

open Machine

/-- Settles O52: of the effects an instruction can have, only the write of the CSR at 0x416 reaches `ddc`. -/
theorem ddcWriters : Obligations.DdcWriters := by
  intro x h
  have hexec : ∀ (i : Instr) (t : State), exec i ⟨x, h⟩ = .next t →
      ∃ h' : Hart x.bits, t = ⟨x, h'⟩ ∧ (h'.ddc = h.ddc ∨ ∃ rd rs1, (i, true) ∈ csrInstrs rd rs1 0x416) := fun i t hx => by
    obtain ⟨h', rfl, he | he⟩ := exec_effect hx
    · exact ⟨h', rfl, .inl (entered_ddc he)⟩
    · exact ⟨h', rfl, he.ddc_eq_or_writes⟩
  refine ⟨hexec, fun t hs => ?_, fun h' => entered_ddc⟩
  rcases step_next hs with ⟨h', rfl, he⟩ | ⟨i, hf, hx⟩ | ⟨d, h', -, rfl, hu⟩
  · exact ⟨h', rfl, .inl (entered_ddc he)⟩
  · obtain ⟨h', rfl, hw⟩ := hexec i t hx
    exact ⟨h', rfl, hw.imp_right fun ⟨rd, rs1, hm⟩ => ⟨i, rd, rs1, hf, hm⟩⟩
  · refine ⟨h', rfl, .inl ?_⟩
    rcases Hart.undecoded_next hu with he | ⟨-, -, -, -, -, e, -, -, -, rfl⟩
    · exact entered_ddc he
    · rw [Hart.setPc_ddc, Hart.baseWritten_ddc]

end Sys2Proof
end

section
/-!
PROOFS. What stops a data access: its authority (R40, R42), the alignment policy (R48), memory that is not backed, and the
program text (D13, D34); said once for the accesses of the opcode table and of `CapModeStep`.
-/

namespace Sys2Proof.Machine

section

variable {w : Nat} {h : Hart w}

/-- Under `refuse` a misaligned base access is refused (R48). -/
theorem needAligned_refuse {ea : BitVec w} {n : Nat} {mis : Exn} {r : Res w} (hn : ea.toNat % n ≠ 0)
    (hp : h.cfg.misaligned = .refuse) : h.needAligned ea n mis r = .refused (.misaligned ea.toNat) := by
  rw [Hart.needAligned, if_neg hn, hp]

/-- Under `trap` a misaligned base access raises the misaligned exception (R48). -/
theorem needAligned_trap {ea : BitVec w} {n : Nat} {mis : Exn} {r : Res w} (hn : ea.toNat % n ≠ 0)
    (hp : h.cfg.misaligned = .trap) : h.needAligned ea n mis r = h.raise mis := by
  rw [Hart.needAligned, if_neg hn, hp]

/-- A load that its authority does not authorise raises the CHERI exception (R182). -/
theorem needBaseLoad_unauthorised {a : BaseAccess w} {r : Res w} {v : Violation}
    (hc : authCheck h.cfg (h.dataAuth a.base) a.size.loadKind a.ea (a.size.width w) = some v) :
    h.needBaseLoad a r = h.raise (.cheri v (.data a.ea.toNat)) := by
  obtain ⟨base, ea, size⟩ := a
  cases size <;> exact Hart.check_fail hc

/-- A store that its authority does not authorise raises the CHERI exception (R182). -/
theorem needBaseStore_unauthorised {a : BaseAccess w} {r : Res w} {v : Violation}
    (hc : authCheck h.cfg (h.dataAuth a.base) a.size.storeKind a.ea (a.size.width w) = some v) :
    h.needBaseStore a r = h.raise (.cheri v (.data a.ea.toNat)) := by
  obtain ⟨base, ea, size⟩ := a
  cases size <;> exact Hart.check_fail hc

/-- An authorised and aligned store of backed memory that meets the program text is refused (R52, D34). -/
theorem needBaseStore_text {a : BaseAccess w} {r : Res w} (hauth : h.authorised a.size.storeKind a.base a.ea (a.size.width w))
    (haligned : h.accessAligned a) (hb : h.backed a.ea (a.size.width w)) (ht : ¬h.offText a.ea (a.size.width w)) :
    h.needBaseStore a r = .refused (.programText a.ea.toNat) := by
  obtain ⟨base, ea, size⟩ := a
  cases size with
  | bytes n =>
    exact (Hart.check_pass hauth).trans ((Hart.needAligned_pass haligned).trans
      ((Hart.needBacked_pass hb).trans (Hart.needNoText_fail ht)))
  | cap =>
    exact (Hart.check_pass hauth).trans ((Hart.needCapAligned_pass haligned).trans
      ((Hart.needBacked_pass hb).trans (Hart.needNoText_fail ht)))

/-- A byte lies in some ranges when one of them holds its address. -/
theorem inAny_iff {rs : List Range} {a : BitVec w} :
    inAny rs a = true ↔ ∃ q ∈ rs, q.lo ≤ a.toNat ∧ a.toNat < q.hi := by
  simp only [inAny, List.any_eq_true, Bool.and_eq_true, decide_eq_true_eq]

/-- An access lies within ranges when each of its bytes does. -/
theorem within_eq_true {rs : List Range} {a : BitVec w} {n : Nat} :
    within rs a n = true ↔ ∀ k < n, inAny rs (a + BitVec.ofNat w k) = true := by
  induction n generalizing a with
  | zero => simp [within]
  | succ n ih =>
    rw [within, Bool.and_eq_true, ih, Nat.forall_lt_succ_left, show a + BitVec.ofNat w 0 = a from BitVec.add_zero a]
    simp only [add_one_add]

end

variable {x : Xlen} {h : Hart x.bits} {k : AccessKind} {rs1 : Reg} {ea : BitVec x.bits} {mis : Exn} {kd : CheckKind}
  {rest : Res x.bits}

/-- What stops an authorised access of bytes, before whatever check comes after. -/
theorem bytes_accessStops {n : Nat} (hauth : h.authorised k rs1 ea n) :
    accessStops x h ⟨rs1, ea, .bytes n⟩ mis (State.run ⟨x, h⟩
      (h.check (h.dataAuth rs1) k ea n kd (h.needAligned ea n mis (h.needBacked ea n rest)))) := by
  rw [Hart.check_pass (c := h.dataAuth rs1) hauth]
  refine ⟨fun m hm hn => ?_, nofun, fun ha hb => ?_⟩
  · cases hm
    exact ⟨fun hp => congrArg (State.run ⟨x, h⟩) (needAligned_refuse hn hp),
      fun hp => congrArg (State.run ⟨x, h⟩) (needAligned_trap hn hp)⟩
  · exact congrArg (State.run ⟨x, h⟩) ((Hart.needAligned_pass ha).trans (Hart.needBacked_fail hb))

/-- What stops an authorised access of a capability, before whatever check comes after. -/
theorem cap_accessStops (hauth : h.authorised k rs1 ea (clenBytes x.bits)) :
    accessStops x h ⟨rs1, ea, .cap⟩ mis (State.run ⟨x, h⟩
      (h.check (h.dataAuth rs1) k ea (clenBytes x.bits) kd
        (h.needCapAligned ea mis (h.needBacked ea (clenBytes x.bits) rest)))) := by
  rw [Hart.check_pass (c := h.dataAuth rs1) hauth]
  refine ⟨nofun, fun _ hn => ?_, fun ha hb => ?_⟩
  · exact congrArg (State.run ⟨x, h⟩) (if_neg hn)
  · exact congrArg (State.run ⟨x, h⟩) ((Hart.needCapAligned_pass ha).trans (Hart.needBacked_fail hb))

/-- What stops an authorised load. -/
theorem needBaseLoad_stops {a : BaseAccess x.bits} (hauth : h.authorised a.size.loadKind a.base a.ea (a.size.width x.bits)) :
    accessStops x h a (.loadMisaligned a.ea.toNat) (State.run ⟨x, h⟩ (h.needBaseLoad a rest)) := by
  obtain ⟨base, ea, size⟩ := a
  cases size with
  | bytes n => exact bytes_accessStops hauth
  | cap => exact cap_accessStops hauth

/-- What stops an authorised store, the program text apart. -/
theorem needBaseStore_stops {a : BaseAccess x.bits}
    (hauth : h.authorised a.size.storeKind a.base a.ea (a.size.width x.bits)) :
    accessStops x h a (.storeMisaligned a.ea.toNat) (State.run ⟨x, h⟩ (h.needBaseStore a rest)) := by
  obtain ⟨base, ea, size⟩ := a
  cases size with
  | bytes n => exact bytes_accessStops hauth
  | cap => exact cap_accessStops hauth

/-! ## The accesses of the opcode table -/

variable {r : Reg} {imm : BitVec 12} {p : Instr × Nat}

/-- A base load is an access of its width at `x[rs1] + sext(imm)` (R80). -/
theorem exec_baseLoad (h : Hart x.bits) (hp : p ∈ baseLoads x r rs1 imm) :
    ∃ rest, exec p.1 ⟨x, h⟩ =
      State.run ⟨x, h⟩ (h.needBaseLoad ⟨rs1, h.x rs1 + imm.signExtend x.bits, .bytes p.2⟩ rest) := by
  cases x with
  | rv32 => fin_cases hp <;> exact ⟨_, rfl⟩
  | rv64 => fin_cases hp <;> exact ⟨_, rfl⟩

/-- A base store is an access of its width at `x[rs1] + sext(imm)` (R80). -/
theorem exec_baseStore (h : Hart x.bits) (hp : p ∈ baseStores x r rs1 imm) :
    ∃ rest, exec p.1 ⟨x, h⟩ =
      State.run ⟨x, h⟩ (h.needBaseStore ⟨rs1, h.x rs1 + imm.signExtend x.bits, .bytes p.2⟩ rest) := by
  cases x with
  | rv32 => fin_cases hp <;> exact ⟨_, rfl⟩
  | rv64 => fin_cases hp <;> exact ⟨_, rfl⟩

/-- LC is an access of a capability (R140). -/
theorem exec_lc (r rs1 : Reg) (imm : BitVec 12) (he : h.cheriEnabled = true) :
    ∃ rest, exec (.lc r rs1 imm) ⟨x, h⟩ =
      State.run ⟨x, h⟩ (h.needBaseLoad ⟨rs1, h.x rs1 + imm.signExtend x.bits, .cap⟩ rest) :=
  ⟨_, congrArg (State.run ⟨x, h⟩) (Hart.needCheri_pass he)⟩

/-- SC is an access of a capability (R141). -/
theorem exec_sc (r rs1 : Reg) (imm : BitVec 12) (he : h.cheriEnabled = true) :
    ∃ rest, exec (.sc r rs1 imm) ⟨x, h⟩ =
      State.run ⟨x, h⟩ (h.needBaseStore ⟨rs1, h.x rs1 + imm.signExtend x.bits, .cap⟩ rest) :=
  ⟨_, congrArg (State.run ⟨x, h⟩) (Hart.needCheri_pass he)⟩

end Sys2Proof.Machine

namespace Sys2Proof

open Machine

/-- Settles O19: every access of the table is checked against its authority first. -/
theorem unauthorisedAccess : Obligations.UnauthorisedAccess := by
  intro x h r rs1 imm v ea authority fails
  refine ⟨fun p hp hc => ?_, fun p hp hc => ?_, fun he => ⟨fun hc => ?_, fun hc => ?_⟩, fun c k a n => ?_⟩
  · obtain ⟨rest, hx⟩ := exec_baseLoad h hp
    rw [hx, needBaseLoad_unauthorised hc]
    rfl
  · obtain ⟨rest, hx⟩ := exec_baseStore h hp
    rw [hx, needBaseStore_unauthorised hc]
    rfl
  · obtain ⟨rest, hx⟩ := exec_lc r rs1 imm he
    rw [hx, needBaseLoad_unauthorised hc]
    rfl
  · obtain ⟨rest, hx⟩ := exec_sc r rs1 imm he
    rw [hx, needBaseStore_unauthorised hc]
    rfl
  · exact ⟨authCheck_of_untagged, authCheck_past_top⟩

/-- Settles O20: past the authority the alignment policy stops an access of bytes, and the granule one of a capability. -/
theorem misalignedAccess : Obligations.MisalignedAccess := by
  intro x h r rs1 imm ea
  refine ⟨fun p hp hauth hn => ?_, fun p hp hauth hn => ?_, fun he hn => ⟨fun hauth => ?_, fun hauth => ?_⟩⟩
  · obtain ⟨rest, hx⟩ := exec_baseLoad h hp
    obtain ⟨hbytes, -, -⟩ := needBaseLoad_stops (rest := rest) (a := ⟨rs1, ea, .bytes p.2⟩) hauth
    exact hx ▸ hbytes _ rfl hn
  · obtain ⟨rest, hx⟩ := exec_baseStore h hp
    obtain ⟨hbytes, -, -⟩ := needBaseStore_stops (rest := rest) (a := ⟨rs1, ea, .bytes p.2⟩) hauth
    exact hx ▸ hbytes _ rfl hn
  · obtain ⟨rest, hx⟩ := exec_lc r rs1 imm he
    obtain ⟨-, hcap, -⟩ := needBaseLoad_stops (rest := rest) (a := ⟨rs1, ea, .cap⟩) hauth
    exact hx.trans (hcap rfl hn)
  · obtain ⟨rest, hx⟩ := exec_sc r rs1 imm he
    obtain ⟨-, hcap, -⟩ := needBaseStore_stops (rest := rest) (a := ⟨rs1, ea, .cap⟩) hauth
    exact hx.trans (hcap rfl hn)

/-- Settles O21: past the alignment policy the ranges of the launch stop an access, and the width stops LD, LWU and SD. -/
theorem refusedAccess : Obligations.RefusedAccess := by
  intro x h r rs1 imm ea
  refine ⟨fun p hp hauth ha hb => ?_, fun p hp hauth ha => ?_, fun he ha hb => ⟨fun hauth => ?_, fun hauth => ?_⟩, ?_,
    fun a n => ?_⟩
  · obtain ⟨rest, hx⟩ := exec_baseLoad h hp
    obtain ⟨-, -, hstop⟩ := needBaseLoad_stops (rest := rest) (a := ⟨rs1, ea, .bytes p.2⟩) hauth
    exact hx.trans (hstop ha hb)
  · obtain ⟨rest, hx⟩ := exec_baseStore h hp
    obtain ⟨-, -, hstop⟩ := needBaseStore_stops (rest := rest) (a := ⟨rs1, ea, .bytes p.2⟩) hauth
    refine ⟨fun hb => hx.trans (hstop ha hb), fun hb ht => ?_⟩
    rw [hx, needBaseStore_text (a := ⟨rs1, ea, .bytes p.2⟩) hauth ha hb ht]
    rfl
  · obtain ⟨rest, hx⟩ := exec_lc r rs1 imm he
    obtain ⟨-, -, hstop⟩ := needBaseLoad_stops (rest := rest) (a := ⟨rs1, ea, .cap⟩) hauth
    exact hx.trans (hstop ha hb)
  · obtain ⟨rest, hx⟩ := exec_sc r rs1 imm he
    obtain ⟨-, -, hstop⟩ := needBaseStore_stops (rest := rest) (a := ⟨rs1, ea, .cap⟩) hauth
    exact hx.trans (hstop ha hb)
  · rintro rfl
    exact ⟨rfl, rfl, rfl⟩
  · simp only [Hart.backed, Hart.offText, Hart.isText, meetsAny_eq_false, within_eq_true, ← inAny_iff, Bool.not_eq_true,
      and_self]

end Sys2Proof
end

section
/-!
PROOFS. What a step is that stops at its fetch (R49, R52, R207), and the instruction word as a function of the four bytes at
`pc`.
-/

namespace Sys2Proof.Machine

section

variable {w : Nat} {h g : Hart w}

/-- Bytes that are the same are read as the same number (R45). -/
theorem memRead_of_bytesFrom {a : BitVec w} {n : Nat} (hb : g.bytesFrom a n = h.bytesFrom a n) :
    g.memRead a n = h.memRead a n := by
  induction n generalizing a with
  | zero => rfl
  | succ n ih =>
    obtain ⟨hbyte, hrest⟩ := List.cons.inj hb
    rw [Hart.memRead, Hart.memRead, hbyte, ih hrest]

end

variable {x : Xlen} {h : Hart x.bits}

/-- At END_PC the run has ended (R207). -/
theorem step_final (hf : h.final = true) : step ⟨x, h⟩ = .refused .runEnded := if_pos hf

/-- A step whose fetch fails is what the failure says. -/
theorem step_of_fetchFailure {r : Res x.bits} (hf : h.final = false) (hr : h.fetchFailure = some r) :
    step ⟨x, h⟩ = State.run ⟨x, h⟩ r := by
  simp only [step, hf, hr, Bool.false_eq_true, if_false]

/-- An unauthorised fetch raises the CHERI exception (R49). -/
theorem step_fetch_unauthorised {v : Violation} (hf : h.final = false)
    (hc : authCheck h.cfg h.pcc .fetch h.pc 4 = some v) : step ⟨x, h⟩ = raised x h (.cheri v .fetch) :=
  step_of_fetchFailure hf (by rw [Hart.fetchFailure, hc])

/-- A fetch from memory that is not backed is refused (D13). -/
theorem step_fetch_unbacked (hf : h.final = false) (hc : authCheck h.cfg h.pcc .fetch h.pc 4 = none)
    (hb : ¬h.backed h.pc 4) : step ⟨x, h⟩ = .refused (.unbacked h.pc.toNat) := by
  rw [Hart.backed, Bool.not_eq_false] at hb
  exact step_of_fetchFailure (r := .refused _) hf (by simp only [Hart.fetchFailure, hc, hb, if_true])

/-- A fetch of bytes that are no program text is refused (R52, D34). -/
theorem step_fetch_outsideText (hf : h.final = false) (hc : authCheck h.cfg h.pcc .fetch h.pc 4 = none)
    (hb : h.backed h.pc 4) (ht : ¬h.isText h.pc 4) : step ⟨x, h⟩ = .refused (.outsideText h.pc.toNat) := by
  rw [Hart.backed] at hb
  rw [Hart.isText] at ht
  exact step_of_fetchFailure (r := .refused _) hf
    (by simp only [Hart.fetchFailure, hc, hb, ht, Bool.false_eq_true, if_false])

end Sys2Proof.Machine
end

section
/-!
PROOFS. Two harts that differ in memory alone have, but for memory, the same effect, so far as they agree on what is loaded
(R40, R51, R92).
-/

namespace Sys2Proof.Machine

/-! ## Harts that differ in memory alone -/

section

variable {w : Nat}

/-- The hart with other bytes and tags in memory. -/
def Hart.withMemory (h : Hart w) (m : List Host.Cell) (t : Table Bool) : Hart w := { h with mem := m, tags := t }

@[simp] theorem Hart.withMemory_cfg (h : Hart w) (m t) : (h.withMemory m t).cfg = h.cfg := rfl

@[simp] theorem Hart.withMemory_mode (h : Hart w) (m t) : (h.withMemory m t).mode = h.mode := rfl

/-- Two harts differ in memory alone. -/
def Hart.SameButMemory (h g : Hart w) : Prop := g = h.withMemory g.mem g.tags

variable {h g k : Hart w}

/-- Other memory is another memory alone. -/
theorem Hart.SameButMemory.withMemory (m : List Host.Cell) (t : Table Bool) : h.SameButMemory (h.withMemory m t) := rfl

/-- A hart that differs in memory alone is the hart with that memory. -/
theorem Hart.SameButMemory.exists_eq (hs : h.SameButMemory g) : ∃ m t, g = h.withMemory m t := ⟨_, _, hs⟩

theorem Hart.SameButMemory.symm (hs : h.SameButMemory g) : g.SameButMemory h := by
  obtain ⟨m, t, rfl⟩ := hs.exists_eq
  rfl

theorem Hart.SameButMemory.trans (hs : h.SameButMemory g) (hs' : g.SameButMemory k) : h.SameButMemory k := by
  obtain ⟨m, t, rfl⟩ := hs.exists_eq
  exact hs'

/-- What each changes in memory alone makes no other difference. -/
theorem Hart.SameButMemory.congr {h' g' : Hart w} (hs : h.SameButMemory g) (hh : h.SameButMemory h')
    (hg : g.SameButMemory g') : h'.SameButMemory g' := hh.symm.trans (hs.trans hg)

theorem Hart.SameButMemory.setC (hs : h.SameButMemory g) (i : Reg) (v : Cap w) : (h.setC i v).SameButMemory (g.setC i v) := by
  obtain ⟨m, t, rfl⟩ := hs.exists_eq
  unfold Hart.setC
  split <;> rfl

theorem Hart.SameButMemory.setPc (hs : h.SameButMemory g) (a : BitVec w) : (h.setPc a).SameButMemory (g.setPc a) := by
  obtain ⟨m, t, rfl⟩ := hs.exists_eq
  rfl

theorem Hart.SameButMemory.advance (hs : h.SameButMemory g) : h.advance.SameButMemory g.advance := by
  obtain ⟨m, t, rfl⟩ := hs.exists_eq
  rfl

theorem Hart.SameButMemory.setCapCsr (hs : h.SameButMemory g) (a : CsrAddr) (v : Cap w) :
    (h.setCapCsr a v).SameButMemory (g.setCapCsr a v) := by
  obtain ⟨m, t, rfl⟩ := hs.exists_eq
  unfold Hart.setCapCsr
  split <;> rfl

theorem Hart.SameButMemory.setOrdCsr (hs : h.SameButMemory g) (a : CsrAddr) (v : BitVec w) :
    (h.setOrdCsr a v).SameButMemory (g.setOrdCsr a v) := by
  obtain ⟨m, t, rfl⟩ := hs.exists_eq
  rfl

/-- A handler is entered in the same way (R187). -/
theorem Hart.SameButMemory.enterTrap (hs : h.SameButMemory g) (c : TrapCsrs) (e : Exn) :
    (h.enterTrap c e).SameButMemory (g.enterTrap c e) := by
  obtain ⟨m, t, rfl⟩ := hs.exists_eq
  unfold Hart.enterTrap Hart.setCapCsr
  split <;> rfl

/-- A CSRRW writes the same (R157 to R159). -/
theorem Hart.SameButMemory.csrrwWrite (hs : h.SameButMemory g) (rs1 : Reg) (a : CsrAddr) (d : CsrDesc) :
    (h.csrrwWrite rs1 a d).SameButMemory (g.csrrwWrite rs1 a d) := by
  obtain ⟨m, t, rfl⟩ := hs.exists_eq
  unfold Hart.csrrwWrite
  split
  · exact hs.setOrdCsr a _
  · exact hs.setCapCsr a _
  · exact hs.setCapCsr a _

/-- The other five CSR instructions write the same (R160 to R164). -/
theorem Hart.SameButMemory.csrUpdate (hs : h.SameButMemory g) (f : BitVec w → BitVec w) (a : CsrAddr) (d : CsrDesc) :
    (h.csrUpdate f a d).SameButMemory (g.csrUpdate f a d) := by
  obtain ⟨m, t, rfl⟩ := hs.exists_eq
  unfold Hart.csrUpdate
  split
  · exact hs.setOrdCsr a _
  · exact hs.setCapCsr a _
  · exact hs.setCapCsr a _

/-- The old value of a CSR goes to its register in the same way (R153, R166). -/
theorem Hart.SameButMemory.csrToReg {h' g' : Hart w} (hs : h.SameButMemory g) (hs' : h'.SameButMemory g') (rd : Reg)
    (a : CsrAddr) (d : CsrDesc) : (h'.csrToReg h rd a d).SameButMemory (g'.csrToReg g rd a d) := by
  obtain ⟨m, t, rfl⟩ := hs.exists_eq
  have hset (v : Cap w) : (h'.setC rd v).SameButMemory (g'.setC rd v) := hs'.setC rd v
  unfold Hart.csrToReg
  split
  · exact hset _
  · rw [Hart.withMemory_mode]
    split <;> exact hset _
  · rw [Hart.withMemory_mode]
    split <;> exact hset _

/-- Register writes of `CapModeStep` are the same. -/
theorem Hart.SameButMemory.makeRegs (hs : h.SameButMemory g) (b : Bool) (ps : List (Reg × Cap w)) :
    (h.makeRegs b ps).SameButMemory (g.makeRegs b ps) := by
  induction ps generalizing h g with
  | nil => exact hs
  | cons p ps ih => exact ih (hs.setC _ _)

/-- The writes of `CapModeStep` are the same but for memory. -/
theorem Hart.SameButMemory.baseWritten (hs : h.SameButMemory g) (b : Bool) (e : BaseEffect w) :
    (h.baseWritten b e).SameButMemory (g.baseWritten b e) :=
  (hs.congr (Hart.makeStores_eq e.stores) (Hart.makeStores_eq e.stores)).makeRegs b e.regs

/-! ## The same effect but for memory -/

/-- Two outcomes of an instruction are the same but for memory. -/
inductive SameEffect : Res w → Res w → Prop
  | next {h g : Hart w} (same : h.SameButMemory g) : SameEffect (.next h) (.next g)
  | fault (f : Fault) : SameEffect (.fault f) (.fault f)
  | refused (q : Refusal) : SameEffect (.refused q) (.refused q)

variable {m : List Host.Cell} {t : Table Bool} {r r' : Res w}

/-- An exception is the same whatever memory holds (R180). -/
theorem sameEffect_raise (e : Exn) : SameEffect (h.raise e) ((h.withMemory m t).raise e) := by
  simp only [Hart.raise, Hart.withMemory_cfg]
  split
  · exact .fault _
  · exact .next ((Hart.SameButMemory.withMemory m t).enterTrap _ e)

/-- An illegal instruction is the same when its word is (R183). -/
theorem sameEffect_illegal (hword : (h.withMemory m t).fetchedWord = h.fetchedWord) :
    SameEffect h.illegal (h.withMemory m t).illegal := by
  rw [Hart.illegal, Hart.illegal, hword]
  exact sameEffect_raise _

/-- What follows a capability check need only be the same if the check passes. -/
theorem sameEffect_check {c : Cap w} {k : AccessKind} {a : BitVec w} {n : Nat} {kd : CheckKind}
    (hr : authCheck h.cfg c k a n = none → SameEffect r r') :
    SameEffect (h.check c k a n kd r) ((h.withMemory m t).check c k a n kd r') := by
  cases hc : authCheck h.cfg c k a n with
  | none =>
    rw [Hart.check_pass hc, Hart.check_pass (h := h.withMemory m t) hc]
    exact hr hc
  | some v =>
    rw [Hart.check_fail hc, Hart.check_fail (h := h.withMemory m t) hc]
    exact sameEffect_raise _

theorem sameEffect_needCheri (hword : (h.withMemory m t).fetchedWord = h.fetchedWord) (hr : SameEffect r r') :
    SameEffect (h.needCheri r) ((h.withMemory m t).needCheri r') := by
  cases he : h.cheriEnabled with
  | true =>
    rw [Hart.needCheri_pass he, Hart.needCheri_pass (h := h.withMemory m t) he]
    exact hr
  | false =>
    rw [Hart.needCheri_fail he, Hart.needCheri_fail (h := h.withMemory m t) he, hword]
    exact sameEffect_raise _

theorem sameEffect_needCheriIf (hword : (h.withMemory m t).fetchedWord = h.fetchedWord) (b : Bool) (hr : SameEffect r r') :
    SameEffect (h.needCheriIf b r) ((h.withMemory m t).needCheriIf b r') := by
  cases b with
  | true => exact sameEffect_needCheri hword hr
  | false => exact hr

theorem sameEffect_needAligned {a : BitVec w} {n : Nat} {e : Exn} (hr : SameEffect r r') :
    SameEffect (h.needAligned a n e r) ((h.withMemory m t).needAligned a n e r') := by
  by_cases ha : a.toNat % n = 0
  · rwa [Hart.needAligned_pass (.inl ha), Hart.needAligned_pass (.inl ha)]
  · cases hp : h.cfg.misaligned with
    | refuse =>
      rw [needAligned_refuse ha hp, needAligned_refuse (h := h.withMemory m t) ha hp]
      exact .refused _
    | trap =>
      rw [needAligned_trap ha hp, needAligned_trap (h := h.withMemory m t) ha hp]
      exact sameEffect_raise e
    | bytewise => rwa [Hart.needAligned_pass (.inr hp), Hart.needAligned_pass (h := h.withMemory m t) (.inr hp)]

theorem sameEffect_needCapAligned {a : BitVec w} {e : Exn} (hr : SameEffect r r') :
    SameEffect (h.needCapAligned a e r) ((h.withMemory m t).needCapAligned a e r') := by
  unfold Hart.needCapAligned
  split
  · exact hr
  · exact sameEffect_raise e

theorem sameEffect_needBacked {a : BitVec w} {n : Nat} (hr : SameEffect r r') :
    SameEffect (h.needBacked a n r) ((h.withMemory m t).needBacked a n r') := by
  by_cases hb : h.backed a n
  · rwa [Hart.needBacked_pass hb, Hart.needBacked_pass (h := h.withMemory m t) hb]
  · rw [Hart.needBacked_fail hb, Hart.needBacked_fail (h := h.withMemory m t) hb]
    exact .refused _

theorem sameEffect_needNoText {a : BitVec w} {n : Nat} (hr : SameEffect r r') :
    SameEffect (h.needNoText a n r) ((h.withMemory m t).needNoText a n r') := by
  by_cases ho : h.offText a n
  · rwa [Hart.needNoText_pass ho, Hart.needNoText_pass (h := h.withMemory m t) ho]
  · rw [Hart.needNoText_fail ho, Hart.needNoText_fail (h := h.withMemory m t) ho]
    exact .refused _

/-- What follows a load need only be the same if the load is authorised. -/
theorem sameEffect_needBaseLoad {a : BaseAccess w}
    (hr : h.authorised a.size.loadKind a.base a.ea (a.size.width w) → SameEffect r r') :
    SameEffect (h.needBaseLoad a r) ((h.withMemory m t).needBaseLoad a r') := by
  obtain ⟨base, ea, size⟩ := a
  cases size with
  | bytes n => exact sameEffect_check fun hc => sameEffect_needAligned (sameEffect_needBacked (hr hc))
  | cap => exact sameEffect_check fun hc => sameEffect_needCapAligned (sameEffect_needBacked (hr hc))

theorem sameEffect_needBaseLoads {as : List (BaseAccess w)}
    (hr : (∀ a ∈ as, h.authorised a.size.loadKind a.base a.ea (a.size.width w)) → SameEffect r r') :
    SameEffect (h.needBaseLoads r as) ((h.withMemory m t).needBaseLoads r' as) := by
  induction as with
  | nil => exact hr nofun
  | cons a as ih =>
    exact sameEffect_needBaseLoad fun ha => ih fun has => hr (List.forall_mem_cons.mpr ⟨ha, has⟩)

theorem sameEffect_needBaseStore {a : BaseAccess w} (hr : SameEffect r r') :
    SameEffect (h.needBaseStore a r) ((h.withMemory m t).needBaseStore a r') := by
  obtain ⟨base, ea, size⟩ := a
  cases size with
  | bytes n =>
    exact sameEffect_check fun _ => sameEffect_needAligned (sameEffect_needBacked (sameEffect_needNoText hr))
  | cap =>
    exact sameEffect_check fun _ => sameEffect_needCapAligned (sameEffect_needBacked (sameEffect_needNoText hr))

theorem sameEffect_needBaseStores {ps : List (BaseAccess w × Datum)} (hr : SameEffect r r') :
    SameEffect (h.needBaseStores r ps) ((h.withMemory m t).needBaseStores r' ps) := by
  induction ps with
  | nil => exact hr
  | cons p ps ih => exact sameEffect_needBaseStore ih

theorem sameEffect_checkTarget {a : BitVec w} (hr : SameEffect r r') :
    SameEffect (h.checkTarget a r) ((h.withMemory m t).checkTarget a r') := by
  refine sameEffect_check fun _ => ?_
  rw [Hart.withMemory_cfg]
  split
  · exact hr
  · exact sameEffect_raise _

/-- A choice by the same condition. -/
theorem sameEffect_ite {c : Prop} [Decidable c] {d : Decidable c} {q q' : Res w} (hr : SameEffect r r')
    (hq : SameEffect q q') : SameEffect (if c then r else q) (@ite _ c d r' q') := by
  by_cases hc : c
  · rwa [if_pos hc, if_pos hc]
  · rwa [if_neg hc, if_neg hc]

theorem sameEffect_csrChecked {a : CsrAddr} {b : Bool} {f f' : CsrDesc → Res w}
    (hword : (h.withMemory m t).fetchedWord = h.fetchedWord) (hf : ∀ d, SameEffect (f d) (f' d)) :
    SameEffect (h.csrChecked a b f) ((h.withMemory m t).csrChecked a b f') := by
  have hillegal := sameEffect_illegal hword
  unfold Hart.csrChecked
  rw [Hart.withMemory_cfg]
  split
  · exact hillegal
  · exact sameEffect_ite hillegal (sameEffect_ite hillegal (sameEffect_ite (sameEffect_raise _) (hf _)))

/-! ## What Integer Mode loads -/

/-- The hart `h` in Integer Mode, and other memory that has the same bytes at `pc` and in every load that `ddc` authorises,
and the same tags in these (R40). -/
structure Hart.AgreesOnLoads (h : Hart w) (m : List Host.Cell) (t : Table Bool) : Prop where
  mode : h.mode = .int
  word : (h.withMemory m t).bytesFrom h.pc 4 = h.bytesFrom h.pc 4
  loads : ∀ (k : AccessKind) (ea : BitVec w) (n j : Nat), k = .load ∨ k = .loadCap → authCheck h.cfg h.ddc k ea n = none →
    j < n → (h.withMemory m t).byteAt (ea + BitVec.ofNat w j) = h.byteAt (ea + BitVec.ofNat w j) ∧
      (h.withMemory m t).tagAt (ea + BitVec.ofNat w j) = h.tagAt (ea + BitVec.ofNat w j)

/-- Runs of bytes that agree byte by byte are the same. -/
theorem bytesFrom_congr {a : BitVec w} {n : Nat}
    (hb : ∀ j < n, g.byteAt (a + BitVec.ofNat w j) = h.byteAt (a + BitVec.ofNat w j)) :
    g.bytesFrom a n = h.bytesFrom a n := by
  induction n generalizing a with
  | zero => rfl
  | succ n ih =>
    have hbyte : g.byteAt a = h.byteAt a := by simpa using hb 0 (Nat.succ_pos n)
    have hrest : g.bytesFrom (a + 1) n = h.bytesFrom (a + 1) n :=
      ih fun j hj => add_one_add a j ▸ hb (j + 1) (Nat.succ_lt_succ hj)
    rw [Hart.bytesFrom, Hart.bytesFrom, hbyte, hrest]

namespace Hart.AgreesOnLoads

variable {k : AccessKind} {rs1 : Reg} {ea : BitVec w} {n : Nat}

theorem fetchedWord (ha : h.AgreesOnLoads m t) : (h.withMemory m t).fetchedWord = h.fetchedWord :=
  congrArg (BitVec.ofNat 32) (memRead_of_bytesFrom ha.word)

theorem memRead (ha : h.AgreesOnLoads m t) (hk : k = .load ∨ k = .loadCap) (hauth : h.authorised k rs1 ea n) :
    (h.withMemory m t).memRead ea n = h.memRead ea n :=
  memRead_of_bytesFrom (bytesFrom_congr fun j hj =>
    (ha.loads k ea n j hk ((authorised_int ha.mode k rs1 ea n).mp hauth) hj).1)

theorem memReadCap (ha : h.AgreesOnLoads m t) (hn : 0 < clenBytes w) (hauth : h.authorised .loadCap rs1 ea (clenBytes w)) :
    (h.withMemory m t).memReadCap ea = h.memReadCap ea := by
  have htag := (ha.loads .loadCap ea _ 0 (.inr rfl) ((authorised_int ha.mode _ rs1 ea _).mp hauth) hn).2
  rw [show ea + BitVec.ofNat w 0 = ea from BitVec.add_zero ea] at htag
  rw [Hart.memReadCap, Hart.memReadCap, ha.memRead (.inr rfl) hauth, htag]

theorem baseLoaded (ha : h.AgreesOnLoads m t) (hn : 0 < clenBytes w) {a : BaseAccess w}
    (hauth : h.authorised a.size.loadKind a.base a.ea (a.size.width w)) :
    (h.withMemory m t).baseLoaded a = h.baseLoaded a := by
  obtain ⟨base, ea, size⟩ := a
  cases size with
  | bytes n => exact congrArg (Datum.mk false) (ha.memRead (.inl rfl) hauth)
  | cap =>
    simp only [Hart.baseLoaded]
    rw [ha.memReadCap hn hauth]
    rfl

/-! ## The instructions of the opcode table -/

theorem load (ha : h.AgreesOnLoads m t) (n : Nat) (sg : Bool) (rd rs1 : Reg) (imm : BitVec 12) :
    SameEffect (Hart.load n sg rd rs1 imm h) (Hart.load n sg rd rs1 imm (h.withMemory m t)) := by
  refine sameEffect_needBaseLoad (a := ⟨rs1, h.effAddr rs1 imm, .bytes n⟩) fun hauth => .next ?_
  have hv : (h.withMemory m t).loaded n sg (h.effAddr rs1 imm) = h.loaded n sg (h.effAddr rs1 imm) :=
    congrArg (extendLoaded n sg) (ha.memRead (.inl rfl) hauth)
  rw [← hv]
  exact ((Hart.SameButMemory.withMemory m t).setC rd _).advance

theorem lc (ha : h.AgreesOnLoads m t) (hn : 0 < clenBytes w) (cd rs1 : Reg) (imm : BitVec 12) :
    SameEffect (Hart.lc cd rs1 imm h) (Hart.lc cd rs1 imm (h.withMemory m t)) := by
  refine sameEffect_needCheri ha.fetchedWord (sameEffect_needBaseLoad (a := ⟨rs1, h.effAddr rs1 imm, .cap⟩)
    fun hauth => .next ?_)
  rw [← ha.memReadCap hn hauth]
  exact ((Hart.SameButMemory.withMemory m t).setC cd _).advance

/-- In Integer Mode JALR is a jump to an integer (R110). -/
theorem jalr (ha : h.AgreesOnLoads m t) (rd rs1 : Reg) (imm : BitVec 12) :
    SameEffect (Hart.jalr rd rs1 imm h) (Hart.jalr rd rs1 imm (h.withMemory m t)) := by
  unfold Hart.jalr
  rw [Hart.withMemory_mode, ha.mode]
  exact sameEffect_checkTarget (.next (((Hart.SameButMemory.withMemory m t).setC rd _).setPc _))

theorem modeswCap (ha : h.AgreesOnLoads m t) : SameEffect h.modeswCap (h.withMemory m t).modeswCap := by
  refine sameEffect_needCheri ha.fetchedWord ?_
  rw [Hart.withMemory_mode, ha.mode]
  exact .next rfl

theorem modeswInt (ha : h.AgreesOnLoads m t) : SameEffect h.modeswInt (h.withMemory m t).modeswInt := by
  unfold Hart.modeswInt
  rw [Hart.withMemory_mode, ha.mode]
  exact sameEffect_needCheri ha.fetchedWord (.refused _)

/-- An instruction on registers that asks for CHERI access: SCMODE, GCMODE, GCTAG (R120, R121, R125). -/
theorem cheriRegister (ha : h.AgreesOnLoads m t) (rd : Reg) (v : Cap w) :
    SameEffect (h.needCheri (.next (h.setC rd v).advance))
      ((h.withMemory m t).needCheri (.next ((h.withMemory m t).setC rd v).advance)) :=
  sameEffect_needCheri ha.fetchedWord (.next ((Hart.SameButMemory.withMemory m t).setC rd v).advance)

theorem csrrw (ha : h.AgreesOnLoads m t) (rd rs1 : Reg) (a : CsrAddr) :
    SameEffect (Hart.csrrw rd rs1 a h) (Hart.csrrw rd rs1 a (h.withMemory m t)) :=
  have hs : h.SameButMemory (h.withMemory m t) := .withMemory m t
  sameEffect_csrChecked ha.fetchedWord fun d => .next (hs.csrToReg (hs.csrrwWrite rs1 a d) rd a d).advance

theorem csrModify (ha : h.AgreesOnLoads m t) (rd : Reg) (f : BitVec w → BitVec w) (b : Bool) (a : CsrAddr) :
    SameEffect (Hart.csrModify rd f b a h) (Hart.csrModify rd f b a (h.withMemory m t)) := by
  have hs : h.SameButMemory (h.withMemory m t) := .withMemory m t
  refine sameEffect_csrChecked ha.fetchedWord fun d => .next (hs.csrToReg ?_ rd a d).advance
  cases b with
  | true => exact hs.csrUpdate f a d
  | false => exact hs

end Hart.AgreesOnLoads

/-- What a store writes makes no other difference (R80). -/
theorem sameEffect_store (n : Nat) (rs2 rs1 : Reg) (imm : BitVec 12) :
    SameEffect (Hart.store n rs2 rs1 imm h) (Hart.store n rs2 rs1 imm (h.withMemory m t)) :=
  sameEffect_needBaseStore (a := ⟨rs1, h.effAddr rs1 imm, .bytes n⟩) (.next
    ((Hart.SameButMemory.withMemory m t).congr (memWrite_eq h _ _ _) (memWrite_eq (h.withMemory m t) _ _ _)).advance)

theorem sameEffect_branch (b : Bool) (off : BitVec 13) :
    SameEffect (Hart.branch b off h) (Hart.branch b off (h.withMemory m t)) := by
  cases b with
  | true => exact sameEffect_checkTarget (.next rfl)
  | false => exact .next rfl

theorem sameEffect_jal (rd : Reg) (off : BitVec 21) : SameEffect (Hart.jal rd off h) (Hart.jal rd off (h.withMemory m t)) :=
  sameEffect_checkTarget (.next (((Hart.SameButMemory.withMemory m t).setC rd _).setPc _))

/-- A capability store changes memory and tags alone (R47). -/
theorem memWriteCap_eq (a : BitVec w) (c : Cap w) :
    h.memWriteCap a c = { h with mem := (h.memWriteCap a c).mem, tags := (h.memWriteCap a c).tags } := by
  rw [Hart.memWriteCap, memWrite_eq]
  rfl

theorem Hart.AgreesOnLoads.sc (ha : h.AgreesOnLoads m t) (cs2 rs1 : Reg) (imm : BitVec 12) :
    SameEffect (Hart.sc cs2 rs1 imm h) (Hart.sc cs2 rs1 imm (h.withMemory m t)) :=
  sameEffect_needCheri ha.fetchedWord (sameEffect_needBaseStore (a := ⟨rs1, h.effAddr rs1 imm, .cap⟩) (.next
    ((Hart.SameButMemory.withMemory m t).congr (memWriteCap_eq _ _) (memWriteCap_eq (h := h.withMemory m t) _ _)).advance))

/-! ## Words of `CapModeStep` -/

/-- A word of `CapModeStep` has the same effect: its stores and its target are checked in the same way. -/
theorem sameEffect_baseEffect (b : Bool) (e : BaseEffect w) :
    SameEffect (h.baseEffect b e) ((h.withMemory m t).baseEffect b e) := by
  have hs : h.SameButMemory (h.withMemory m t) := .withMemory m t
  refine sameEffect_needBaseStores ?_
  split
  · exact .next (hs.baseWritten b e).advance
  · exact sameEffect_checkTarget (.next ((hs.baseWritten b e).setPc _))

/-- What becomes of a word that is no row of the opcode table is the same (R67, R92). -/
theorem Hart.AgreesOnLoads.delegated (ha : h.AgreesOnLoads m t) (hn : 0 < clenBytes w) :
    SameEffect h.delegated (h.withMemory m t).delegated := by
  have hview : (h.withMemory m t).baseView = h.baseView := rfl
  unfold Hart.delegated
  rw [Hart.withMemory_cfg, ha.fetchedWord, hview]
  split
  · exact .refused _
  · dsimp only
    split
    · exact .refused _
    · exact sameEffect_illegal ha.fetchedWord
    · exact sameEffect_needCheriIf ha.fetchedWord _ (sameEffect_raise _)
    · refine sameEffect_needCheriIf ha.fetchedWord _ (sameEffect_needBaseLoads fun hauth => ?_)
      rw [List.map_congr_left fun a hm => ha.baseLoaded hn (hauth a hm)]
      exact sameEffect_baseEffect _ _

/-- What becomes of bytes that are no instruction of the opcode table is the same. -/
theorem Hart.AgreesOnLoads.undecoded (ha : h.AgreesOnLoads m t) (hn : 0 < clenBytes w) (d : DecodeError) :
    SameEffect (h.undecoded d) ((h.withMemory m t).undecoded d) := by
  cases d with
  | noSuchWord => exact ha.delegated hn
  | notThirtyTwoBit | tooShort =>
    rw [Hart.undecoded, Hart.undecoded, ha.fetchedWord]
    exact .refused _

end

/-! ## The step -/

/-- Two outcomes at XLEN are the same but for memory, if the first is a next state. -/
def SameOutcome (x : Xlen) (o o' : Host.Outcome State Fault Refusal) : Prop :=
  ∀ h' : Hart x.bits, o = .next ⟨x, h'⟩ → ∃ g', o' = .next ⟨x, g'⟩ ∧ h'.SameButMemory g'

variable {x : Xlen} {h g : Hart x.bits} {m : List Host.Cell} {t : Table Bool} {r r' : Res x.bits}

/-- A refusal is no next state. -/
theorem sameOutcome_refused (q : Refusal) (o : Host.Outcome State Fault Refusal) : SameOutcome x (.refused q) o := by
  intro h' hh
  cases hh

theorem SameEffect.run (hr : SameEffect r r') : SameOutcome x (State.run ⟨x, h⟩ r) (State.run ⟨x, g⟩ r') := by
  intro h' hh
  obtain ⟨k, rfl, hk⟩ := State.run_eq_next.mp hh
  cases hk
  cases hr with
  | next hs => exact ⟨_, rfl, hs⟩

theorem SameEffect.run64 (n : String) (hr : SameEffect r r') :
    SameOutcome x (State.run64 ⟨x, h⟩ n r) (State.run64 ⟨x, g⟩ n r') := by
  cases x with
  | rv32 => exact sameOutcome_refused _ _
  | rv64 => exact hr.run

/-- An instruction of the opcode table has the same outcome but for memory. -/
theorem Hart.AgreesOnLoads.exec (ha : h.AgreesOnLoads m t) (i : Instr) :
    SameOutcome x (exec i ⟨x, h⟩) (exec i ⟨x, h.withMemory m t⟩) := by
  cases i with
  | lb | lh | lw | lbu | lhu => exact (ha.load ..).run
  | ld | lwu => exact (ha.load ..).run64 _
  | sb | sh | sw => exact (sameEffect_store ..).run
  | sd => exact (sameEffect_store ..).run64 _
  | beq | bne | blt | bge | bltu | bgeu => exact (sameEffect_branch ..).run
  | jal => exact (sameEffect_jal ..).run
  | jalr => exact (ha.jalr ..).run
  | auipc rd => exact SameEffect.run (.next ((Hart.SameButMemory.withMemory m t).setC rd _).advance)
  | csrrw => exact (ha.csrrw ..).run
  | csrrs | csrrc | csrrwi | csrrsi | csrrci => exact (ha.csrModify ..).run
  | scmode | gcmode | gctag => exact (ha.cheriRegister ..).run
  | modeswCap => exact ha.modeswCap.run
  | modeswInt => exact ha.modeswInt.run
  | lc => exact (ha.lc (clenBytes_pos x) ..).run
  | sc => exact (ha.sc ..).run

/-- The fetch of the same word by the same `pc` decodes to the same instruction (R49). -/
theorem Hart.AgreesOnLoads.fetched (ha : h.AgreesOnLoads m t) :
    State.fetched ⟨x, h.withMemory m t⟩ = State.fetched ⟨x, h⟩ := by
  have hword : (h.withMemory m t).bytesFrom (h.withMemory m t).pc 4 = h.bytesFrom h.pc 4 := ha.word
  simp only [State.fetched]
  rw [hword]
  rfl

/-- A step has the same outcome but for memory. -/
theorem Hart.AgreesOnLoads.step (ha : h.AgreesOnLoads m t) :
    SameOutcome x (step ⟨x, h⟩) (step ⟨x, h.withMemory m t⟩) := by
  cases hf : h.final with
  | true =>
    rw [step_final hf]
    exact sameOutcome_refused _ _
  | false =>
    cases hc : authCheck h.cfg h.pcc .fetch h.pc 4 with
    | some v =>
      rw [step_fetch_unauthorised hf hc, step_fetch_unauthorised (h := h.withMemory m t) hf hc]
      exact (sameEffect_raise _).run
    | none =>
      by_cases hb : h.backed h.pc 4
      · by_cases ht : h.isText h.pc 4
        · rw [step_fetched (s := ⟨x, h⟩) hf hc hb ht, step_fetched (s := ⟨x, h.withMemory m t⟩) hf hc hb ht, ha.fetched]
          split
          · exact ha.exec _
          · exact (ha.undecoded (clenBytes_pos x) _).run
        · rw [step_fetch_outsideText hf hc hb ht]
          exact sameOutcome_refused _ _
      · rw [step_fetch_unbacked hf hc hb]
        exact sameOutcome_refused _ _

end Sys2Proof.Machine

namespace Sys2Proof

open Machine

/-- Settles O55: every read that reaches registers, `pcc` or CSRs is a load that `ddc` authorises, or of the instruction's
own word. -/
theorem integerModeReadsConfined : Obligations.IntegerModeReadsConfined := by
  intro x h g hm hs hword hloads sameEffect
  obtain ⟨m, t, rfl⟩ := Hart.SameButMemory.exists_eq hs
  have ha : h.AgreesOnLoads m t := ⟨hm, hword, hloads⟩
  exact ⟨fun i => ha.exec i, ha.step⟩

end Sys2Proof
end

section
/-!
PROOFS. What becomes of a word of `CapModeStep`, stop by stop (R67, R92; log 49).
-/

namespace Sys2Proof.Machine

section

variable {w : Nat} {h : Hart w}

/-! ## The instruction word -/

/-- Byte `k` of the instruction word is the byte at `pc + k` (R49). -/
theorem byteAt_eq_fetchedWord {k : Nat} (hk : k < 4) :
    h.byteAt (h.pc + BitVec.ofNat w k) = h.fetchedWord.extractLsb' (8 * k) 8 := by
  apply BitVec.eq_of_toNat_eq
  rw [← memRead_byte h hk, BitVec.extractLsb'_toNat, Hart.fetchedWord, BitVec.toNat_ofNat, Nat.mod_eq_of_lt (h.memRead_lt _ 4),
    Nat.shiftRight_eq_div_pow]

/-- Four bytes from an address on. -/
theorem bytesFrom_four (a : BitVec w) :
    h.bytesFrom a 4 = [h.byteAt a, h.byteAt (a + 1), h.byteAt (a + 2), h.byteAt (a + 3)] := by
  have htwo : a + 1 + 1 = a + 2 := add_one_add a 1
  have hthree : a + 1 + 1 + 1 = a + 3 := (add_one_add (a + 1) 1).trans (add_one_add a 2)
  simp only [Hart.bytesFrom]
  rw [hthree, htwo]

/-- The instruction word is the four bytes at `pc`, the first the least significant (R49). -/
theorem bytesFrom_pc : h.bytesFrom h.pc 4 = bytesOfWord h.fetchedWord := by
  have hzero : h.byteAt h.pc = h.fetchedWord.extractLsb' 0 8 := by
    rw [← byteAt_eq_fetchedWord (h := h) (k := 0) (by decide), show h.pc + BitVec.ofNat w 0 = h.pc from BitVec.add_zero _]
  have hone : h.byteAt (h.pc + 1) = h.fetchedWord.extractLsb' 8 8 := byteAt_eq_fetchedWord (by decide : 1 < 4)
  have htwo : h.byteAt (h.pc + 2) = h.fetchedWord.extractLsb' 16 8 := byteAt_eq_fetchedWord (by decide : 2 < 4)
  have hthree : h.byteAt (h.pc + 3) = h.fetchedWord.extractLsb' 24 8 := byteAt_eq_fetchedWord (by decide : 3 < 4)
  rw [bytesFrom_four, hzero, hone, htwo, hthree, bytesOfWord]

/-! ## CHERI access -/

/-- An instruction that takes *c* registers is illegal with CHERI access disabled (R67, R124). -/
theorem needCheriIf_fail {b : Bool} {r : Res w} (hb : b = true ∧ h.cheriEnabled = false) :
    h.needCheriIf b r = h.raise (.illegal h.fetchedWord) := by
  rw [Hart.needCheriIf, if_pos hb.1, Hart.needCheri_fail hb.2]

/-- Any other goes on. -/
theorem needCheriIf_pass {b : Bool} {r : Res w} (hb : ¬(b = true ∧ h.cheriEnabled = false)) : h.needCheriIf b r = r := by
  unfold Hart.needCheriIf
  split
  · exact Hart.needCheri_pass (Bool.eq_true_of_not_eq_false fun he => hb ⟨‹_›, he⟩)
  · rfl

/-! ## The answers of `CapModeStep` -/

/-- A base CHERI extension with no instruction of its own refuses every word (R67). -/
theorem delegated_given (hs : h.cfg.base.capModeStep = .given) :
    h.delegated = .refused (.undecodable h.fetchedWord.toNat) := by
  rw [Hart.delegated, hs]

section

variable (hs : h.cfg.base.capModeStep = .free)

include hs

theorem delegated_unknown (ha : Config.freeCapModeStep h.cfg h.fetchedWord h.baseView = .unknown) :
    h.delegated = .refused (.undecodable h.fetchedWord.toNat) := by
  simp only [Hart.delegated, hs, ha]

theorem delegated_illegal (ha : Config.freeCapModeStep h.cfg h.fetchedWord h.baseView = .illegal) :
    h.delegated = h.raise (.illegal h.fetchedWord) := by
  simp only [Hart.delegated, hs, ha, Hart.illegal]

theorem delegated_raises {v : Violation} {k : CheckKind}
    (ha : Config.freeCapModeStep h.cfg h.fetchedWord h.baseView = .raises v k) :
    h.delegated = h.needCheriIf (Config.freeTakesCap h.fetchedWord) (h.raise (.cheri v k)) := by
  simp only [Hart.delegated, hs, ha]

theorem delegated_loads {as : List (BaseAccess w)}
    (ha : Config.freeCapModeStep h.cfg h.fetchedWord h.baseView = .loads as) :
    h.delegated = h.needCheriIf (Config.freeTakesCap h.fetchedWord) (h.needBaseLoads
      (h.baseEffect (Config.freeTakesCap h.fetchedWord)
        (Config.freeCapModeEffect h.cfg h.fetchedWord h.baseView (as.map h.baseLoaded))) as) := by
  simp only [Hart.delegated, hs, ha]

end

/-! ## Its transfer of control -/

/-- After allowed stores a target outside `pcc` raises the CHERI exception (R100). -/
theorem baseEffect_target_unauthorised {b : Bool} {e : BaseEffect w} {t : BitVec w} {v : Violation}
    (hs : ∀ p ∈ e.stores, h.baseStoreAllowed p.1) (ht : e.target = some t)
    (hc : authCheck h.cfg h.pcc .jump t h.cfg.minInsn.bytes = some v) : h.baseEffect b e = h.raise (.cheri v .jump) := by
  rw [Hart.baseEffect, Hart.needBaseStores_pass hs, ht]
  exact Hart.check_fail hc

/-- After allowed stores a misaligned target raises the misaligned exception (R111). -/
theorem baseEffect_target_misaligned {b : Bool} {e : BaseEffect w} {t : BitVec w}
    (hs : ∀ p ∈ e.stores, h.baseStoreAllowed p.1) (ht : e.target = some t)
    (hc : authCheck h.cfg h.pcc .jump t h.cfg.minInsn.bytes = none) (hn : t.toNat % h.cfg.minInsn.bytes ≠ 0) :
    h.baseEffect b e = h.raise (.insnMisaligned t.toNat) := by
  rw [Hart.baseEffect, Hart.needBaseStores_pass hs, ht]
  exact (Hart.check_pass hc).trans (if_neg hn)

/-! ## What it sees and writes -/

/-- The registers that `CapModeStep` sees are the *c* registers, register 0 as null (R12). -/
theorem baseView_regs (i : Reg) : h.baseView.regs[i.toNat]'i.isLt = h.creg i := by
  by_cases hi : i = 0
  · subst hi
    exact Vector.getElem_set_self _
  · have hne : 0 ≠ i.toNat := fun he => hi (BitVec.eq_of_toNat_eq he.symm)
    rw [Hart.creg, if_neg hi]
    exact Vector.getElem_set_ne (by decide) i.isLt hne

/-- Stores one after another, each as it would be made first: none changes what authorises the next. -/
theorem foldl_eq_makeStores {f : Hart w → BaseAccess w × Datum → Hart w}
    (hf : ∀ g p, h.SameButMemory g → f g p = g.makeStore p.1 p.2) {g : Hart w} (hs : h.SameButMemory g)
    (ps : List (BaseAccess w × Datum)) : ps.foldl f g = g.makeStores ps := by
  induction ps generalizing g with
  | nil => rfl
  | cons p ps ih =>
    have hone : g.SameButMemory (g.makeStore p.1 p.2) := Hart.makeStores_eq [p]
    rw [List.foldl_cons, hf g p hs, ih (hs.trans hone), Hart.makeStores]

/-- Register writes one after another. -/
theorem foldl_eq_makeRegs (b : Bool) (ps : List (Reg × Cap w)) :
    ps.foldl (fun g p => if b = true then g.setC p.1 p.2 else g.setX p.1 p.2.addr) h = h.makeRegs b ps := by
  induction ps generalizing h with
  | nil => rfl
  | cons p ps ih =>
    rw [List.foldl_cons, ih, Hart.makeRegs]
    cases b <;> rfl

end

/-! ## The step -/

variable {x : Xlen} {h : Hart x.bits}

/-- What was fetched is what was decoded. -/
theorem fetched_eq_decode :
    State.fetched ⟨x, h⟩ = (decode x h.cfg.enc h.mode (h.bytesFrom h.pc 4)).map Prod.fst := by
  unfold State.fetched
  cases decode x h.cfg.enc h.mode (h.bytesFrom h.pc 4) <;> rfl

/-- Bytes that are no instruction of the opcode table, once fetched (R67). -/
theorem step_undecoded {d : DecodeError} (hf : h.final = false ∧ authCheck h.cfg h.pcc .fetch h.pc 4 = none)
    (hb : h.backed h.pc 4) (ht : h.isText h.pc 4)
    (hd : decode x h.cfg.enc h.mode (h.bytesFrom h.pc 4) = .error d) :
    step ⟨x, h⟩ = State.run ⟨x, h⟩ (h.undecoded d) := by
  rw [step_fetched (s := ⟨x, h⟩) hf.1 hf.2 hb ht, fetched_eq_decode, hd]
  rfl

end Sys2Proof.Machine

namespace Sys2Proof

open Machine

/-- Settles O11: the fetch stops a step first, then each check of a word of `CapModeStep` in its turn. -/
theorem stepStops : Obligations.StepStops := by
  intro x h insn fetches decoded
  have hfinal : h.final = true ↔ h.cfg.endPc = some h.pc := beq_iff_eq
  refine ⟨hfinal, fetched_eq_decode, fun he => step_final (hfinal.mpr he), fun hf v => step_fetch_unauthorised hf,
    fun hf => step_fetch_unbacked hf.1 hf.2, fun hf => step_fetch_outsideText hf.1 hf.2, ?_, ?_, ⟨bytesFrom_four _, bytesFrom_pc⟩,
    ⟨rfl, baseView_regs⟩, ?_, fun takesCap e => ?_⟩
  · intro hf hb ht d hd hgiven
    rw [step_undecoded hf hb ht hd]
    cases d with
    | noSuchWord => exact congrArg (State.run ⟨x, h⟩) (delegated_given (hgiven rfl))
    | notThirtyTwoBit | tooShort => rfl
  · intro hf hb ht hd hfree takesCap disabled
    have hstep : step ⟨x, h⟩ = State.run ⟨x, h⟩ h.delegated := step_undecoded hf hb ht hd
    rw [hstep]
    cases ha : Config.freeCapModeStep h.cfg h.fetchedWord h.baseView with
    | unknown => exact congrArg (State.run ⟨x, h⟩) (delegated_unknown hfree ha)
    | illegal => exact congrArg (State.run ⟨x, h⟩) (delegated_illegal hfree ha)
    | raises v k =>
      rw [delegated_raises hfree ha]
      exact ⟨fun hdis => congrArg (State.run ⟨x, h⟩) (needCheriIf_fail hdis),
        fun hdis => congrArg (State.run ⟨x, h⟩) (needCheriIf_pass hdis)⟩
    | loads as =>
      have hrun : ¬disabled → h.delegated = h.needBaseLoads (h.baseEffect takesCap
          (Config.freeCapModeEffect h.cfg insn h.baseView (as.map h.baseLoaded))) as := fun hdis =>
        (delegated_loads hfree ha).trans (needCheriIf_pass hdis)
      refine ⟨fun hdis => ?_, fun hdis => ?_, fun hdis => ?_, fun hdis hloads => ?_⟩
      · rw [delegated_loads hfree ha, needCheriIf_fail hdis]
        rfl
      · rintro before a after v rfl hbefore hc
        rw [hrun hdis, Hart.needBaseLoads_append hbefore]
        exact congrArg (State.run ⟨x, h⟩) (needBaseLoad_unauthorised hc)
      · rintro before a after rfl hbefore hc
        rw [hrun hdis, Hart.needBaseLoads_append hbefore]
        exact needBaseLoad_stops hc
      · rw [hrun hdis, Hart.needBaseLoads_pass hloads]
        refine ⟨fun before p after v he hbefore hc => ?_, fun before p after he hbefore hc => ?_, fun hstores =>
          ⟨fun t v ht hc => ?_, fun t ht hc hn => ?_, fun ht => ?_⟩⟩
        · rw [Hart.baseEffect, he, Hart.needBaseStores_append hbefore]
          exact congrArg (State.run ⟨x, h⟩) (needBaseStore_unauthorised hc)
        · rw [Hart.baseEffect, he, Hart.needBaseStores_append hbefore]
          exact ⟨needBaseStore_stops hc,
            fun hal hb ht => congrArg (State.run ⟨x, h⟩) (needBaseStore_text hc hal hb ht)⟩
        · exact congrArg (State.run ⟨x, h⟩) (baseEffect_target_unauthorised hstores ht hc)
        · exact congrArg (State.run ⟨x, h⟩) (baseEffect_target_misaligned hstores ht hc hn)
        · exact congrArg (State.run ⟨x, h⟩) (Hart.baseEffect_pass hstores ht)
  · rintro ⟨base, ea, size⟩
    cases size <;> rfl
  · simp only [foldl_eq_makeRegs, Hart.baseWritten]
    congr 1
    refine (foldl_eq_makeStores (h := h) (g := h) (fun g p hs => ?_) rfl e.stores).symm
    obtain ⟨m, t, rfl⟩ := hs.exists_eq
    obtain ⟨⟨base, ea, size⟩, d⟩ := p
    cases size <;> rfl

end Sys2Proof
end

section
/-!
PROOFS. Decoding and encoding (R60 to R66). Every row of the decoder is one instruction's pattern with the reading of its
operands (`rows_eq`), so that decoding is a search for the one pattern that a word hits (`decodeWord_eq`).
-/

namespace Sys2Proof

open Machine (fixedEncoding)
open Laws.OperandFields (bitsOf reread)

variable {x : Xlen} {e : Encodings} {m : Mode} {w : BitVec 32}

/-! ## Words and bytes -/

/-- A word is its four bytes, put together again (R49). -/
theorem wordOfBytes_bytes (w : BitVec 32) :
    wordOfBytes (w.extractLsb' 0 8) (w.extractLsb' 8 8) (w.extractLsb' 16 8) (w.extractLsb' 24 8) = w := by
  have hbyte3 : w.extractLsb' 24 8 ++ w.extractLsb' 16 8 = w.extractLsb' 16 16 :=
    BitVec.extractLsb'_append_extractLsb'_eq_extractLsb' rfl
  have hbyte2 : w.extractLsb' 16 16 ++ w.extractLsb' 8 8 = w.extractLsb' 8 24 :=
    BitVec.extractLsb'_append_extractLsb'_eq_extractLsb' rfl
  have hbyte1 : w.extractLsb' 8 24 ++ w.extractLsb' 0 8 = w := BitVec.extractLsb'_append_extractLsb'
  rw [wordOfBytes, hbyte3, hbyte2, hbyte1]

/-- The bytes of a word decode as the word does, and leave the bytes after them. -/
theorem decode_bytesOfWord {i : Instr} (rest : List Byte) (h : decodeWord x e m w = .ok i) :
    decode x e m (bytesOfWord w ++ rest) = .ok (i, rest) := by
  simp only [bytesOfWord, List.cons_append, List.nil_append, decode, wordOfBytes_bytes, h]

/-! ## The operand bits of a word -/

/-- A field put back in its place is the word under that place's mask (R61). -/
theorem place_extractLsb' (w : BitVec 32) (s n : Nat) :
    place s (w.extractLsb' s n) = w &&& place s (BitVec.allOnes n) := by
  apply BitVec.eq_of_getLsbD_eq
  intro k hk
  rw [BitVec.getLsbD_and, getLsbD_place _ _ _ hk, getLsbD_place _ _ _ hk, BitVec.getLsbD_extractLsb', BitVec.getLsbD_allOnes]
  by_cases hs : s ≤ k
  · rw [Nat.add_sub_cancel' hs]
    simp [hs, Bool.and_comm]
  · simp [hs]

/-- A piece above the lower part of two bit vectors put together is a piece of the upper one. -/
theorem extract_append_upper {v l n : Nat} {a : BitVec v} {b : BitVec l} (s : Nat) :
    (a ++ b).extractLsb' (l + s) n = a.extractLsb' s n := by
  rw [BitVec.extractLsb'_append_eq_of_le (Nat.le_add_right l s), Nat.add_sub_cancel_left]

/-- The part put in above the lowest `l` bits reads back whole. -/
theorem extract_append_middle {u v l : Nat} {a : BitVec u} {b : BitVec v} {c : BitVec l} :
    (a ++ b ++ c).extractLsb' l v = b :=
  (extract_append_upper 0).trans BitVec.extractLsb'_append_eq_right

/-- The pieces of the S immediate are the fields it was read from (R62). -/
theorem immS_pieces (w : BitVec 32) :
    (immS w).extractLsb' 0 5 = w.extractLsb' 7 5 ∧ (immS w).extractLsb' 5 7 = w.extractLsb' 25 7 :=
  ⟨BitVec.extractLsb'_append_eq_right, BitVec.extractLsb'_append_eq_left⟩

/-- The pieces of the B offset are the fields it was read from (R62). -/
theorem immB_pieces (w : BitVec 32) :
    (immB w).extractLsb' 1 4 = w.extractLsb' 8 4 ∧ (immB w).extractLsb' 5 6 = w.extractLsb' 25 6 ∧
      (immB w).extractLsb' 11 1 = w.extractLsb' 7 1 ∧ (immB w).extractLsb' 12 1 = w.extractLsb' 31 1 :=
  ⟨extract_append_middle, (extract_append_upper 4).trans extract_append_middle,
    (extract_append_upper 10).trans ((extract_append_upper 6).trans extract_append_middle),
    (extract_append_upper 11).trans ((extract_append_upper 7).trans
      ((extract_append_upper 1).trans BitVec.extractLsb'_append_eq_left))⟩

/-- The pieces of the J offset are the fields it was read from (R62). -/
theorem immJ_pieces (w : BitVec 32) :
    (immJ w).extractLsb' 1 10 = w.extractLsb' 21 10 ∧ (immJ w).extractLsb' 11 1 = w.extractLsb' 20 1 ∧
      (immJ w).extractLsb' 12 8 = w.extractLsb' 12 8 ∧ (immJ w).extractLsb' 20 1 = w.extractLsb' 31 1 :=
  ⟨extract_append_middle, (extract_append_upper 10).trans extract_append_middle,
    (extract_append_upper 11).trans ((extract_append_upper 1).trans extract_append_middle),
    (extract_append_upper 19).trans ((extract_append_upper 9).trans
      ((extract_append_upper 8).trans BitVec.extractLsb'_append_eq_left))⟩

/-- A B offset is even (R62). -/
theorem immB_even (w : BitVec 32) : (immB w).getLsbD 0 = false := by
  rw [immB, BitVec.getLsbD_append]
  rfl

/-- A J offset is even (R62). -/
theorem immJ_even (w : BitVec 32) : (immJ w).getLsbD 0 = false := by
  rw [immJ, BitVec.getLsbD_append]
  rfl

/-- I operands read from a word, put back in their places. -/
theorem placeI_fields (w : BitVec 32) :
    place 7 (fieldRd w) ||| place 15 (fieldRs1 w) ||| place 20 (immI w) = w &&& operandsI := by
  simp only [fieldRd, fieldRs1, immI, place_extractLsb', ← BitVec.and_or_distrib_left]
  rfl

/-- S operands read from a word, put back in their places. -/
theorem placeS_fields (w : BitVec 32) :
    place 7 ((immS w).extractLsb' 0 5) ||| place 15 (fieldRs1 w) ||| place 20 (fieldRs2 w) |||
      place 25 ((immS w).extractLsb' 5 7) = w &&& operandsS := by
  obtain ⟨h0, h5⟩ := immS_pieces w
  simp only [h0, h5, fieldRs1, fieldRs2, place_extractLsb', ← BitVec.and_or_distrib_left]
  rfl

/-- B operands read from a word, put back in their places. -/
theorem placeB_fields (w : BitVec 32) :
    place 7 ((immB w).extractLsb' 11 1) ||| place 8 ((immB w).extractLsb' 1 4) ||| place 15 (fieldRs1 w) |||
      place 20 (fieldRs2 w) ||| place 25 ((immB w).extractLsb' 5 6) ||| place 31 ((immB w).extractLsb' 12 1) =
      w &&& operandsS := by
  obtain ⟨h1, h5, h11, h12⟩ := immB_pieces w
  simp only [h1, h5, h11, h12, fieldRs1, fieldRs2, place_extractLsb', ← BitVec.and_or_distrib_left]
  rfl

/-- The operands read from a word, put back in their places, are the word under the mask of those places (R61, R62). -/
theorem operandBits_reread (w : BitVec 32) (i : Instr) : operandBits (reread w i) = w &&& bitsOf i := by
  cases i
  case lb | lh | lw | ld | lbu | lhu | lwu | jalr | lc => exact placeI_fields w
  case csrrw | csrrs | csrrc | csrrwi | csrrsi | csrrci => exact placeI_fields w
  case sb | sh | sw | sd | sc => exact placeS_fields w
  case beq | bne | blt | bge | bltu | bgeu => exact placeB_fields w
  case jal =>
    obtain ⟨h1, h11, h12, h20⟩ := immJ_pieces w
    simp only [reread, operandBits, h1, h11, h12, h20, fieldRd, place_extractLsb', ← BitVec.and_or_distrib_left]
    rfl
  case auipc | scmode | gcmode | gctag =>
    simp only [reread, operandBits, fieldRd, fieldRs1, fieldRs2, immU, place_extractLsb', ← BitVec.and_or_distrib_left]
    rfl
  case modeswCap | modeswInt => exact BitVec.and_zero.symm

/-! ## Reading operands -/

/-- Reading operands changes no pattern. -/
@[simp] theorem patternOf_reread (w : BitVec 32) (i : Instr) : patternOf e (reread w i) = patternOf e i := by
  cases i <;> rfl

/-- The operands read last count. -/
@[simp] theorem reread_reread (v w : BitVec 32) (i : Instr) : reread w (reread v i) = reread w i := by
  cases i <;> rfl

/-- Reading operands leaves a fixed encoding one. -/
@[simp] theorem fixedEncoding_reread (w : BitVec 32) (i : Instr) : fixedEncoding (reread w i) = fixedEncoding i := by
  cases i <;> rfl

/-- What is read from a word is well formed where the instruction exists (R62, R64). -/
theorem wf_reread (w : BitVec 32) {i : Instr} (hi : i.wf x = true) : (reread w i).wf x = true := by
  cases i
  case ld | lwu | sd => exact hi
  case beq | bne | blt | bge | bltu | bgeu => exact congrArg not (immB_even w)
  case jal => exact congrArg not (immJ_even w)
  all_goals rfl

/-- The family OperandFields, said of every instruction. -/
theorem operandFields (i : Instr) : Laws.OperandFields.Statement i := by
  open Laws.OperandFields in
  cases i
  exacts [lb _ _ _, lh _ _ _, lw _ _ _, ld _ _ _, lbu _ _ _, lhu _ _ _, lwu _ _ _, sb _ _ _, sh _ _ _, sw _ _ _,
    sd _ _ _, beq _ _ _, bne _ _ _, blt _ _ _, bge _ _ _, bltu _ _ _, bgeu _ _ _, jal _ _, jalr _ _ _, auipc _ _,
    csrrw _ _ _, csrrs _ _ _, csrrc _ _ _, csrrwi _ _ _, csrrsi _ _ _, csrrci _ _ _, scmode _ _ _, gcmode _ _,
    modeswCap, modeswInt, gctag _ _, lc _ _ _, sc _ _ _]

/-- The mask of a fixed encoding and the places of its operands cover the word (R64). -/
theorem mask_or_bitsOf {i : Instr} (hi : fixedEncoding i = true) :
    (patternOf e i).mask ||| bitsOf i = BitVec.allOnes 32 := by
  have hfunct3 : 0x0000707F#32 ||| operandsI = BitVec.allOnes 32 := rfl
  have hopcode : 0x0000007F#32 ||| operandsUpper = BitVec.allOnes 32 := rfl
  cases i
  case scmode | gcmode | modeswCap | modeswInt | gctag | lc | sc => contradiction
  case jal | auipc => exact hopcode
  all_goals exact hfunct3

/-- A word that a fixed encoding hits is the encoding of the operands read from it. -/
theorem encodeWord_reread {i : Instr} (hi : fixedEncoding i = true) (hw : (patternOf e i).hits w = true) :
    encodeWord e (reread w i) = w := by
  have hmtch : w &&& (patternOf e i).mask = (patternOf e i).mtch := eq_of_beq hw
  rw [encodeWord, patternOf_reread, operandBits_reread, ← hmtch, ← BitVec.and_or_distrib_left, mask_or_bitsOf hi,
    BitVec.and_allOnes]

/-! ## The decoder's rows -/

/-- The decoder's row of an instruction: its pattern, and its operands read from the word. -/
def rowOf (e : Encodings) (i : Instr) : Row := ⟨patternOf e i, fun w => reread w i⟩

/-- The instructions of `rowsLoadStore`, operands zero. -/
def instrsLoadStore : List Instr :=
  [.lb 0 0 0, .lh 0 0 0, .lw 0 0 0, .lbu 0 0 0, .lhu 0 0 0, .sb 0 0 0, .sh 0 0 0, .sw 0 0 0]

/-- The instructions of `rowsRv64`, operands zero. -/
def instrsRv64 : Xlen → List Instr
  | .rv32 => []
  | .rv64 => [.ld 0 0 0, .lwu 0 0 0, .sd 0 0 0]

/-- The instructions of `rowsControl`, operands zero. -/
def instrsControl : List Instr :=
  [.beq 0 0 0, .bne 0 0 0, .blt 0 0 0, .bge 0 0 0, .bltu 0 0 0, .bgeu 0 0 0, .jal 0 0, .jalr 0 0 0, .auipc 0 0]

/-- The instructions of `rowsCsr`, operands zero. -/
def instrsCsr : List Instr :=
  [.csrrw 0 0 0, .csrrs 0 0 0, .csrrc 0 0 0, .csrrwi 0 0 0, .csrrsi 0 0 0, .csrrci 0 0 0]

/-- The instructions of R64 present at an XLEN, in the order of the decoder's rows. -/
def instrsFixed (x : Xlen) : List Instr := instrsLoadStore ++ instrsRv64 x ++ instrsControl ++ instrsCsr

/-- The mode switch that is valid in a mode (R66). -/
def validSwitch : Mode → Instr
  | .int => .modeswCap
  | .cap => .modeswInt

/-- The mode switch that is not valid in a mode (R66). -/
def otherSwitch : Mode → Instr
  | .int => .modeswInt
  | .cap => .modeswCap

/-- The instructions of open encodings but MODESW (R63), operands zero. -/
def instrsOpen : List Instr := [.scmode 0 0 0, .gcmode 0 0, .gctag 0 0, .lc 0 0 0, .sc 0 0 0]

/-- The instructions that the decoder tries, in its order. -/
def instrs (x : Xlen) (m : Mode) : List Instr := instrsFixed x ++ [validSwitch m, otherSwitch m] ++ instrsOpen

/-- The rows of R64 are those of its instructions. -/
theorem rowsFixed_eq :
    rowsLoadStore e ++ rowsRv64 e x ++ rowsControl e ++ rowsCsr e = (instrsFixed x).map (rowOf e) := by
  cases x <;> rfl

/-- The rows of the open encodings but MODESW are those of their instructions. -/
theorem rowsOpen_eq : rowsOpen e = instrsOpen.map (rowOf e) := rfl

/-- The decoder's rows are those of the instructions it tries. -/
theorem rows_eq : rows x e m = (instrs x m).map (rowOf e) := by
  have hswitch : rowsModesw e m = [validSwitch m, otherSwitch m].map (rowOf e) := by cases m <;> rfl
  rw [rows, rowsFixed_eq, hswitch, rowsOpen_eq, ← List.map_append, ← List.map_append, instrs]

/-- The first instruction that the decoder tries whose pattern a word hits. -/
def firstHit (x : Xlen) (e : Encodings) (m : Mode) (w : BitVec 32) : Option Instr :=
  (instrs x m).find? fun i => (patternOf e i).hits w

/-- The row the decoder finds is that of the first instruction hit. -/
theorem find?_rows : (rows x e m).find? (fun r => r.pat.hits w) = (firstHit x e m w).map (rowOf e) := by
  rw [rows_eq, List.find?_map]
  rfl

/-- The first instruction hit is one that the decoder tries, and is hit. -/
theorem firstHit_some {i : Instr} (h : firstHit x e m w = some i) : i ∈ instrs x m ∧ (patternOf e i).hits w = true :=
  ⟨List.mem_of_find?_eq_some h, List.find?_some (p := fun i => (patternOf e i).hits w) h⟩

/-- A word decodes to the operands it gives to the first instruction whose pattern it hits (R60, R63, R64). -/
theorem decodeWord_eq_ok {i : Instr} :
    decodeWord x e m w = .ok i ↔
      w.extractLsb' 0 2 = 3#2 ∧ ∃ j, firstHit x e m w = some j ∧ reread w j = i := by
  rw [decodeWord, find?_rows]
  split
  next hw => cases firstHit x e m w <;> simp [hw, rowOf]
  next hw => simp [hw]

/-- The instructions that the decoder tries exist at its XLEN. -/
theorem wf_of_mem_instrs : ∀ i ∈ instrs x m, i.wf x = true := by
  cases x <;> cases m <;> decide

/-- The decoder tries every instruction that exists at its XLEN. -/
theorem mem_instrs {i : Instr} (hi : i.wf x = true) : reread 0#32 i ∈ instrs x m := by
  have hfield : fieldRd 0#32 = 0 ∧ fieldRs1 0#32 = 0 ∧ fieldRs2 0#32 = 0 := ⟨rfl, rfl, rfl⟩
  have himm : immI 0#32 = 0 ∧ immS 0#32 = 0 ∧ immB 0#32 = 0 ∧ immU 0#32 = 0 ∧ immJ 0#32 = 0 :=
    ⟨rfl, rfl, rfl, rfl, rfl⟩
  cases i
  case ld | lwu | sd =>
    cases x
    · contradiction
    · simp [instrs, instrsFixed, instrsRv64, reread, hfield, himm]
  case modeswCap | modeswInt => cases m <;> simp [instrs, reread, validSwitch, otherSwitch]
  case scmode | gcmode | gctag | lc | sc => simp [instrs, instrsOpen, reread, hfield, himm]
  all_goals simp [instrs, instrsFixed, instrsLoadStore, instrsControl, instrsCsr, reread, hfield, himm]

/-! ## The fixed encodings -/

/-- The open encodings have no part in a fixed one (R64). -/
theorem patternOf_fixed {i : Instr} (e e' : Encodings) (hi : fixedEncoding i = true) : patternOf e i = patternOf e' i := by
  cases i
  case scmode | gcmode | modeswCap | modeswInt | gctag | lc | sc => contradiction
  all_goals rfl

/-- A word of R64's encodings decodes alike whatever the open encodings are and in both modes. -/
theorem decodeWord_of_fixed {e e' : Encodings} {m m' : Mode} {i : Instr} (h : decodeWord x e m w = .ok i)
    (hi : fixedEncoding i = true) : decodeWord x e' m' w = .ok i := by
  have hfixed : ∀ j ∈ instrsFixed x, fixedEncoding j = true := by cases x <;> decide
  have hrest : ∀ j ∈ [validSwitch m, otherSwitch m] ++ instrsOpen, fixedEncoding j = false := by cases m <;> decide
  obtain ⟨hw, j, hj, rfl⟩ := decodeWord_eq_ok.mp h
  rw [fixedEncoding_reread] at hi
  refine decodeWord_eq_ok.mpr ⟨hw, j, ?_, rfl⟩
  rw [firstHit, instrs, List.append_assoc, List.find?_append, Option.or_eq_some_iff] at hj ⊢
  obtain hj | ⟨-, hj⟩ := hj
  · left
    rw [← hj]
    exact List.find?_congr fun k hk => by rw [patternOf_fixed e e' (hfixed k hk)]
  · rw [hrest j (List.mem_of_find?_eq_some hj)] at hi
    contradiction

/-! ## What R63 gives -/

/-- The four tests of `Pattern.leaves`. -/
theorem leaves_iff {p : Pattern} {operands : BitVec 32} :
    p.leaves operands = true ↔ p.mtch &&& p.mask = p.mtch ∧ p.mask &&& operands = 0#32 ∧
      p.mtch.extractLsb' 0 2 = 3#2 ∧ p.mask.extractLsb' 0 2 = 3#2 := by
  simp only [Pattern.leaves, Bool.and_eq_true, beq_iff_eq, and_assoc]

/-- Every pattern leaves the operands of its instruction free (R63, R64). -/
theorem patternOf_leaves (hok : e.ok x = true) (i : Instr) : (patternOf e i).leaves (bitsOf i) = true := by
  simp only [Encodings.ok, Bool.and_eq_true] at hok
  obtain ⟨⟨⟨⟨⟨⟨⟨⟨⟨hscmode, hgcmode⟩, hgctag⟩, hcap⟩, hint⟩, hlc⟩, hsc⟩, -⟩, -⟩, -⟩ := hok
  cases i
  case scmode => exact hscmode
  case gcmode => exact hgcmode
  case gctag => exact hgctag
  case modeswCap => exact hcap
  case modeswInt => exact hint
  case lc => exact hlc
  case sc => exact hsc
  all_goals
    simp only [patternOf, bitsOf]
    decide

/-- No word hits two disjoint patterns. -/
theorem not_hits_of_disjoint {p q : Pattern} (hd : p.disjoint q = true) (hq : q.hits w = true) : p.hits w = false := by
  rw [← Bool.not_eq_true]
  intro hp
  have hpm : w &&& p.mask = p.mtch := eq_of_beq hp
  have hqm : w &&& q.mask = q.mtch := eq_of_beq hq
  have hzero : (p.mtch ^^^ q.mtch) &&& (p.mask &&& q.mask) = 0#32 := by
    rw [← hpm, ← hqm]
    apply BitVec.eq_of_getLsbD_eq
    intro k _
    simp only [BitVec.getLsbD_and, BitVec.getLsbD_xor, BitVec.getLsbD_zero]
    cases w.getLsbD k <;> cases p.mask.getLsbD k <;> cases q.mask.getLsbD k <;> rfl
  rw [Pattern.disjoint, hzero] at hd
  contradiction

/-- Disjointness is symmetric. -/
theorem disjoint_comm (p q : Pattern) : p.disjoint q = q.disjoint p := by
  rw [Pattern.disjoint, Pattern.disjoint, BitVec.xor_comm, BitVec.and_comm p.mask]

/-- `disjointAll` says it of each two patterns of a list. -/
theorem disjointAll_iff (ps : List Pattern) : disjointAll ps = true ↔ ps.Pairwise (·.disjoint · = true) := by
  induction ps with
  | nil => simp [disjointAll]
  | cons p ps ih => simp [disjointAll, ih]

/-- The constraints of R63, said of instructions: all patterns but the mode switches' are disjoint from each other, the mode
switches' are disjoint from those, and from each other where they do not coincide. -/
theorem disjoint_of_ok (hok : e.ok x = true) :
    ((instrsFixed x ++ instrsOpen).Pairwise fun i j => (patternOf e i).disjoint (patternOf e j) = true) ∧
      (∀ s ∈ [.modeswCap, .modeswInt], ∀ i ∈ instrsFixed x ++ instrsOpen,
        (patternOf e s).disjoint (patternOf e i) = true) ∧
      (e.modeswCap = e.modeswInt ∨ e.modeswCap.disjoint e.modeswInt = true) := by
  simp only [Encodings.ok, Bool.and_eq_true] at hok
  obtain ⟨⟨⟨-, hswitch⟩, hall⟩, hint⟩ := hok
  rw [rowsFixed_eq, rowsOpen_eq, disjointAll_iff, List.pairwise_middle (fun h => (disjoint_comm _ _).trans h),
    ← List.map_append, ← List.map_append, List.map_map, List.pairwise_cons, List.forall_mem_map, List.pairwise_map] at hall
  rw [rowsFixed_eq, rowsOpen_eq, ← List.map_append, List.map_map, List.all_map, List.all_eq_true] at hint
  obtain ⟨hcap, hrest⟩ := hall
  exact ⟨hrest, List.forall_mem_cons.mpr ⟨hcap, List.forall_mem_singleton.mpr hint⟩, by simpa using hswitch⟩

/-- Two instructions that the decoder tries one after the other: no word hits both, or the two are the mode switches and
coincide, which leaves the word to the one valid in the mode (log 21). -/
def Apart (e : Encodings) (m : Mode) (i j : Instr) : Prop :=
  (patternOf e i).disjoint (patternOf e j) = true ∨ e.modeswCap = e.modeswInt ∧ j = otherSwitch m

/-- Under R63's constraints the instructions that the decoder tries are apart. -/
theorem instrs_apart (hok : e.ok x = true) : (instrs x m).Pairwise (Apart e m) := by
  obtain ⟨hrest, hswitch, hboth⟩ := disjoint_of_ok hok
  obtain ⟨hfixed, hopen, hacross⟩ := List.pairwise_append.mp hrest
  have hmem : ∀ s ∈ [validSwitch m, otherSwitch m], s ∈ [.modeswCap, .modeswInt] := by cases m <;> decide
  have hpair : Apart e m (validSwitch m) (otherSwitch m) := by
    refine hboth.symm.imp (fun hd => ?_) fun hsame => ⟨hsame, rfl⟩
    cases m with
    | int => exact hd
    | cap => exact (disjoint_comm _ _).trans hd
  refine List.pairwise_append.mpr ⟨List.pairwise_append.mpr ⟨hfixed.imp .inl, List.pairwise_pair.mpr hpair, ?_⟩,
    hopen.imp .inl, fun i hi j hj => .inl ?_⟩
  · exact fun i hi s hs => .inl ((disjoint_comm _ _).trans (hswitch s (hmem s hs) i (List.mem_append_left _ hi)))
  · obtain hi | hs := List.mem_append.mp hi
    · exact hacross i hi j hj
    · exact hswitch i (hmem i hs) j (List.mem_append_right _ hj)

/-- Under R63's constraints a word that hits an instruction's pattern is that instruction's, unless it is the mode
switch that gives way to the other. -/
theorem firstHit_of_hits {i : Instr} (hok : e.ok x = true) (hi : i ∈ instrs x m) (hhits : (patternOf e i).hits w = true)
    (hne : ¬(e.modeswCap = e.modeswInt ∧ i = otherSwitch m)) : firstHit x e m w = some i := by
  obtain ⟨before, after, heq⟩ := List.append_of_mem hi
  have hapart := instrs_apart (m := m) hok
  rw [heq, List.pairwise_append] at hapart
  obtain ⟨-, -, hbefore⟩ := hapart
  refine List.find?_eq_some_iff_append.mpr ⟨hhits, before, after, heq, fun j hj => ?_⟩
  have hd := (hbefore j hj i List.mem_cons_self).resolve_right hne
  rw [not_hits_of_disjoint hd hhits, Bool.not_false]

/-! ## The word of an instruction -/

/-- An encoded well-formed instruction reads back, and its word hits its pattern and is a 32-bit one (R60, R61, R63). -/
theorem encodeWord_spec {i : Instr} (hok : e.ok x = true) (hi : i.wf x = true) :
    reread (encodeWord e i) i = i ∧ (patternOf e i).hits (encodeWord e i) = true ∧
      (encodeWord e i).extractLsb' 0 2 = 3#2 := by
  obtain ⟨hmtch, hfree, hlow, -⟩ := leaves_iff.mp (patternOf_leaves hok i)
  have hread : reread (encodeWord e i) i = i := by
    refine operandFields i x _ hi ?_
    rw [← hmtch, BitVec.and_assoc, hfree, BitVec.and_zero]
  refine ⟨hread, ?_, ?_⟩
  · have hoperands : operandBits i &&& (patternOf e i).mask = 0#32 := by
      rw [← hread, operandBits_reread, hread, BitVec.and_assoc, BitVec.and_comm (bitsOf i), hfree, BitVec.and_zero]
    rw [Pattern.hits, encodeWord, BitVec.and_or_distrib_right, hmtch, hoperands, BitVec.or_zero, beq_self_eq_true]
  · rw [encodeWord, BitVec.extractLsb'_or, hlow]
    exact BitVec.allOnes_or

/-! ## The obligations -/

/-- Settles O14: the word of an instruction hits its pattern, first of all the decoder tries, and its operands read back. -/
theorem decodeOfEncode : Obligations.DecodeOfEncode := by
  intro x e m i rest hok hi hswitch
  obtain ⟨hread, hhits, hlow⟩ := encodeWord_spec hok hi
  have hne : ¬(e.modeswCap = e.modeswInt ∧ reread 0#32 i = otherSwitch m) := by
    rintro ⟨hsame, hother⟩
    have hi : i = otherSwitch m := by
      calc i = reread (encodeWord e i) (reread 0#32 i) := by rw [reread_reread, hread]
        _ = reread (encodeWord e i) (otherSwitch m) := by rw [hother]
        _ = otherSwitch m := by cases m <;> rfl
    obtain ⟨hcap, hint⟩ := hswitch hsame
    cases m with
    | int => exact absurd (hint hi) (by decide)
    | cap => exact absurd (hcap hi) (by decide)
  refine decode_bytesOfWord rest (decodeWord_eq_ok.mpr ⟨hlow, reread 0#32 i, ?_, ?_⟩)
  · exact firstHit_of_hits hok (mem_instrs hi) (by rwa [patternOf_reread]) hne
  · rw [reread_reread, hread]

/-- Settles O13: an even offset is read, and the decoder tries only what exists. -/
theorem decodedWellFormed : Obligations.DecodedWellFormed := by
  intro x e m w i h
  obtain ⟨-, j, hj, rfl⟩ := decodeWord_eq_ok.mp h
  exact wf_reread w (wf_of_mem_instrs j (firstHit_some hj).1)

/-- Settles O15: the pattern fixes the bits that are no operands. -/
theorem encodeOfDecode : Obligations.EncodeOfDecode := by
  intro x e m w i h hfixed
  obtain ⟨-, j, hj, rfl⟩ := decodeWord_eq_ok.mp h
  rw [fixedEncoding_reread] at hfixed
  exact encodeWord_reread hfixed (firstHit_some hj).2

/-- Settles O16: where the mode switches differ, a word hits one pattern at most, so that their order does not count. -/
theorem decodingModeBlind : Obligations.DecodingModeBlind := by
  intro x e w hok hne
  have hhit (m : Mode) (i : Instr) : firstHit x e m w = some i ↔ i ∈ instrs x m ∧ (patternOf e i).hits w = true :=
    ⟨firstHit_some, fun ⟨hi, hw⟩ => firstHit_of_hits hok hi hw fun ⟨hsame, _⟩ => hne hsame⟩
  have hmem (i : Instr) : i ∈ instrs x .int ↔ i ∈ instrs x .cap := by
    simp [instrs, validSwitch, otherSwitch, or_comm, or_left_comm]
  have hsame : firstHit x e .int w = firstHit x e .cap w := Option.ext fun i => by rw [hhit, hhit, hmem]
  rw [decodeWord, decodeWord, find?_rows, find?_rows, hsame]

/-- Settles O12: the words decode so under the launch encodings, and they are of R64's. -/
theorem decodeExampleWords : Obligations.DecodeExampleWords := by
  intro e m
  have hlaunch {w : BitVec 32} {i : Instr} (h : decodeWord .rv64 (.launch .rv64) .int w = .ok i)
      (hi : fixedEncoding i = true) : decodeWord .rv64 e m w = .ok i := decodeWord_of_fixed h hi
  exact ⟨hlaunch rfl rfl, hlaunch rfl rfl, hlaunch rfl rfl, hlaunch rfl rfl, hlaunch rfl rfl, hlaunch rfl rfl,
    hlaunch rfl rfl, hlaunch rfl rfl, hlaunch rfl rfl, hlaunch rfl rfl⟩

end Sys2Proof
end

section
/-!
PROOFS. The base loads and stores that happen (spec/40, R80 to R91), and what an instruction that writes one register, or a
store, leaves unchanged.
-/

namespace Sys2Proof.Machine

section

variable {w : Nat} {h h' : Hart w}

/-! ## The value of a load -/

/-- An unsigned load gives the number that the bytes read make (R84 to R86). -/
theorem extendLoaded_unsigned_memRead (h : Hart w) (ea : BitVec w) (n : Nat) :
    extendLoaded n false (h.memRead ea n) = BitVec.ofNat w (h.memRead ea n) := by
  apply BitVec.eq_of_toNat_eq
  simp [extendLoaded, Nat.mod_eq_of_lt (h.memRead_lt ea n)]

/-- A value of eight bytes fills a register at XLEN = 64 and is not extended (R87). -/
theorem extendLoaded_eight (v : Nat) : extendLoaded 8 true v = BitVec.ofNat 64 v :=
  BitVec.signExtend_eq _

/-! ## What a register write and a store leave unchanged -/

/-- Of the hart `h` only register `rd` has changed, and `pc`, by 4. -/
def Hart.WroteOnly (h : Hart w) (rd : Reg) (h' : Hart w) : Prop :=
  keepsRegsBut rd h h' ∧ keepsCsrs h h' ∧ keepsMemory h h' ∧ keepsPcc h h' ∧ h'.pc = h.pc + 4 ∧ keepsSetting h h'

/-- Of the hart `h` only the `n` bytes at `ea` and the tags of their granules have changed, and `pc`, by 4. -/
def Hart.StoredOnly (h : Hart w) (ea : BitVec w) (n : Nat) (h' : Hart w) : Prop :=
  keepsRegs h h' ∧ keepsCsrs h h' ∧ keepsMemoryBut ea n h h' ∧ keepsPcc h h' ∧ h'.pc = h.pc + 4 ∧ keepsSetting h h'

/-- A register write that moves `pc` on changes nothing else (R12, R80). -/
theorem wroteOnly_setC_advance (rd : Reg) (v : Cap w) : h.WroteOnly rd (h.setC rd v).advance := by
  refine ⟨fun i hi => ?_, ⟨?_, fun a => ?_, fun a => ?_⟩, fun a => ⟨?_, ?_⟩, ⟨?_, ?_⟩, ?_, ?_, ?_⟩
  · rw [Hart.advance_creg, Hart.creg_setC_ne _ _ hi]
  all_goals simp

/-- A change of memory alone that moves `pc` on changes nothing else. -/
theorem storedOnly_advance {g : Hart w} {ea : BitVec w} {n : Nat} (hs : h.SameButMemory g) (hm : keepsMemoryBut ea n h g) :
    h.StoredOnly ea n g.advance := by
  obtain ⟨m, t, rfl⟩ := hs.exists_eq
  exact ⟨fun _ => rfl, ⟨rfl, fun _ => rfl, fun _ => rfl⟩, hm, ⟨rfl, rfl⟩, rfl, rfl, rfl⟩

/-- What passes its checks to write a register and move `pc` on changes nothing else. -/
theorem entered_or_wroteOnly {rd : Reg} {v : Cap w} {passed : Prop}
    (hn : h.Entered h' ∨ passed ∧ h' = (h.setC rd v).advance) : h.Entered h' ∨ h.WroteOnly rd h' := by
  refine hn.imp_right ?_
  rintro ⟨-, rfl⟩
  exact wroteOnly_setC_advance rd v

/-- A base load writes its destination and nothing else (R80). -/
theorem load_wroteOnly {n : Nat} {sg : Bool} {rd rs1 : Reg} {imm : BitVec 12} (hr : Hart.load n sg rd rs1 imm h = .next h') :
    h.Entered h' ∨ h.WroteOnly rd h' := entered_or_wroteOnly (Hart.load_next hr)

/-- A base store changes the bytes at its effective address and nothing else (R80, R46). -/
theorem store_storedOnly {n : Nat} {rs2 rs1 : Reg} {imm : BitVec 12} (hr : Hart.store n rs2 rs1 imm h = .next h') :
    h.Entered h' ∨ h.StoredOnly (h.effAddr rs1 imm) n h' := by
  refine (Hart.store_next hr).imp_right ?_
  rintro ⟨-, rfl⟩
  exact storedOnly_advance (memWrite_eq h ..) (memWrite_outside h ..)

end

variable {x : Xlen} {h : Hart x.bits}

/-- SC changes the bytes of the granule at its effective address and nothing else (R141, R47). -/
theorem sc_storedOnly {h' : Hart x.bits} {cs2 rs1 : Reg} {imm : BitVec 12} (hr : Hart.sc cs2 rs1 imm h = .next h') :
    h.Entered h' ∨ h.StoredOnly (h.effAddr rs1 imm) (clenBytes x.bits) h' := by
  refine (Hart.sc_next hr).imp_right ?_
  rintro ⟨-, -, rfl⟩
  exact storedOnly_advance (memWriteCap_eq ..) (memWriteCap_outside h ..)

/-! ## Accesses that happen -/

/-- An allowed base load puts the extended bytes in its destination and moves `pc` on (R80). -/
theorem run_load_allowed {n : Nat} {sg : Bool} {rd rs1 : Reg} {imm : BitVec 12} (ha : h.loadAllowed n rs1 imm) :
    State.run ⟨x, h⟩ (Hart.load n sg rd rs1 imm h) =
      .next ⟨x, (h.setX rd (extendLoaded n sg (h.memRead (h.x rs1 + imm.signExtend x.bits) n))).setPc (h.pc + 4)⟩ := by
  rw [Hart.load_pass ha, Hart.advance, Hart.setX_nextPc]
  rfl

/-- An allowed unsigned load puts the number that the bytes make in its destination (R84 to R86). -/
theorem run_load_unsigned {n : Nat} {rd rs1 : Reg} {imm : BitVec 12} (ha : h.loadAllowed n rs1 imm) :
    State.run ⟨x, h⟩ (Hart.load n false rd rs1 imm h) =
      .next ⟨x, (h.setX rd (BitVec.ofNat x.bits (h.memRead (h.x rs1 + imm.signExtend x.bits) n))).setPc (h.pc + 4)⟩ := by
  rw [run_load_allowed ha, extendLoaded_unsigned_memRead]

/-- An allowed base store writes the low bytes of its source and moves `pc` on (R80). -/
theorem run_store_allowed {n : Nat} {rs2 rs1 : Reg} {imm : BitVec 12} (ha : h.storeAllowed n rs1 imm) :
    State.run ⟨x, h⟩ (Hart.store n rs2 rs1 imm h) =
      .next ⟨x, (h.memWrite (h.x rs1 + imm.signExtend x.bits) n ((h.x rs2).toNat % 2 ^ (8 * n))).setPc (h.pc + 4)⟩ := by
  rw [Hart.store_pass ha, Hart.advance, Hart.memWrite_nextPc, Hart.memWrite_mod]
  rfl

/-- What holds of every next state of a meaning on the hart holds of the state it runs to, XLEN unchanged. -/
theorem exists_hart_of_run {r : Res x.bits} {t : State} {P : Hart x.bits → Prop} (hr : State.run ⟨x, h⟩ r = .next t)
    (hP : ∀ h', r = .next h' → P h') : ∃ h', t = ⟨x, h'⟩ ∧ P h' := by
  obtain ⟨h', hnext, rfl⟩ := State.run_eq_next.mp hr
  exact ⟨h', rfl, hP h' hnext⟩

end Sys2Proof.Machine

namespace Sys2Proof

open Machine

/-- Settles O17: every allowed load extends the bytes it reads, and where it is unsigned, or as wide as the register, the
extension is the number they make. -/
theorem loadsComplete : Obligations.LoadsComplete := by
  intro x h rd rs1 imm ea after
  refine ⟨fun ha => ⟨?_, ?_⟩, fun ha => ⟨?_, ?_⟩, fun ha => ⟨?_, ?_⟩, ?_, rfl⟩
  · exact run_load_allowed ha
  · exact run_load_unsigned ha
  · exact run_load_allowed ha
  · exact run_load_unsigned ha
  · exact run_load_allowed ha
  · rintro rfl
    exact run_load_unsigned ha
  · rintro rfl ha
    exact (run_load_allowed ha).trans (congrArg after (extendLoaded_eight _))

/-- Settles O18: each base store is the store of its width, and `MemWrite` reads the low bytes of its value alone. -/
theorem storesComplete : Obligations.StoresComplete := by
  intro x h rs2 rs1 imm p hp ha
  cases x with
  | rv32 => fin_cases hp <;> exact run_store_allowed ha
  | rv64 => fin_cases hp <;> exact run_store_allowed ha

/-- Settles O56: each of these instructions enters a trap handler or writes its destination. -/
theorem frameRegisterWriters : Obligations.FrameRegisterWriters := by
  intro x h rd rs1 rs2 imm upper i t hi hs
  simp only [List.mem_cons, List.not_mem_nil, or_false] at hi
  rcases hi with rfl | rfl | rfl | rfl | rfl | rfl | rfl | rfl | rfl | rfl | rfl | rfl
  · exact exists_hart_of_run hs fun _ => load_wroteOnly
  · exact exists_hart_of_run hs fun _ => load_wroteOnly
  · exact exists_hart_of_run hs fun _ => load_wroteOnly
  · exact exists_hart_of_run (State.run64_eq_next hs) fun _ => load_wroteOnly
  · exact exists_hart_of_run hs fun _ => load_wroteOnly
  · exact exists_hart_of_run hs fun _ => load_wroteOnly
  · exact exists_hart_of_run (State.run64_eq_next hs) fun _ => load_wroteOnly
  · exact exists_hart_of_run hs fun _ hr => entered_or_wroteOnly (Hart.lc_next hr)
  · cases hs
    exact ⟨_, rfl, .inr (wroteOnly_setC_advance rd _)⟩
  · exact exists_hart_of_run hs fun _ hr => entered_or_wroteOnly (Hart.scmode_next hr)
  · exact exists_hart_of_run hs fun _ hr => entered_or_wroteOnly (Hart.gcmode_next hr)
  · exact exists_hart_of_run hs fun _ hr => entered_or_wroteOnly (Hart.gctag_next hr)

/-- Settles O57: each of these instructions enters a trap handler or stores at its effective address. -/
theorem frameStores : Obligations.FrameStores := by
  intro x h rs2 rs1 imm p t hp hs
  simp only [List.mem_cons, List.not_mem_nil, or_false] at hp
  rcases hp with rfl | rfl | rfl | rfl | rfl
  · exact exists_hart_of_run hs fun _ => store_storedOnly
  · exact exists_hart_of_run hs fun _ => store_storedOnly
  · exact exists_hart_of_run hs fun _ => store_storedOnly
  · exact exists_hart_of_run (State.run64_eq_next hs) fun _ => store_storedOnly
  · exact exists_hart_of_run hs fun _ => sc_storedOnly

end Sys2Proof
end

section
/-!
PROOFS. Branches, jumps and AUIPC (spec/41, R100 to R112): where each of them goes, what stops a transfer of control, and
what a transfer and a mode switch leave unchanged.
-/

namespace Sys2Proof.Machine

section

variable {w : Nat} {h h' : Hart w}

/-! ## What stops a transfer -/

/-- A target outside `pcc` raises the CHERI exception (R100). -/
theorem checkTarget_unauthorised {t : BitVec w} {r : Res w} {v : Violation}
    (hc : authCheck h.cfg h.pcc .jump t h.cfg.minInsn.bytes = some v) : h.checkTarget t r = h.raise (.cheri v .jump) :=
  Hart.check_fail hc

/-- A misaligned target inside `pcc` raises the misaligned exception (R111). -/
theorem checkTarget_misaligned {t : BitVec w} {r : Res w} (hc : authCheck h.cfg h.pcc .jump t h.cfg.minInsn.bytes = none)
    (hn : t.toNat % h.cfg.minInsn.bytes ≠ 0) : h.checkTarget t r = h.raise (.insnMisaligned t.toNat) :=
  (Hart.check_pass hc).trans (if_neg hn)

/-! ## Branches and jumps that pass -/

/-- A branch that is not taken moves `pc` on, whatever its target (R100, R101). -/
theorem branch_not_taken (off : BitVec 13) : Hart.branch false off h = .next (h.setPc (h.pc + 4)) := rfl

/-- A branch that is taken checks its target, then moves `pc` there (R101). -/
theorem branch_taken (off : BitVec 13) :
    Hart.branch true off h = h.checkTarget (h.branchTarget off) (.next (h.setPc (h.branchTarget off))) := rfl

/-- In Integer Mode JAL links an integer (R107). -/
theorem jalLink_int (hm : h.mode = .int) : h.jalLink = Cap.ofInt (h.pc + 4) := by
  rw [Hart.jalLink, hm]
  rfl

/-- In Capability Mode JAL links a capability (R107). -/
theorem jalLink_cap (hm : h.mode = .cap) : h.jalLink = h.linkCap (h.pc + 4) := by
  rw [Hart.jalLink, hm]
  rfl

/-- The default link is `pcc` with the return address (log 9). -/
theorem linkCap_given (ret : BitVec w) (hl : h.cfg.base.link = .given) : h.linkCap ret = { h.pcc with addr := ret } := by
  rw [Hart.linkCap, hl]
  rfl

/-- JAL to an allowed target writes its link and moves `pc` there (R107). -/
theorem jal_pass {rd : Reg} {off : BitVec 21} (ht : h.targetAllowed (h.jalTarget off)) :
    Hart.jal rd off h = .next ((h.setC rd h.jalLink).setPc (h.jalTarget off)) := Hart.checkTarget_pass ht

/-- In Integer Mode JALR checks its target, then links an integer and moves `pc` there (R110). -/
theorem jalr_int {rd rs1 : Reg} {imm : BitVec 12} (hm : h.mode = .int) :
    Hart.jalr rd rs1 imm h =
      h.checkTarget (h.jalrTarget rs1 imm) (.next ((h.setX rd (h.pc + 4)).setPc (h.jalrTarget rs1 imm))) := by
  rw [Hart.jalr, hm]
  rfl

/-! ## JALR in Capability Mode -/

/-- The check against the old `pcc` finds nothing where it is not made, or where the target is inside (log 47). -/
theorem jalrPccFailure_eq_none {t : BitVec w}
    (hc : h.cfg.base.jalrPcc = false ∨ authCheck h.cfg h.pcc .jump t h.cfg.minInsn.bytes = none) :
    h.jalrPccFailure t = none := by
  unfold Hart.jalrPccFailure
  split
  · exact hc.resolve_left (by simp [*])
  · rfl

/-- A valid target is accepted (R109). -/
theorem jalrFailure_of_authorised {c : Cap w} {imm : BitVec 12} {t : BitVec w}
    (hc : authCheck h.cfg { c with addr := t } .jump t h.cfg.minInsn.bytes = none) : h.jalrFailure c imm t = none := by
  rw [Hart.jalrFailure, Cap.withAddr, hc]

/-- The default verdict on the operand is that of `AuthCheck` (log 10). -/
theorem jalrFailure_given {c : Cap w} {imm : BitVec 12} {t : BitVec w} (hj : h.cfg.base.jalr = .given) :
    h.jalrFailure c imm t = authCheck h.cfg { c with addr := t } .jump t h.cfg.minInsn.bytes := by
  rw [Hart.jalrFailure, hj, Cap.withAddr]
  cases authCheck h.cfg { c with addr := t } .jump t h.cfg.minInsn.bytes <;> rfl

/-- The default link is that of JAL (log 10). -/
theorem jalrLink_given {c : Cap w} {imm : BitVec 12} (hj : h.cfg.base.jalr = .given) :
    h.jalrLink c imm = h.linkCap (h.pc + 4) := by
  rw [Hart.jalrLink, hj]
  rfl

section

variable {rd rs1 : Reg} {imm : BitVec 12} (hm : h.mode = .cap)

include hm

/-- A target outside the old `pcc` raises the CHERI exception, where that is checked (R100; log 47). -/
theorem jalr_cap_outside {v : Violation} (hp : h.jalrPccFailure (h.jalrTarget rs1 imm) = some v) :
    Hart.jalr rd rs1 imm h = h.raise (.cheri v .jump) := by
  simp only [Hart.jalr, hm, Hart.jalrCapMode, hp]

variable (hp : h.jalrPccFailure (h.jalrTarget rs1 imm) = none)

include hp

/-- An operand that is no valid target raises the CHERI exception (R109; log 48). -/
theorem jalr_cap_rejected {v : Violation} (hf : h.jalrFailure (h.creg rs1) imm (h.jalrTarget rs1 imm) = some v) :
    Hart.jalr rd rs1 imm h = h.raise (.cheri v .jump) := by
  simp only [Hart.jalr, hm, Hart.jalrCapMode, hp, Hart.jalrCap, hf]

/-- An accepted operand is installed if its target is aligned; else the misaligned exception is raised (R109, R111). -/
theorem jalr_cap_accepted (hf : h.jalrFailure (h.creg rs1) imm (h.jalrTarget rs1 imm) = none) :
    Hart.jalr rd rs1 imm h =
      if (h.jalrTarget rs1 imm).toNat % h.cfg.minInsn.bytes = 0 then
        .next ((h.setC rd (h.jalrLink (h.creg rs1) imm)).setPcc
          (h.jalrInstalled (h.creg rs1) imm (h.jalrTarget rs1 imm)))
      else h.raise (.insnMisaligned (h.jalrTarget rs1 imm).toNat) := by
  simp only [Hart.jalr, hm, Hart.jalrCapMode, hp, Hart.jalrCap, hf]

end

/-! ## AUIPC -/

/-- In Integer Mode AUIPC writes an integer (R108). -/
theorem auipcValue_int (imm : BitVec 20) (hm : h.mode = .int) :
    h.auipcValue imm = Cap.ofInt (h.pc + (imm ++ 0#12).signExtend w) := by
  rw [Hart.auipcValue, hm]
  rfl

/-- In Capability Mode AUIPC writes `pcc`, re-addressed (R108). -/
theorem auipcValue_cap (imm : BitVec 20) (hm : h.mode = .cap) :
    h.auipcValue imm = h.setAddrPcc (h.pc + (imm ++ 0#12).signExtend w) := by
  rw [Hart.auipcValue, hm]
  rfl

/-- `set_addr_scaddr` replaces the address (R156). -/
theorem setAddrScaddr_addr {cfg : Config w} (c : Cap w) (v : BitVec w) : (c.setAddrScaddr cfg v).addr = v := by
  unfold Cap.setAddrScaddr
  split <;> rfl

/-- `SetAddr` replaces the address (R108; log 11). -/
theorem setAddrPcc_addr (v : BitVec w) : (h.setAddrPcc v).addr = v := by
  unfold Hart.setAddrPcc
  split
  · exact setAddrScaddr_addr _ v
  · rfl

/-- The default `SetAddr` is `set_addr_scaddr` (R108, R156). -/
theorem setAddrPcc_given (v : BitVec w) (hs : h.cfg.base.setAddr = .given) :
    h.setAddrPcc v = h.pcc.setAddrScaddr h.cfg v := by
  rw [Hart.setAddrPcc, hs]

/-! ## What a transfer and a mode switch leave unchanged -/

/-- Of the hart `h` only `pc` and the M-bit of `pcc` have changed; where `keepsM` holds, `pc` alone. -/
def Hart.MovedOnly (h : Hart w) (keepsM : Prop) (h' : Hart w) : Prop :=
  keepsRegs h h' ∧ keepsCsrs h h' ∧ keepsMemory h h' ∧ keepsSetting h h' ∧ h'.pcc.tag = h.pcc.tag ∧
    (∀ k, k ≠ h.cfg.mPos.val → h'.pcc.metadata.getLsbD k = h.pcc.metadata.getLsbD k) ∧ (keepsM → keepsPcc h h')

/-- Of the hart `h` only register `rd` and `pcc` have changed; where `keepsMeta` holds, of `pcc` the address alone. -/
def Hart.JumpedOnly (h : Hart w) (rd : Reg) (keepsMeta : Prop) (h' : Hart w) : Prop :=
  keepsRegsBut rd h h' ∧ keepsCsrs h h' ∧ keepsMemory h h' ∧ keepsSetting h h' ∧ (keepsMeta → keepsPcc h h')

/-- A write of `pc` changes nothing else (R13). -/
theorem movedOnly_setPc (keepsM : Prop) (t : BitVec w) : h.MovedOnly keepsM (h.setPc t) :=
  ⟨fun _ => rfl, ⟨rfl, fun _ => rfl, fun _ => rfl⟩, fun _ => ⟨rfl, rfl⟩, ⟨rfl, rfl⟩, rfl, fun _ _ => rfl,
    fun _ => ⟨rfl, rfl⟩⟩

/-- A mode switch changes the M-bit of `pcc`, and moves `pc` on (R122, R123). -/
theorem movedOnly_switchM {keepsM : Prop} (m : Bool) (hk : ¬keepsM) : h.MovedOnly keepsM (h.switchM m) :=
  ⟨fun _ => rfl, ⟨rfl, fun _ => rfl, fun _ => rfl⟩, fun _ => ⟨rfl, rfl⟩, ⟨rfl, rfl⟩, rfl,
    fun k hne => (withM_getLsbD m k).trans (if_neg hne), fun hkeeps => (hk hkeeps).elim⟩

/-- A link and a write of `pcc` change nothing else (R109). -/
theorem jumpedOnly_setC_setPcc {rd : Reg} {keepsMeta : Prop} (link c : Cap w)
    (hk : keepsMeta → c.tag = h.pcc.tag ∧ c.metadata = h.pcc.metadata) :
    h.JumpedOnly rd keepsMeta ((h.setC rd link).setPcc c) := by
  refine ⟨fun i hi => ?_, ⟨?_, fun a => ?_, fun a => ?_⟩, fun a => ⟨?_, ?_⟩, ⟨?_, ?_⟩, hk⟩
  · rw [Hart.setPcc_creg, Hart.creg_setC_ne _ _ hi]
  all_goals simp

/-- A link and a write of `pc` change nothing else (R107, R110). -/
theorem jumpedOnly_setC_setPc (rd : Reg) (keepsMeta : Prop) (link : Cap w) (t : BitVec w) :
    h.JumpedOnly rd keepsMeta ((h.setC rd link).setPc t) :=
  jumpedOnly_setC_setPcc link _ fun _ => by simp [Cap.withAddr]

/-- A conditional branch moves `pc`, taken or not (R101). -/
theorem branch_movedOnly (keepsM : Prop) {taken : Bool} {off : BitVec 13} (hr : Hart.branch taken off h = .next h') :
    h.Entered h' ∨ h.MovedOnly keepsM h' := by
  rcases Hart.branch_next hr with he | ⟨-, -, rfl⟩ | ⟨-, rfl⟩
  · exact .inl he
  · exact .inr (movedOnly_setPc keepsM _)
  · exact .inr (movedOnly_setPc keepsM _)

/-- JAL writes its link and moves `pc` (R107). -/
theorem jal_jumpedOnly (keepsMeta : Prop) {rd : Reg} {off : BitVec 21} (hr : Hart.jal rd off h = .next h') :
    h.Entered h' ∨ h.JumpedOnly rd keepsMeta h' := by
  refine (Hart.jal_next hr).imp_right ?_
  rintro ⟨-, rfl⟩
  exact jumpedOnly_setC_setPc rd keepsMeta _ _

/-- JALR writes its link and moves `pc`, and in Capability Mode alone replaces the rest of `pcc` (R109, R110). -/
theorem jalr_jumpedOnly {keepsMeta : Prop} {rd rs1 : Reg} {imm : BitVec 12} (hk : keepsMeta → h.mode = .int)
    (hr : Hart.jalr rd rs1 imm h = .next h') : h.Entered h' ∨ h.JumpedOnly rd keepsMeta h' := by
  rcases Hart.jalr_next hr with he | ⟨-, -, rfl⟩ | ⟨hm, -, -, -, rfl⟩
  · exact .inl he
  · exact .inr (jumpedOnly_setC_setPc rd keepsMeta _ _)
  · refine .inr (jumpedOnly_setC_setPcc _ _ fun hkeeps => ?_)
    have hint := hk hkeeps
    rw [hm] at hint
    cases hint

end

variable {x : Xlen} {h : Hart x.bits}

/-- Each of the branches is `Hart.branch`, taken on the condition that stands beside it (R101 to R106, R112). -/
theorem exec_of_mem_branches {rs1 rs2 : Reg} {off : BitVec 13} {p : Instr × Prop} (hp : p ∈ branches h rs1 rs2 off) :
    ∃ taken : Bool, (taken = true ↔ p.2) ∧ exec p.1 ⟨x, h⟩ = State.run ⟨x, h⟩ (Hart.branch taken off h) := by
  simp only [branches, List.mem_cons, List.not_mem_nil, or_false] at hp
  rcases hp with rfl | rfl | rfl | rfl | rfl | rfl
  · exact ⟨_, beq_iff_eq, rfl⟩
  · exact ⟨_, bne_iff_ne, rfl⟩
  · exact ⟨_, decide_eq_true_iff, rfl⟩
  · exact ⟨_, by simp [ltSigned], rfl⟩
  · exact ⟨_, decide_eq_true_iff, rfl⟩
  · exact ⟨_, by simp [ltUnsigned], rfl⟩

/-- What `check_target` raises: a CHERI exception for a target outside `pcc`, then one for a misaligned target (R185). -/
theorem run_checkTarget_faults (t : BitVec x.bits) (r : Res x.bits) :
    (∀ v, authCheck h.cfg h.pcc .jump t h.cfg.minInsn.bytes = some v →
      State.run ⟨x, h⟩ (h.checkTarget t r) = raised x h (.cheri v .jump)) ∧
    (authCheck h.cfg h.pcc .jump t h.cfg.minInsn.bytes = none → t.toNat % h.cfg.minInsn.bytes ≠ 0 →
      State.run ⟨x, h⟩ (h.checkTarget t r) = raised x h (.insnMisaligned t.toNat)) :=
  ⟨fun _ hc => congrArg (State.run ⟨x, h⟩) (checkTarget_unauthorised hc),
    fun hc hn => congrArg (State.run ⟨x, h⟩) (checkTarget_misaligned hc hn)⟩

/-- AUIPC writes its value and moves `pc` on (R108). -/
theorem exec_auipc (rd : Reg) (imm : BitVec 20) :
    exec (.auipc rd imm) ⟨x, h⟩ = .next ⟨x, (h.setC rd (h.auipcValue imm)).setPc (h.pc + 4)⟩ := by
  rw [← Hart.setC_pc h rd (h.auipcValue imm)]
  rfl

end Sys2Proof.Machine

namespace Sys2Proof

open Machine

/-- Settles O24: a branch is taken on its condition, and checks its target only then. -/
theorem branchesComplete : Obligations.BranchesComplete := by
  intro x h rs1 rs2 off p hp
  obtain ⟨taken, htaken, hexec⟩ := exec_of_mem_branches hp
  rw [hexec, ← htaken]
  cases taken with
  | false => exact ⟨fun _ => congrArg (State.run ⟨x, h⟩) (branch_not_taken off), fun hc => nomatch hc⟩
  | true =>
    refine ⟨fun hc => absurd rfl hc, fun _ ha => ?_⟩
    rw [branch_taken]
    exact congrArg (State.run ⟨x, h⟩) (Hart.checkTarget_pass ha)

/-- Settles O25: every transfer is a `check_target` but the Capability Mode JALR, whose checks come one after another. -/
theorem transferFaults : Obligations.TransferFaults := by
  intro x h rd rs1 rs2 imm off off21 faults
  refine ⟨?_, fun p hp hcond => ?_, run_checkTarget_faults _ _, fun hm => ?_, fun hm => ?_⟩
  · cases h.cfg.minInsn <;> rfl
  · obtain ⟨taken, htaken, hexec⟩ := exec_of_mem_branches hp
    obtain rfl := htaken.mpr hcond
    simp only [faults, hexec, branch_taken]
    exact run_checkTarget_faults _ _
  · have hexec : exec (.jalr rd rs1 imm) ⟨x, h⟩ = State.run ⟨x, h⟩ _ := congrArg (State.run ⟨x, h⟩) (jalr_int hm)
    simp only [faults, hexec]
    exact run_checkTarget_faults _ _
  · refine ⟨fun hparam v hv => ?_, fun hp v hv => ?_, jalrFailure_given, fun hp hf hn => ?_⟩
    · exact congrArg (State.run ⟨x, h⟩) (jalr_cap_outside hm ((if_pos hparam).trans hv))
    · exact congrArg (State.run ⟨x, h⟩) (jalr_cap_rejected hm hp hv)
    · exact congrArg (State.run ⟨x, h⟩) ((jalr_cap_accepted hm hp hf).trans (if_neg hn))

/-- Settles O26: the link is the mode's, and only the address of `pcc` is written. -/
theorem jalCompletes : Obligations.JalCompletes := by
  intro x h rd off ha
  have hexec : exec (.jal rd off) ⟨x, h⟩ = .next ⟨x, (h.setC rd h.jalLink).setPc (h.pc + off.signExtend x.bits)⟩ :=
    congrArg (State.run ⟨x, h⟩) (jal_pass ha)
  refine ⟨fun hm => ?_, fun hm => ?_, Hart.linkCap_addr _, linkCap_given _⟩
  · rw [hexec, jalLink_int hm]
    rfl
  · rw [hexec, jalLink_cap hm]

/-- Settles O27: the target is read from the state before the link, and only the address of `pcc` is written. -/
theorem jalrIntegerCompletes : Obligations.JalrIntegerCompletes := by
  intro x h rd rs1 imm hm ha
  exact congrArg (State.run ⟨x, h⟩) ((jalr_int hm).trans (Hart.checkTarget_pass ha))

/-- Settles O28: an accepted and aligned operand is installed, whole if it is unsealed. -/
theorem jalrCapabilityCompletes : Obligations.JalrCapabilityCompletes := by
  intro x h rd rs1 imm hm c t target
  refine ⟨fun hp hf ht => ?_, jalrPccFailure_eq_none, jalrFailure_of_authorised, Hart.jalrInstalled_addr ..,
    Hart.jalrInstalled_tag .., jalrInstalled_m .., Hart.jalrInstalled_unsealed imm t, Hart.jalrLink_addr .., jalrLink_given⟩
  exact congrArg (State.run ⟨x, h⟩) ((jalr_cap_accepted hm hp hf).trans (if_pos ht))

/-- Settles O29: the value written is the mode's, and `SetAddr` replaces the address whatever else it does. -/
theorem auipcCompletes : Obligations.AuipcCompletes := by
  intro x h rd imm v
  refine ⟨fun hm => ?_, fun hm => ?_, setAddrPcc_addr v, setAddrPcc_given v, rfl, rfl⟩
  · rw [exec_auipc, auipcValue_int imm hm]
    rfl
  · rw [exec_auipc, auipcValue_cap imm hm]

/-- Settles O58: a branch enters a trap handler or writes `pc`, a mode switch writes the M-bit of `pcc` too. -/
theorem frameBranchesAndSwitches : Obligations.FrameBranchesAndSwitches := by
  intro x h rs1 rs2 off i t hi hs
  simp only [List.mem_cons, List.not_mem_nil, or_false] at hi
  rcases hi with rfl | rfl | rfl | rfl | rfl | rfl | rfl | rfl
  · exact exists_hart_of_run hs fun _ => branch_movedOnly _
  · exact exists_hart_of_run hs fun _ => branch_movedOnly _
  · exact exists_hart_of_run hs fun _ => branch_movedOnly _
  · exact exists_hart_of_run hs fun _ => branch_movedOnly _
  · exact exists_hart_of_run hs fun _ => branch_movedOnly _
  · exact exists_hart_of_run hs fun _ => branch_movedOnly _
  · refine exists_hart_of_run hs fun _ hr => (Hart.modeswCap_next hr).imp_right ?_
    rintro ⟨-, -, rfl⟩
    exact movedOnly_switchM _ (by simp)
  · refine exists_hart_of_run hs fun _ hr => (Hart.modeswInt_next hr).imp_right ?_
    rintro ⟨-, rfl⟩
    exact movedOnly_switchM _ (by simp)

/-- Settles O59: a jump enters a trap handler or writes its link and `pcc`, all of which only a Capability Mode JALR does. -/
theorem frameJumps : Obligations.FrameJumps := by
  intro x h rd rs1 imm off i t hi hs
  simp only [List.mem_cons, List.not_mem_nil, or_false] at hi
  rcases hi with rfl | rfl
  · exact exists_hart_of_run hs fun _ => jal_jumpedOnly _
  · exact exists_hart_of_run hs fun _ => jalr_jumpedOnly fun hk => hk.resolve_left nofun

end Sys2Proof
end

section
/-!
PROOFS. The mode instructions (spec/42, R120 to R126): what each of them writes, the mode after a switch, and that all of
them, with every capability CSR access, are illegal when CHERI access is disabled (R124, R167).
-/

namespace Sys2Proof.Machine

section

variable {w : Nat} {h : Hart w}

/-! ## What is written, and what is read back -/

/-- A register other than 0 reads as what was written to it (R12). -/
theorem creg_setC_self {i : Reg} (v : Cap w) (hi : i ≠ 0) : (h.setC i v).creg i = v :=
  (h.creg_setC i i v).trans (if_pos ⟨rfl, hi⟩)

/-- A register other than 0 holds the integer written to it (R12). -/
theorem x_setX_self {i : Reg} (v : BitVec w) (hi : i ≠ 0) : (h.setX i v).x i = v :=
  congrArg Cap.addr (creg_setC_self (Cap.ofInt v) hi)

/-- GCMODE answers the M field where X-permission or the policy lets it be read (R121). -/
theorem gcmodeResult_eq (cfg : Config w) (c : Cap w) :
    gcmodeResult cfg c = if (c.permX cfg = true ∨ cfg.gcmodeNoX = .rawBit) ∧ c.m cfg = true then 1 else 0 := by
  unfold gcmodeResult
  by_cases hx : c.permX cfg = true
  · simp [hx, bitToWord]
  · cases cfg.gcmodeNoX with
    | zero => simp [hx]
    | rawBit => simp [hx, bitToWord]

/-- `set_addr_scaddr` of an unsealed capability to the address it has changes nothing: that address is representable (R156). -/
theorem setAddrScaddr_addr_self {cfg : Config w} {c : Cap w} (hs : c.isSealed cfg = false) :
    c.setAddrScaddr cfg c.addr = c := by
  have hr : c.representable cfg c.addr = true := decide_eq_true rfl
  rw [Cap.setAddrScaddr, hs, hr]
  rfl

/-- The upper immediate 0 adds nothing to `pc` (R62). -/
theorem upperImm_zero : upperImm 0 = 0#w :=
  (BitVec.signExtend_eq_setWidth_of_msb_false rfl).trans (BitVec.setWidth_zero w 32)

/-- `auipc 0` writes an untagged integer in Integer Mode, and in Capability Mode an unsealed `pcc` as it is (R108, R126). -/
theorem auipcValue_zero_tag
    (hc : h.mode = .cap → h.cfg.base.setAddr = .given ∧ h.pcc.tag = true ∧ h.pcc.isSealed h.cfg = false) :
    (h.auipcValue 0).tag = decide (h.mode = .cap) := by
  unfold Hart.auipcValue
  cases hm : h.mode with
  | int => rfl
  | cap =>
    obtain ⟨hgiven, htag, hseal⟩ := hc hm
    have hpc : h.pc + upperImm 0 = h.pcc.addr := by rw [upperImm_zero, BitVec.add_zero, Hart.pc]
    simp only [hpc, setAddrPcc_given _ hgiven, setAddrScaddr_addr_self hseal, htag, decide_true]

/-! ## Switches -/

/-- After a switch the mode is Capability Mode when the new M-bit is CAP_MODE_VALUE and CHERI access is enabled (R16, R122,
R123). -/
theorem switchM_mode (m : Bool) :
    (h.switchM m).mode = if m == h.cfg.capModeValue && h.cheriEnabled then .cap else .int := by
  have hM : (h.switchM m).pcc.m h.cfg = m := (withM_getLsbD m _).trans (if_pos rfl)
  have he : (h.switchM m).cheriEnabled = h.cheriEnabled := rfl
  rw [Hart.mode, show (h.switchM m).cfg = h.cfg from rfl, hM, he]

/-- With CHERI access disabled the mode is Integer Mode (R16). -/
theorem mode_of_disabled (he : h.cheriEnabled = false) : h.mode = .int := by
  simp [Hart.mode, he]

/-- MODESW.CAP in Integer Mode switches to CAP_MODE_VALUE (R122). -/
theorem modeswCap_int (he : h.cheriEnabled = true) (hm : h.mode = .int) :
    h.modeswCap = .next (h.switchM h.cfg.capModeValue) := by
  rw [Hart.modeswCap, Hart.needCheri_pass he, hm]

/-- MODESW.CAP in Capability Mode is refused (R66; log 22). -/
theorem modeswCap_cap (he : h.cheriEnabled = true) (hm : h.mode = .cap) :
    h.modeswCap = .refused (.wrongMode "MODESW.CAP") := by
  rw [Hart.modeswCap, Hart.needCheri_pass he, hm]

/-- MODESW.INT in Capability Mode switches to the other value (R123). -/
theorem modeswInt_cap (hm : h.mode = .cap) : h.modeswInt = .next (h.switchM (!h.cfg.capModeValue)) := by
  rw [Hart.modeswInt, hm]

/-- MODESW.INT in Integer Mode asks for CHERI access, and is then refused (R66, R123; log 22). -/
theorem modeswInt_int (hm : h.mode = .int) : h.modeswInt = h.needCheri (.refused (.wrongMode "MODESW.INT")) := by
  rw [Hart.modeswInt, hm]

/-! ## CHERI access disabled -/

/-- A capability access to a CSR is illegal with CHERI access disabled, whichever of its checks finds it first (R167, R169). -/
theorem csrChecked_disabled {a : CsrAddr} {wr : Bool} {d : CsrDesc} {f : CsrDesc → Res w} (hd : csrAt h.cfg a = some d)
    (hc : capAccess h.mode d.cls = true) (he : h.cheriEnabled = false) :
    h.csrChecked a wr f = h.raise (.illegal h.fetchedWord) := by
  have hr : (capAccess h.mode d.cls && !h.cheriEnabled) = true := by rw [hc, he]; rfl
  simp only [Hart.csrChecked, hd, hr, if_true, ite_self]
  rfl

end

/-! ## Execution -/

variable {x : Xlen} {h : Hart x.bits}

/-- With CHERI access enabled a CHERI instruction that writes one register does so and moves `pc` on. -/
theorem run_needCheri_setC (i : Reg) (v : Cap x.bits) (he : h.cheriEnabled = true) :
    State.run ⟨x, h⟩ (h.needCheri (.next (h.setC i v).advance)) = .next ⟨x, (h.setC i v).setPc (h.pc + 4)⟩ := by
  rw [Hart.needCheri_pass he, Hart.advance, Hart.setC_nextPc]
  rfl

/-- With CHERI access disabled a CHERI instruction raises illegal-instruction (R124). -/
theorem run_needCheri_disabled (r : Res x.bits) (he : h.cheriEnabled = false) :
    State.run ⟨x, h⟩ (h.needCheri r) = raised x h (.illegal h.fetchedWord) :=
  congrArg (State.run ⟨x, h⟩) (Hart.needCheri_fail he)

/-- GCTAG writes the tag as an integer and moves `pc` on (R125). -/
theorem exec_gctag (rd cs1 : Reg) (he : h.cheriEnabled = true) :
    exec (.gctag rd cs1) ⟨x, h⟩ = .next ⟨x, (h.setX rd (bitToWord (h.creg cs1).tag)).setPc (h.pc + 4)⟩ :=
  run_needCheri_setC rd _ he

/-- Every CSR instruction begins with the checks of its CSR (R169, R167, R152). -/
theorem exec_of_mem_csrInstrs {rd rs1 : Reg} {a : CsrAddr} {p : Instr × Bool} (hp : p ∈ csrInstrs rd rs1 a) :
    ∃ next, exec p.1 ⟨x, h⟩ = State.run ⟨x, h⟩ (h.csrChecked a p.2 next) := by
  simp only [csrInstrs, List.mem_cons, List.not_mem_nil, or_false] at hp
  rcases hp with rfl | rfl | rfl | rfl | rfl | rfl <;> exact ⟨_, rfl⟩

end Sys2Proof.Machine

namespace Sys2Proof

open Machine

/-- Settles O38: the result is a function of the source and bit 0 of `x[rs2]`, written as a whole capability. -/
theorem scmodeCompletes : Obligations.ScmodeCompletes := by
  intro x h cd cs1 rs2 he
  exact run_needCheri_setC cd (scmodeResult h.cfg (h.creg cs1) ((h.x rs2).getLsbD 0)) he

/-- Settles O39: the answer is the M-bit where it may be read. -/
theorem gcmodeCompletes : Obligations.GcmodeCompletes := by
  intro x h rd cs1 he c r
  have hr : gcmodeResult h.cfg c = r := gcmodeResult_eq h.cfg c
  rw [← hr]
  exact run_needCheri_setC rd _ he

/-- Settles O42: the tag as a word of one bit. -/
theorem gctagCompletes : Obligations.GctagCompletes := by
  intro x h rd cs1 he
  exact exec_gctag rd cs1 he

/-- Settles O40: in Integer Mode the M-bit becomes the value that R16 compares it with. -/
theorem modeswCapCompletes : Obligations.ModeswCapCompletes := by
  intro x h h'
  refine ⟨fun he => run_needCheri_disabled _ he, fun he hm => ⟨?_, ?_⟩, fun he hm => ?_⟩
  · exact congrArg (State.run ⟨x, h⟩) (modeswCap_int he hm)
  · exact (switchM_mode _).trans (by simp [he])
  · exact congrArg (State.run ⟨x, h⟩) (modeswCap_cap he hm)

/-- Settles O41: in Capability Mode the M-bit becomes the other value; in Integer Mode the access setting is asked first. -/
theorem modeswIntCompletes : Obligations.ModeswIntCompletes := by
  intro x h h'
  refine ⟨fun hm => ⟨?_, ?_⟩, fun hm he => ?_, fun hm he => ?_⟩
  · exact congrArg (State.run ⟨x, h⟩) (modeswInt_cap hm)
  · exact (switchM_mode _).trans (by simp)
  · exact congrArg (State.run ⟨x, h⟩) ((modeswInt_int hm).trans (Hart.needCheri_fail he))
  · exact congrArg (State.run ⟨x, h⟩) ((modeswInt_int hm).trans (Hart.needCheri_pass he))

/-- Settles O43: each CHERI instruction asks for the access setting first, MODESW.INT because the mode is then Integer Mode;
a CSR instruction asks for it on every capability access. -/
theorem disabledIsIllegal : Obligations.DisabledIsIllegal := by
  intro x h r r1 r2 imm a he
  refine ⟨fun i hi => ?_, fun p hp d hd hc => ?_⟩
  · simp only [List.mem_cons, List.not_mem_nil, or_false] at hi
    rcases hi with rfl | rfl | rfl | rfl | rfl | rfl | rfl
    case inr.inr.inr.inl =>
      exact congrArg (State.run ⟨x, h⟩) ((modeswInt_int (mode_of_disabled he)).trans (Hart.needCheri_fail he))
    all_goals exact run_needCheri_disabled _ he
  · obtain ⟨next, hexec⟩ := exec_of_mem_csrInstrs (x := x) (h := h) hp
    rw [hexec, csrChecked_disabled hd hc he]
    rfl

/-- Settles O44: what AUIPC leaves in `c1` is tagged in Capability Mode alone, and GCTAG reads that tag. -/
theorem observingSequence : Obligations.ObservingSequence := by
  intro x h he hc
  have he1 : ((h.setC 1 (h.auipcValue 0)).setPc (h.pc + 4)).cheriEnabled = true := by simpa using he
  refine ⟨_, _, exec_auipc 1 0, exec_gctag 1 1 he1, ?_⟩
  rw [Hart.setPc_x, x_setX_self _ (by decide), Hart.setPc_creg, creg_setC_self _ (by decide), auipcValue_zero_tag hc]
  simp only [bitToWord, decide_eq_true_eq]
  rfl

end Sys2Proof
end

section
/-!
PROOFS. The capability load and store that happen, and a capability store over the program text (spec/43, R140, R141).
-/

namespace Sys2Proof.Machine

section

variable {w : Nat} {h : Hart w}

/-- The default `LoadCapFilter` is the identity (R140). -/
theorem loadCapFilter_given {cfg : Config w} (auth v : Cap w) (hf : cfg.base.loadFilter = .given) :
    loadCapFilter cfg auth v = v := by
  simp only [loadCapFilter, hf]

/-- The default `StoreCapFilter` is the identity (R141). -/
theorem storeCapFilter_given {cfg : Config w} (auth v : Cap w) (hf : cfg.base.storeFilter = .given) :
    storeCapFilter cfg auth v = v := by
  simp only [storeCapFilter, hf]

/-- An allowed LC puts the filtered capability in its destination and moves `pc` on (R140). -/
theorem lc_pass {cd rs1 : Reg} {imm : BitVec 12} (ha : h.capAccessAllowed .loadCap rs1 imm) :
    Hart.lc cd rs1 imm h =
      .next ((h.setC cd (loadCapFilter h.cfg (h.dataAuth rs1) (h.memReadCap (h.effAddr rs1 imm)))).setPc (h.pc + 4)) := by
  obtain ⟨henabled, haccess : h.capAllowedAt .loadCap rs1 (h.effAddr rs1 imm)⟩ := ha
  rw [Hart.lc, Hart.needCheri_pass henabled, Hart.needLoadCap_pass haccess, Hart.advance, Hart.setC_nextPc]
  rfl

/-- An allowed SC off the program text stores the filtered capability and moves `pc` on (R141). -/
theorem sc_pass {cs2 rs1 : Reg} {imm : BitVec 12} (ha : h.capAccessAllowed .storeCap rs1 imm)
    (ht : h.offText (h.effAddr rs1 imm) (clenBytes w)) :
    Hart.sc cs2 rs1 imm h =
      .next ((h.memWriteCap (h.effAddr rs1 imm) (storeCapFilter h.cfg (h.dataAuth rs1) (h.creg cs2))).setPc (h.pc + 4)) := by
  obtain ⟨henabled, haccess : h.capAllowedAt .storeCap rs1 (h.effAddr rs1 imm)⟩ := ha
  rw [Hart.sc, Hart.needCheri_pass henabled, Hart.needStoreCap_pass haccess ht, Hart.advance, Hart.memWriteCap_nextPc]
  rfl

end

variable {x : Xlen} {h : Hart x.bits}

/-- An SC that only the program text stops is refused (R141, R52, D34). -/
theorem exec_sc_text {cs2 rs1 : Reg} {imm : BitVec 12} (ha : h.capAccessAllowed .storeCap rs1 imm)
    (ht : ¬h.offText (h.effAddr rs1 imm) (clenBytes x.bits)) :
    exec (.sc cs2 rs1 imm) ⟨x, h⟩ = .refused (.programText (h.effAddr rs1 imm).toNat) := by
  obtain ⟨henabled, hauth, haligned, hbacked⟩ := ha
  obtain ⟨rest, hexec⟩ := exec_sc cs2 rs1 imm henabled
  have hrefused : h.needBaseStore ⟨rs1, h.effAddr rs1 imm, .cap⟩ rest = .refused (.programText (h.effAddr rs1 imm).toNat) :=
    needBaseStore_text hauth haligned hbacked ht
  exact hexec.trans (congrArg (State.run ⟨x, h⟩) hrefused)

end Sys2Proof.Machine

namespace Sys2Proof

open Machine

/-- Settles O22: an allowed LC passes each of its checks, and the default filter is the identity. -/
theorem loadCapCompletes : Obligations.LoadCapCompletes := by
  intro x h cd rs1 imm ha ea authority
  exact ⟨congrArg (State.run ⟨x, h⟩) (lc_pass ha), loadCapFilter_given authority _⟩

/-- Settles O23: the program text is the last check of an allowed SC, and the default filter is the identity. -/
theorem storeCapCompletes : Obligations.StoreCapCompletes := by
  intro x h cs2 rs1 imm ha ea authority
  exact ⟨fun ht => congrArg (State.run ⟨x, h⟩) (sc_pass ha ht), exec_sc_text ha, storeCapFilter_given authority _⟩

end Sys2Proof
end

section
/-!
PROOFS. The CSR instructions that complete (spec/44, R150 to R166): which of them move a whole capability, what a CSR stores,
what each instruction writes, and what it leaves unchanged.
-/

namespace Sys2Proof.Machine

section

variable {w : Nat} {h h' : Hart w} {rd rs1 : Reg} {a : CsrAddr} {d : CsrDesc}

/-! ## What a CSR stores -/

/-- `set_addr_scaddr` keeps the metadata (R156). -/
theorem setAddrScaddr_metadata {cfg : Config w} (c : Cap w) (v : BitVec w) :
    (c.setAddrScaddr cfg v).metadata = c.metadata := by
  unfold Cap.setAddrScaddr
  split <;> rfl

/-- `set_addr_scaddr` keeps a tag only of an unsealed capability and a representable address (R156). -/
theorem setAddrScaddr_tag {cfg : Config w} (c : Cap w) (v : BitVec w) :
    (c.setAddrScaddr cfg v).tag = (c.tag && !c.isSealed cfg && c.representable cfg v) := by
  unfold Cap.setAddrScaddr
  cases c.isSealed cfg with
  | true => simp [Cap.clearTag]
  | false => cases c.representable cfg v <;> simp [Cap.clearTag, Cap.withAddr]

/-- By default an address write of a capability CSR is `set_addr_scaddr` (R155). -/
theorem extCsrWrite_addrOnly_given {cfg : Config w} {old : Cap w} {v : BitVec w} (hd : d.write = .given) :
    extCsrWrite cfg d old (.addrOnly v) = old.setAddrScaddr cfg v := by
  rw [extCsrWrite, hd]

/-- By default a full write of a capability CSR stores the capability (R155). -/
theorem extCsrWrite_full_given {cfg : Config w} {old c : Cap w} (hd : d.write = .given) :
    extCsrWrite cfg d old (.full c) = c := by
  rw [extCsrWrite, hd]

/-- An ordinary CSR without a rule of its own stores the written bits (R159; log 14). -/
theorem ordCsrWrite_given {old v : BitVec w} (hd : d.write = .given) : ordCsrWrite d old v = v := by
  rw [ordCsrWrite, hd]

/-! ## Classes of CSR -/

/-- A capability access is of a capability CSR (R150). -/
theorem ne_ord_of_capAccess {m : Mode} {c : CsrClass} (hc : capAccess m c = true) : c ≠ .ord := by
  rintro rfl
  cases hc

/-- In Integer Mode an extended CSR is not accessed as a capability (R150). -/
theorem capAccess_ext_int {m : Mode} (hm : m = .int) : capAccess m .ext = false := by
  subst hm
  rfl

/-- What goes to the destination: XLEN bits of an ordinary CSR, the whole capability on a capability access, else its address
(R153, R166). -/
theorem csrToReg_eq (g old : Hart w) :
    g.csrToReg old rd a d =
      if d.cls = .ord then g.setX rd (old.ordCsr a)
      else if capAccess old.mode d.cls = true then g.setC rd (old.capCsr a)
      else g.setX rd (old.capCsr a).addr := by
  unfold Hart.csrToReg
  cases d.cls <;> rfl

/-- What CSRRW writes: XLEN bits to an ordinary CSR, the whole capability on a capability access, else an address (R157 to
R159). -/
theorem csrrwWrite_eq :
    h.csrrwWrite rs1 a d =
      if d.cls = .ord then h.setOrdCsr a (ordCsrWrite d (h.ordCsr a) (h.x rs1))
      else h.setCapCsr a (extCsrWrite h.cfg d (h.capCsr a)
        (if capAccess h.mode d.cls = true then .full (h.creg rs1) else .addrOnly (h.x rs1))) := by
  unfold Hart.csrrwWrite
  cases d.cls <;> rfl

/-- What the other five write: XLEN bits to an ordinary CSR, an address to any capability CSR (R153). -/
theorem csrUpdate_eq (f : BitVec w → BitVec w) :
    h.csrUpdate f a d =
      if d.cls = .ord then h.setOrdCsr a (ordCsrWrite d (h.ordCsr a) (f (h.ordCsr a)))
      else h.setCapCsr a (extCsrWrite h.cfg d (h.capCsr a) (.addrOnly (f (h.capCsr a).addr))) := by
  unfold Hart.csrUpdate
  cases d.cls <;> rfl

/-! ## The write of a CSR, and what it leaves unchanged -/

/-- A CSR instruction's write of the CSR `a` on the hart `h`: none where it is suppressed (R165). -/
inductive Hart.CsrWritten (h : Hart w) (a : CsrAddr) : Bool → Hart w → Prop
  | suppressed : CsrWritten h a false h
  | ord (u : BitVec w) : CsrWritten h a true (h.setOrdCsr a u)
  | cap (u : Cap w) : CsrWritten h a true (h.setCapCsr a u)

/-- CSRRW writes its CSR (R165). -/
theorem csrrwWrite_written : h.CsrWritten a true (h.csrrwWrite rs1 a d) := by
  rw [csrrwWrite_eq]
  split
  · exact .ord _
  · exact .cap _

/-- The other five write their CSR unless the write is suppressed (R165). -/
theorem csrUpdate_written (f : BitVec w → BitVec w) (wr : Bool) :
    h.CsrWritten a wr (if wr then h.csrUpdate f a d else h) := by
  cases wr with
  | false => exact .suppressed
  | true =>
    rw [if_pos rfl, csrUpdate_eq]
    split
    · exact .ord _
    · exact .cap _

/-- The write of a CSR leaves registers, memory, `pcc`, privilege and parameters alone. -/
theorem Hart.CsrWritten.keeps {g : Hart w} {wr : Bool} (hg : h.CsrWritten a wr g) :
    keepsRegs h g ∧ keepsMemory h g ∧ g.pcc = h.pcc ∧ keepsSetting h g := by
  cases hg <;> simp [keepsRegs, keepsMemory, keepsSetting]

/-- The write of a CSR leaves every other CSR alone. -/
theorem Hart.CsrWritten.csr_ne {g : Hart w} {wr : Bool} (hg : h.CsrWritten a wr g) {b : CsrAddr} (hb : b ≠ a) :
    g.capCsr b = h.capCsr b ∧ g.ordCsr b = h.ordCsr b := by
  cases hg with
  | suppressed => exact ⟨rfl, rfl⟩
  | ord u => exact ⟨h.setOrdCsr_capCsr a u b, h.ordCsr_setOrdCsr_ne u hb⟩
  | cap u => exact ⟨h.capCsr_setCapCsr_ne u hb, h.setCapCsr_ordCsr a u b⟩

/-- The write of a CSR that is not at 0x416 leaves `ddc` alone (R20). -/
theorem Hart.CsrWritten.ddc_eq {g : Hart w} {wr : Bool} (hg : h.CsrWritten a wr g) (ha : a ≠ ddcAddr) : g.ddc = h.ddc := by
  cases hg with
  | suppressed | ord => rfl
  | cap u => exact h.setCapCsr_ddc_ne u ha

/-- Of the hart `h` only register `rd` has changed, the CSR `a` if the instruction `writes`, and `pc`, by 4. -/
def Hart.WroteCsrOnly (h : Hart w) (rd : Reg) (a : CsrAddr) (writes : Bool) (h' : Hart w) : Prop :=
  keepsRegsBut rd h h' ∧ (∀ b, b ≠ a → h'.capCsr b = h.capCsr b ∧ h'.ordCsr b = h.ordCsr b) ∧
    (a ≠ 0x416 → h'.ddc = h.ddc) ∧ (writes = false → keepsCsrs h h') ∧ keepsMemory h h' ∧ keepsPcc h h' ∧
    h'.pc = h.pc + 4 ∧ keepsSetting h h'

/-- The write of a CSR, then of a register, changes nothing else but `pc` (R151, R165). -/
theorem wroteCsrOnly_setC_advance {g : Hart w} {wr : Bool} (hg : h.CsrWritten a wr g) (v : Cap w) :
    h.WroteCsrOnly rd a wr (g.setC rd v).advance := by
  obtain ⟨hregs, hmem, hpcc, hpriv, hcfg⟩ := hg.keeps
  refine ⟨fun i hi => ?_, fun b hb => ?_, fun ha => ?_, fun hwr => ?_, fun b => ?_, ⟨?_, ?_⟩, ?_, ?_, ?_⟩
  · rw [Hart.advance_creg, Hart.creg_setC_ne _ _ hi, hregs i]
  · simpa using hg.csr_ne hb
  · simpa using hg.ddc_eq ha
  · subst hwr
    cases hg
    simp [keepsCsrs]
  · simpa using hmem b
  · rw [Hart.advance_tag, Hart.setC_pcc, hpcc]
  · rw [Hart.advance_metadata, Hart.setC_pcc, hpcc]
  · rw [Hart.advance_pc, Hart.setC_pc, Hart.pc, hpcc, Hart.pc]
  · rw [Hart.advance_priv, Hart.setC_priv, hpriv]
  · rw [Hart.advance_cfg, Hart.setC_cfg, hcfg]

/-- The write of a CSR, then of the destination, changes nothing else but `pc` (R153). -/
theorem wroteCsrOnly_csrToReg {g : Hart w} {wr : Bool} (hg : h.CsrWritten a wr g) :
    h.WroteCsrOnly rd a wr (g.csrToReg h rd a d).advance := by
  obtain ⟨v, hv⟩ := csrToReg_eq_setC (h := g) h rd a d
  exact hv ▸ wroteCsrOnly_setC_advance hg v

/-- After the write of a CSR and of the destination, `pc` moves on by 4. -/
theorem csrToReg_advance {g : Hart w} {wr : Bool} (hg : h.CsrWritten a wr g) :
    (g.csrToReg h rd a d).advance = (g.csrToReg h rd a d).setPc (h.pc + 4) := by
  obtain ⟨v, hv⟩ := csrToReg_eq_setC (h := g) h rd a d
  obtain ⟨-, -, hpcc, -⟩ := hg.keeps
  rw [hv, Hart.advance, Hart.setC_nextPc, Hart.nextPc, Hart.pc, hpcc]
  rfl

/-! ## What an instruction does -/

/-- An allowed CSRRW writes its CSR, then its destination (R157 to R159). -/
theorem csrrw_pass (ha : h.csrAllowed a true d) :
    Hart.csrrw rd rs1 a h = .next (((h.csrrwWrite rs1 a d).csrToReg h rd a d).setPc (h.pc + 4)) := by
  rw [Hart.csrrw, Hart.csrChecked_pass ha, csrToReg_advance csrrwWrite_written]

/-- Any other CSR instruction, allowed, writes its CSR unless suppressed, then its destination (R160 to R165). -/
theorem csrModify_pass {f : BitVec w → BitVec w} {wr : Bool} (ha : h.csrAllowed a wr d) :
    Hart.csrModify rd f wr a h =
      .next (((if wr then h.csrUpdate f a d else h).csrToReg h rd a d).setPc (h.pc + 4)) := by
  rw [Hart.csrModify, Hart.csrChecked_pass ha, csrToReg_advance (csrUpdate_written f wr)]

/-- CSRRW enters a trap handler, or writes its CSR and its destination and nothing else. -/
theorem csrrw_wroteCsrOnly (hr : Hart.csrrw rd rs1 a h = .next h') : h.Entered h' ∨ h.WroteCsrOnly rd a true h' := by
  refine (Hart.csrrw_next hr).imp_right ?_
  rintro ⟨d, -, rfl⟩
  exact wroteCsrOnly_csrToReg csrrwWrite_written

/-- Any other CSR instruction enters a trap handler, or writes its destination and, unless suppressed, its CSR, and nothing
else (R165). -/
theorem csrModify_wroteCsrOnly {f : BitVec w → BitVec w} {wr : Bool} (hr : Hart.csrModify rd f wr a h = .next h') :
    h.Entered h' ∨ h.WroteCsrOnly rd a wr h' := by
  refine (Hart.csrModify_next hr).imp_right ?_
  rintro ⟨d, -, rfl⟩
  exact wroteCsrOnly_csrToReg (csrUpdate_written f wr)

end

variable {x : Xlen} {h : Hart x.bits} {a : CsrAddr} {d : CsrDesc}

/-- An allowed CSRRW runs to its effect. -/
theorem exec_csrrw {rd rs1 : Reg} (ha : h.csrAllowed a true d) :
    exec (.csrrw rd rs1 a) ⟨x, h⟩ =
      .next ⟨x, ((h.csrrwWrite rs1 a d).csrToReg h rd a d).setPc (h.pc + 4)⟩ :=
  congrArg (State.run ⟨x, h⟩) (csrrw_pass ha)

/-- An allowed CSRRWI writes its immediate whatever it is (R162, R165). -/
theorem exec_csrrwi {rd uimm : BitVec 5} (ha : h.csrAllowed a true d) :
    exec (.csrrwi rd uimm a) ⟨x, h⟩ =
      .next ⟨x, ((h.csrUpdate (fun _ => uimm.setWidth x.bits) a d).csrToReg h rd a d).setPc (h.pc + 4)⟩ :=
  congrArg (State.run ⟨x, h⟩) (csrModify_pass ha)

end Sys2Proof.Machine

namespace Sys2Proof

open Machine

/-- Settles O4: only the tag depends on the seal and on the bounds, which the present address keeps. -/
theorem addressUpdate : Obligations.AddressUpdate := by
  intro x cfg c v
  refine ⟨setAddrScaddr_addr c v, setAddrScaddr_metadata c v, ?_, decide_eq_true_iff, decide_eq_true rfl⟩
  rw [setAddrScaddr_tag]
  simp [and_assoc]

/-- Settles O36: the default rule, request by request. -/
theorem extCsrWriteDefault : Obligations.ExtCsrWriteDefault := by
  intro x cfg d old c v hd
  refine ⟨?_, extCsrWrite_full_given hd⟩
  rw [extCsrWrite_addrOnly_given hd, Cap.setAddrScaddr]
  simp only [Bool.or_eq_true, Bool.not_eq_true']
  rfl

/-- Settles O37: class by class, the mode counting for an extended CSR alone. -/
theorem capabilityAccess : Obligations.CapabilityAccess := by
  intro m c
  cases c with
  | new | ext | ord => simp [capAccess]

/-- Settles O30: on a capability access both the write and the value read are whole capabilities. -/
theorem csrrwCapability : Obligations.CsrrwCapability := by
  intro x h rd rs1 a d ha hc
  rw [exec_csrrw ha, csrrwWrite_eq, csrToReg_eq]
  simp only [ne_ord_of_capAccess hc, hc, if_true, if_false]

/-- Settles O31: without a capability access CSRRW moves XLEN bits, of an address or of an ordinary CSR. -/
theorem csrrwInteger : Obligations.CsrrwInteger := by
  intro x h rd rs1 a d ha
  refine ⟨fun hd hm => ?_, fun hd => ?_, fun hw _ _ => ordCsrWrite_given hw⟩
  · rw [exec_csrrw ha, csrrwWrite_eq, csrToReg_eq]
    simp only [hd, capAccess_ext_int hm, reduceCtorEq, Bool.false_eq_true, if_false]
  · rw [exec_csrrw ha, csrrwWrite_eq, csrToReg_eq]
    simp only [hd, if_true]

/-- Settles O32: the four instructions are one update with four functions of the old value, suppressed by a zero field. -/
theorem csrSetAndClear : Obligations.CsrSetAndClear := by
  intro x h rd rs1 a d ha after
  have hmodify : ∀ f, State.run ⟨x, h⟩ (Hart.csrModify rd f (rs1 != 0) a h) = after f := fun f => by
    rw [csrModify_pass ha, csrToReg_eq, csrUpdate_eq]
    simp only [bne_iff_ne, ne_eq, ite_not, after]
    by_cases hd : d.cls = .ord
    · simp only [hd, if_true, State.run]
    · simp only [hd, if_false, State.run]
  exact ⟨hmodify _, hmodify _, hmodify _, hmodify _⟩

/-- Settles O33: CSRRWI updates with a constant, an address on any capability CSR, whatever goes to the destination. -/
theorem csrrwiCompletes : Obligations.CsrrwiCompletes := by
  intro x h rd uimm a d ha written ordWritten
  rw [exec_csrrwi ha, csrUpdate_eq, csrToReg_eq]
  refine ⟨fun hd => ?_, fun hc => ?_, fun hd hm => ?_⟩
  · simp only [hd, if_true, ordWritten]
  · simp only [ne_ord_of_capAccess hc, hc, if_true, if_false, written]
  · simp only [hd, capAccess_ext_int hm, reduceCtorEq, Bool.false_eq_true, if_false, written]

/-- Settles O60: each CSR instruction enters a trap handler or writes its destination and, unless suppressed, its CSR. -/
theorem frameCsrInstructions : Obligations.FrameCsrInstructions := by
  intro x h rd rs1 a p t hp hs
  simp only [csrInstrs, List.mem_cons, List.not_mem_nil, or_false] at hp
  rcases hp with rfl | rfl | rfl | rfl | rfl | rfl
  · exact exists_hart_of_run hs fun _ => csrrw_wroteCsrOnly
  all_goals exact exists_hart_of_run hs fun _ => csrModify_wroteCsrOnly

end Sys2Proof
end

section
/-!
PROOFS. Exceptions (spec/60): the terminal outcome (R180), what entry to a trap handler writes and where (R187, R192; logs 24
to 26), and the order of the checks of a CSR instruction (R169, R167, R152).
-/

namespace Sys2Proof.Machine

section

variable {w : Nat} {h : Hart w}

/-! ## The checks of a CSR instruction -/

variable {a : CsrAddr} {wr : Bool} {d : CsrDesc} {f : CsrDesc → Res w}

/-- The first test on an implemented CSR fails for too low a privilege, or a write to a read-only CSR (R169). -/
theorem csrBaseFails_iff {p : Priv} :
    (!privSuffices p a || (wr && csrReadOnly a)) = true ↔
      ¬a.extractLsb' 8 2 ≤ Priv.level p ∨ (wr = true ∧ a.extractLsb' 10 2 = 3#2) := by
  simp only [privSuffices, csrReadOnly, Bool.or_eq_true, Bool.not_eq_true', decide_eq_false_iff_not, Bool.and_eq_true,
    beq_iff_eq]

/-- An access to a CSR that is not implemented is illegal (R169). -/
theorem csrChecked_unimplemented (hd : csrAt h.cfg a = none) : h.csrChecked a wr f = h.raise (.illegal h.fetchedWord) := by
  simp only [Hart.csrChecked, hd, Hart.illegal]

/-- An access with too low a privilege, or that would write a read-only CSR, is illegal (R169). -/
theorem csrChecked_baseFails (hd : csrAt h.cfg a = some d)
    (hb : ¬a.extractLsb' 8 2 ≤ Priv.level h.priv ∨ (wr = true ∧ a.extractLsb' 10 2 = 3#2)) :
    h.csrChecked a wr f = h.raise (.illegal h.fetchedWord) := by
  simp only [Hart.csrChecked, hd, if_pos (csrBaseFails_iff.mpr hb), Hart.illegal]

/-- An access that passes the earlier checks to a CSR that needs ASR-permission raises a CHERI exception without it (R152). -/
theorem csrChecked_without_asr (hd : csrAt h.cfg a = some d)
    (hb : ¬(¬a.extractLsb' 8 2 ≤ Priv.level h.priv ∨ (wr = true ∧ a.extractLsb' 10 2 = 3#2)))
    (hc : ¬(capAccess h.mode d.cls = true ∧ h.cheriEnabled = false)) (hn : d.needsAsr = true)
    (hp : h.pcc.permAsr h.cfg = false) : h.csrChecked a wr f = h.raise (.cheri .permission .csr) := by
  have hcap : ¬(capAccess h.mode d.cls && !h.cheriEnabled) = true := by rwa [Bool.and_eq_true, Bool.not_eq_true']
  have hasr : (d.needsAsr && !h.pcc.permAsr h.cfg) = true := by rw [hn, hp]; rfl
  simp only [Hart.csrChecked, hd, if_neg (mt csrBaseFails_iff.mp hb), if_neg hcap, if_pos hasr]

/-! ## What the CSRs hold on entry to a handler -/

/-- An ordinary CSR after a write of one of them (R26). -/
theorem ordCsr_setOrdCsr (b : CsrAddr) (v : BitVec w) (hw : csrTablesWf h = true) :
    (h.setOrdCsr a v).ordCsr b = if b = a then v else h.ordCsr b := by
  split
  · next hb => rw [hb, ordCsr_setOrdCsr_self a v hw]
  · next hb => exact h.ordCsr_setOrdCsr_ne v hb

/-- The ordinary CSRs on entry to a handler: status, the two values and the cause, written last to first (R187). -/
theorem ordCsr_enterTrap (t : TrapCsrs) (e : Exn) (b : CsrAddr) (hw : csrTablesWf h = true) :
    (h.enterTrap t e).ordCsr b =
      if b = t.status then trapStatus h.priv (h.ordCsr t.status)
      else if b = t.tval2 then Exn.value2 e
      else if b = t.tval then BitVec.ofNat w (Exn.value e)
      else if b = t.cause then BitVec.ofNat w (Exn.cause h.cfg.causes e)
      else h.ordCsr b := by
  have hepc := csrTablesWf_setCapCsr t.epc h.pcc hw
  have hcause := csrTablesWf_setOrdCsr t.cause (BitVec.ofNat w (Exn.cause h.cfg.causes e)) hepc
  have htval := csrTablesWf_setOrdCsr t.tval (BitVec.ofNat w (Exn.value e)) hcause
  have htval2 := csrTablesWf_setOrdCsr t.tval2 (Exn.value2 e) htval
  rw [← Hart.setCapCsr_ordCsr h t.epc h.pcc b, ← ordCsr_setOrdCsr b _ hepc, ← ordCsr_setOrdCsr b _ hcause,
    ← ordCsr_setOrdCsr b _ htval, ← ordCsr_setOrdCsr b _ htval2]
  rfl

/-- The exception-pc CSR holds the whole old `pcc` on entry to a handler (R187). -/
theorem capCsr_enterTrap_epc (t : TrapCsrs) (e : Exn) (hw : csrTablesWf h = true) (hne : t.epc ≠ ddcAddr) :
    (h.enterTrap t e).capCsr t.epc = h.pcc := by
  rw [← capCsr_setCapCsr_self t.epc h.pcc hw, Hart.capCsr, Hart.capCsr, if_neg hne, if_neg hne]
  rfl

/-- Every capability CSR but the exception pc is as it was on entry to a handler (R187; log 24). -/
theorem capCsr_enterTrap_ne (t : TrapCsrs) (e : Exn) {b : CsrAddr} (hb : b ≠ t.epc) :
    (h.enterTrap t e).capCsr b = h.capCsr b := by
  by_cases hd : b = ddcAddr
  · rw [Hart.capCsr, Hart.capCsr, if_pos hd, if_pos hd, Hart.enterTrap_ddc]
  · rw [← h.capCsr_setCapCsr_ne h.pcc hb, Hart.capCsr, Hart.capCsr, if_neg hd, if_neg hd]
    rfl

end

/-! ## The status register on entry to a handler -/

/-- MPP 12:11 is the privilege (R187; log 25). -/
theorem trapStatus_mpp {x : Xlen} (p : Priv) (old : BitVec x.bits) :
    (trapStatus p old).extractLsb' 11 2 = Priv.level p := by
  refine BitVec.eq_of_getLsbD_eq fun k hk => ?_
  rw [BitVec.getLsbD_extractLsb', trapStatus_getLsbD, if_neg (by omega), if_neg (by omega), if_pos (by omega),
    Nat.add_sub_cancel_left, decide_eq_true hk, Bool.true_and]

/-- Every bit but MIE, MPIE and the two of MPP is as it was (R187; log 25). -/
theorem trapStatus_getLsbD_ne {x : Xlen} (p : Priv) (old : BitVec x.bits) {k : Nat} (hk : k ∉ [3, 7, 11, 12]) :
    (trapStatus p old).getLsbD k = old.getLsbD k := by
  simp only [List.mem_cons, List.not_mem_nil, or_false, not_or] at hk
  obtain ⟨hmie, hmpie, hmpp⟩ := hk
  rw [trapStatus_getLsbD, if_neg hmie, if_neg hmpie, if_neg (not_or.mpr hmpp)]

/-! ## Outcomes -/

variable {x : Xlen} {h : Hart x.bits}

/-- Under the default `TrapModel` an exception is the terminal outcome (R180). -/
theorem raised_terminal (e : Exn) (ht : h.cfg.trap = .terminal) : raised x h e = .fault (e.fault h.pc.toNat) := by
  rw [raised, Hart.raise, ht]
  rfl

/-- Under the handler `TrapModel` an exception enters the handler (R187). -/
theorem raised_handler {t : TrapCsrs} (e : Exn) (ht : h.cfg.trap = .handler t) :
    raised x h e = .next ⟨x, h.enterTrap t e⟩ := by
  rw [raised, Hart.raise, ht]
  rfl

end Sys2Proof.Machine

namespace Sys2Proof

open Machine

/-- Settles O34: every CSR instruction begins with the same checks, in the order stated. -/
theorem csrChecks : Obligations.CsrChecks := by
  intro x h rd rs1 a p hp illegal level baseFails
  obtain ⟨next, hexec⟩ := exec_of_mem_csrInstrs (x := x) (h := h) hp
  refine ⟨rfl, rfl, fun hd => ?_, fun d hd => ⟨fun hb => ?_, fun _ hc he => ?_, fun hb hc hn hasr => ?_⟩⟩
  · exact hexec.trans (congrArg (State.run ⟨x, h⟩) (csrChecked_unimplemented hd))
  · exact hexec.trans (congrArg (State.run ⟨x, h⟩) (csrChecked_baseFails hd hb))
  · exact hexec.trans (congrArg (State.run ⟨x, h⟩) (csrChecked_disabled hd hc he))
  · exact hexec.trans (congrArg (State.run ⟨x, h⟩) (csrChecked_without_asr hd hb hc hn hasr))

/-- Settles O45: the terminal outcome, exception by exception. -/
theorem terminalException : Obligations.TerminalException := by
  intro x h ht
  exact ⟨fun _ _ => raised_terminal _ ht, fun _ => raised_terminal _ ht, fun _ => raised_terminal _ ht,
    fun _ => raised_terminal _ ht, fun _ => raised_terminal _ ht⟩

/-- Settles O46: each of the four ordinary CSRs of the entry is written once, and the exception pc is the one capability CSR
written. -/
theorem handlerEntry : Obligations.HandlerEntry := by
  intro x h t e ht hw hnodup hepc
  simp only [List.nodup_cons, List.mem_cons, List.not_mem_nil, or_false, not_or] at hnodup
  obtain ⟨⟨hct, hct2, hcs⟩, ⟨htt2, hts⟩, ht2s, -⟩ := hnodup
  have hord := fun b => ordCsr_enterTrap t e b hw
  have hstatus : (h.enterTrap t e).ordCsr t.status = trapStatus h.priv (h.ordCsr t.status) := by rw [hord, if_pos rfl]
  refine ⟨h.enterTrap t e, raised_handler e ht, capCsr_enterTrap_epc t e hw hepc, rfl, rfl, ?cause, ?tval, ?tval2, ?mie,
    ?mpie, ?mpp, fun k hk => ?bits, fun a => capCsr_enterTrap_ne t e, fun a ha => ?others, rfl, rfl, fun i => ?regs,
    entered_keepsMemory ⟨t, e, ht, rfl⟩, h.enterTrap_cfg t e⟩
  case cause =>
    rw [hord, if_neg hcs, if_neg hct2, if_neg hct, if_pos rfl]
    cases e <;> rfl
  case tval =>
    rw [hord, if_neg hts, if_neg htt2, if_pos rfl]
    rcases e with ⟨_, _ | _ | _ | _⟩ | _ | _ | _ | _ <;> rfl
  case tval2 =>
    rw [hord, if_neg ht2s, if_pos rfl]
    cases e <;> rfl
  case mie => rw [hstatus, trapStatus_getLsbD, if_pos rfl]
  case mpie => rw [hstatus, trapStatus_getLsbD, if_neg (by decide), if_pos rfl]
  case mpp => exact hstatus ▸ trapStatus_mpp h.priv _
  case bits => rw [hstatus, trapStatus_getLsbD_ne _ _ hk]
  case others =>
    simp only [List.mem_cons, List.not_mem_nil, or_false, not_or] at ha
    obtain ⟨hc, htv, htv2, hs⟩ := ha
    rw [hord, if_neg hs, if_neg htv2, if_neg htv, if_neg hc]
  case regs => rw [Hart.creg, Hart.creg, Hart.enterTrap_c]

end Sys2Proof
end
